-- ==== Sys2Proof/Word.lean ====
section
/-! DEFINITION. The machine's word types (00_scope.md R7, R8). -/

namespace Sys2Proof

/-- One byte of Memory or of an instruction word (00_scope.md R8). -/
abbrev Byte := BitVec 8

/-- XLEN = ILEN = 32 bits: a register, a Stack entry, a memory dword, an instruction word (00_scope.md R7).
The integer a register holds is the two's complement value `toInt` of its bits (10_state.md R20). -/
abbrev Word := BitVec 32

end Sys2Proof
end

