-- ==== Sys2Proof/Syntax.lean ====
section
/-! DEFINITION. Register names and the 26 decoded instructions (opcode_table.json, 30_encoding.md R77). -/

namespace Sys2Proof

/-- The nine registers (00_scope.md R11, 10_state.md R20). -/
inductive Reg where
  | eax | ebx | ecx | edx | esi | edi | rsp | rbp | pc
  deriving DecidableEq, Repr

/-- One constructor per row of opcode_table.json. Numeric operands are the integers the decoder makes by sign
extension (30_encoding.md R74): `d` a displacement, `v` an immediate, `t` an absolute target. -/
inductive Instr where
  /-- `lea reg,mem` (R100). -/
  | lea (rd : Reg) (d : Int)
  /-- `push reg` (R101). -/
  | push (r : Reg)
  /-- `pop reg` (R102). -/
  | pop (r : Reg)
  /-- `call j` (R103). -/
  | call (t : Int)
  /-- `ret` (R104). -/
  | ret
  /-- `mov reg,reg` (R110). -/
  | movRegReg (rd rs : Reg)
  /-- `mov reg,imm` (R111). -/
  | movRegImm (rd : Reg) (v : Int)
  /-- `mov reg,mem` (R112). -/
  | movRegMem (rd : Reg) (d : Int)
  /-- `mov reg,arr` (R113). -/
  | movRegArr (rd rb ri : Reg)
  /-- `mov mem,imm` (R114). -/
  | movMemImm (d v : Int)
  /-- `mov mem,reg` (R115). -/
  | movMemReg (d : Int) (rs : Reg)
  /-- `add reg,imm` (R121). -/
  | addRegImm (rd : Reg) (v : Int)
  /-- `add reg,reg` (R122). -/
  | addRegReg (rd rs : Reg)
  /-- `sub reg,imm` (R123). -/
  | subRegImm (rd : Reg) (v : Int)
  /-- `sub reg,reg` (R124). -/
  | subRegReg (rd rs : Reg)
  /-- `cmp reg,reg` (R131). -/
  | cmpRegReg (ra rb : Reg)
  /-- `cmp reg,mem` (R132). -/
  | cmpRegMem (ra : Reg) (d : Int)
  /-- `cmp reg,imm` (R133). -/
  | cmpRegImm (ra : Reg) (v : Int)
  /-- `cmp reg,arr` (R134). -/
  | cmpRegArr (ra rb ri : Reg)
  /-- `jmp j` (R140). -/
  | jmp (t : Int)
  /-- `je j` (R142). -/
  | je (t : Int)
  /-- `jne j` (R143). -/
  | jne (t : Int)
  /-- `jl j` (R144). -/
  | jl (t : Int)
  /-- `jge j` (R145). -/
  | jge (t : Int)
  /-- `jle j` (R146). -/
  | jle (t : Int)
  /-- `jg j` (R147). -/
  | jg (t : Int)
  deriving DecidableEq, Repr

end Sys2Proof
end

