-- ==== Sys2Proof/WellFormed.lean ====
section
/-! DEFINITION. Which instructions have an encoding: the field ranges of 30_encoding.md R88 and the targets
jge cannot reach (R80, R91). Register operands need no check: `Reg` holds exactly the ids 0..8 (R73). -/

namespace Sys2Proof

/-- A displacement that fits `sext_8` (30_encoding.md R88). -/
abbrev DispFits (d : Int) : Prop := -128 ≤ d ∧ d ≤ 127

/-- An immediate that fits `sext_16` (30_encoding.md R88). -/
abbrev ImmFits (v : Int) : Prop := -32768 ≤ v ∧ v ≤ 32767

/-- A target that fits `sext_24` (30_encoding.md R88). -/
abbrev TargetFits (t : Int) : Prop := -8388608 ≤ t ∧ t ≤ 8388607

/-- The targets whose jge word would be lea's: 0x0F0000 .. 0x0FFFFF (30_encoding.md R80). -/
abbrev ReadAsLea (t : Int) : Prop := 0x0F0000 ≤ t ∧ t ≤ 0x0FFFFF

/-- Every numeric field fits its width (30_encoding.md R88). -/
def Instr.fieldsFit : Instr → Bool
  | .lea _ d | .movRegMem _ d | .movMemReg d _ | .cmpRegMem _ d => decide (DispFits d)
  | .movRegImm _ v | .addRegImm _ v | .subRegImm _ v | .cmpRegImm _ v => decide (ImmFits v)
  | .movMemImm d v => decide (DispFits d) && decide (ImmFits v)
  | .call t | .jmp t | .je t | .jne t | .jl t | .jge t | .jle t | .jg t => decide (TargetFits t)
  | .push _ | .pop _ | .ret | .movRegReg _ _ | .movRegArr _ _ _ | .addRegReg _ _ | .subRegReg _ _
  | .cmpRegReg _ _ | .cmpRegArr _ _ _ => true

/-- The one word shape two instructions share: a jge whose word would be lea's (30_encoding.md R80, R91(d)). -/
def Instr.readAsLea : Instr → Bool
  | .jge t => decide (ReadAsLea t)
  | .lea _ _ | .push _ | .pop _ | .call _ | .ret | .movRegReg _ _ | .movRegImm _ _ | .movRegMem _ _
  | .movRegArr _ _ _ | .movMemImm _ _ | .movMemReg _ _ | .addRegImm _ _ | .addRegReg _ _
  | .subRegImm _ _ | .subRegReg _ _ | .cmpRegReg _ _ | .cmpRegMem _ _ | .cmpRegImm _ _
  | .cmpRegArr _ _ _ | .jmp _ | .je _ | .jne _ | .jl _ | .jle _ | .jg _ => false

/-- The instructions the encoder can produce (30_encoding.md R91, R93). -/
def Instr.wellFormed (i : Instr) : Bool := i.fieldsFit && !i.readAsLea

end Sys2Proof
end

