-- ==== Sys2Proof/Decode.lean ====
section
/-! DEFINITION. Fields and byte order of a word, the decoder in the priority order of 30_encoding.md R77, and
the encoder's words from the selection table R87. -/

namespace Sys2Proof

/-- The word with bytes b0 (most significant) .. b3 (00_scope.md R8). -/
def packWord (b0 b1 b2 b3 : Byte) : Word := b0 ++ b1 ++ b2 ++ b3

/-- b0 = w[31:24], the opcode byte (00_scope.md R8). -/
def byte0 (w : Word) : Byte := w.extractLsb' 24 8

/-- b1 = w[23:16] (00_scope.md R8). -/
def byte1 (w : Word) : Byte := w.extractLsb' 16 8

/-- b2 = w[15:8] (00_scope.md R8). -/
def byte2 (w : Word) : Byte := w.extractLsb' 8 8

/-- b3 = w[7:0] (00_scope.md R8). -/
def byte3 (w : Word) : Byte := w.extractLsb' 0 8

/-- The bytes of a word in memory order, b0 at the lowest address (20_memory.md R40). -/
def wordBytes (w : Word) : List Byte := [byte0 w, byte1 w, byte2 w, byte3 w]

/-- disp as `sext_8` (30_encoding.md R74). -/
def dispOf (b : Byte) : Int := b.toInt

/-- imm = w[15:0] as `sext_16` (30_encoding.md R74). -/
def immOf (w : Word) : Int := (w.extractLsb' 0 16).toInt

/-- tgt = w[23:0] as `sext_24` (30_encoding.md R74). -/
def targetOf (w : Word) : Int := (w.extractLsb' 0 24).toInt

/-- The register of an id 0..8; 9 and above name none (30_encoding.md R73). -/
def Reg.ofId? : Nat → Option Reg
  | 0 => some .eax
  | 1 => some .ebx
  | 2 => some .ecx
  | 3 => some .edx
  | 4 => some .esi
  | 5 => some .edi
  | 6 => some .rsp
  | 7 => some .rbp
  | 8 => some .pc
  | _ => none

/-- The id of a register (00_scope.md R11). -/
def Reg.id : Reg → Nat
  | .eax => 0
  | .ebx => 1
  | .ecx => 2
  | .edx => 3
  | .esi => 4
  | .edi => 5
  | .rsp => 6
  | .rbp => 7
  | .pc => 8

/-- Why a word is no instruction. The machine records `DecodeError(w)` for each of them (30_encoding.md R79). -/
inductive DecodeReject where
  /-- No pattern selects the word: line 22 of R77. -/
  | noPattern (w : Word)
  /-- The selected pattern has a register selector above 8 (R73). -/
  | badRegister (w : Word)
  /-- Fewer than four bytes were given; the fetch always gives four. -/
  | truncated
  deriving DecidableEq, Repr

/-- `reg(f)` of R77 in the pattern that selected `w`: no later pattern is tried when it fails. -/
def withReg (w : Word) (f : Byte) (use : Reg → Except DecodeReject Instr) : Except DecodeReject Instr :=
  match Reg.ofId? f.toNat with
  | some r => use r
  | none => .error (.badRegister w)

/-- `reg(b3[7:4])` and `reg(b3[3:0])` of an arr operand, base first (30_encoding.md R76). -/
def withArr (w : Word) (f : Byte) (use : Reg → Reg → Except DecodeReject Instr) : Except DecodeReject Instr :=
  withReg w (f >>> 4) fun rb => withReg w (f &&& 0x0F) fun ri => use rb ri

/-- `Decode(w)`, line by line in the order of 30_encoding.md R77. -/
def decode (w : Word) : Except DecodeReject Instr :=
  let b0 := byte0 w
  let b1 := byte1 w
  let b2 := byte2 w
  let b3 := byte3 w
  if b0 = 0x8D ∧ b1 = 0x0F then withReg w b2 fun rd => .ok (.lea rd (dispOf b3))
  else if b0 = 0x06 ∧ b2 = 0 ∧ b3 = 0 then withReg w b1 fun r => .ok (.push r)
  else if b0 = 0x07 ∧ b2 = 0 ∧ b3 = 0 then withReg w b1 fun r => .ok (.pop r)
  else if b0 = 0xE8 then .ok (.call (targetOf w))
  else if b0 = 0xC2 ∧ b1 = 0 ∧ b2 = 0 ∧ b3 = 0 then .ok .ret
  else if b0 = 0x89 ∧ b1 = 0x00 then withReg w b2 fun rd => withReg w b3 fun rs => .ok (.movRegReg rd rs)
  else if b0 = 0xC6 then withReg w b1 fun rd => .ok (.movRegImm rd (immOf w))
  else if b0 = 0x8B ∧ b1 = 0x0F then withReg w b2 fun rd => .ok (.movRegMem rd (dispOf b3))
  else if b0 = 0x8B ∧ b1 = 0x0E then withReg w b2 fun rd => withArr w b3 fun rb ri => .ok (.movRegArr rd rb ri)
  else if b0 = 0xC7 then .ok (.movMemImm (dispOf b1) (immOf w))
  else if b0 = 0x89 ∧ b1 = 0xF0 then withReg w b3 fun rs => .ok (.movMemReg (dispOf b2) rs)
  else if b0 = 0x05 then withReg w b1 fun rd => .ok (.addRegImm rd (immOf w))
  else if b0 = 0x01 ∧ b1 = 0x00 then withReg w b2 fun rd => withReg w b3 fun rs => .ok (.addRegReg rd rs)
  else if b0 = 0x2D then withReg w b1 fun rd => .ok (.subRegImm rd (immOf w))
  else if b0 = 0x29 ∧ b1 = 0x00 then withReg w b2 fun rd => withReg w b3 fun rs => .ok (.subRegReg rd rs)
  else if b0 = 0x39 ∧ b1 = 0x00 then withReg w b2 fun ra => withReg w b3 fun rb => .ok (.cmpRegReg ra rb)
  else if b0 = 0x3B ∧ b1 = 0x0F then withReg w b2 fun ra => .ok (.cmpRegMem ra (dispOf b3))
  else if b0 = 0x3D then withReg w b1 fun ra => .ok (.cmpRegImm ra (immOf w))
  else if b0 = 0x3B ∧ b1 = 0x0E then withReg w b2 fun ra => withArr w b3 fun rb ri => .ok (.cmpRegArr ra rb ri)
  else if b0 = 0xE9 then .ok (.jmp (targetOf w))
  else if b0 = 0x84 then .ok (.je (targetOf w))
  else if b0 = 0x85 then .ok (.jne (targetOf w))
  else if b0 = 0x8C then .ok (.jl (targetOf w))
  else if b0 = 0x8D then .ok (.jge (targetOf w))
  else if b0 = 0x8E then .ok (.jle (targetOf w))
  else if b0 = 0x8F then .ok (.jg (targetOf w))
  else .error (.noPattern w)

/-- The decoder on bytes in memory order: the instruction and the bytes after its four. -/
def decodeBytes : List Byte → Except DecodeReject (Instr × List Byte)
  | b0 :: b1 :: b2 :: b3 :: rest =>
    match decode (packWord b0 b1 b2 b3) with
    | .ok i => .ok (i, rest)
    | .error e => .error e
  | _ => .error .truncated

/-- The word of an opcode-table row: every row is one 32-bit word, and bits above `nbits` are 0. -/
def tableWord (nbits w : Nat) : Word := BitVec.ofNat 32 (w % 2 ^ nbits)

/-- The instruction the decoder reads from an instruction whose bits are `w`, as opcode_table.json numbers them. -/
def decodeTableWord (nbits w : Nat) : Option Instr :=
  match decodeBytes (wordBytes (tableWord nbits w)) with
  | .ok (i, _) => some i
  | .error _ => none

/-! The encoder's words (30_encoding.md R87), with fields `tc_N(v)` (00_scope.md R9, R88). -/

/-- `R(n)`, the 8-bit id of a register (30_encoding.md R87). -/
def Reg.field (r : Reg) : Byte := BitVec.ofNat 8 r.id

/-- `N(b) ++ N(i)`, the two 4-bit selectors of an arr operand (30_encoding.md R76, R87). -/
def arrField (rb ri : Reg) : Byte := BitVec.ofNat 4 rb.id ++ BitVec.ofNat 4 ri.id

/-- `tc_8(d)` (30_encoding.md R88). -/
def dispField (d : Int) : Byte := BitVec.ofInt 8 d

/-- Formats RI and MI of 30_encoding.md R72: two bytes and `tc_16(v)`. -/
def wordOfImm (b0 b1 : Byte) (v : Int) : Word := b0 ++ b1 ++ BitVec.ofInt 16 v

/-- Formats J and CJ of 30_encoding.md R72: the opcode byte and `tc_24(t)`. -/
def wordOfTarget (b0 : Byte) (t : Int) : Word := b0 ++ BitVec.ofInt 24 t

/-- The word of an instruction, row by row of 30_encoding.md R87 (formats of four separate bytes by `packWord`); the inverse of `decode` on the instructions
`wellFormed` admits. -/
def encode : Instr → Word
  | .lea rd d => packWord 0x8D 0x0F rd.field (dispField d)
  | .push r => packWord 0x06 r.field 0 0
  | .pop r => packWord 0x07 r.field 0 0
  | .call t => wordOfTarget 0xE8 t
  | .ret => packWord 0xC2 0 0 0
  | .movRegReg rd rs => packWord 0x89 0x00 rd.field rs.field
  | .movRegImm rd v => wordOfImm 0xC6 rd.field v
  | .movRegMem rd d => packWord 0x8B 0x0F rd.field (dispField d)
  | .movRegArr rd rb ri => packWord 0x8B 0x0E rd.field (arrField rb ri)
  | .movMemImm d v => wordOfImm 0xC7 (dispField d) v
  | .movMemReg d rs => packWord 0x89 0xF0 (dispField d) rs.field
  | .addRegImm rd v => wordOfImm 0x05 rd.field v
  | .addRegReg rd rs => packWord 0x01 0x00 rd.field rs.field
  | .subRegImm rd v => wordOfImm 0x2D rd.field v
  | .subRegReg rd rs => packWord 0x29 0x00 rd.field rs.field
  | .cmpRegReg ra rb => packWord 0x39 0x00 ra.field rb.field
  | .cmpRegMem ra d => packWord 0x3B 0x0F ra.field (dispField d)
  | .cmpRegImm ra v => wordOfImm 0x3D ra.field v
  | .cmpRegArr ra rb ri => packWord 0x3B 0x0E ra.field (arrField rb ri)
  | .jmp t => wordOfTarget 0xE9 t
  | .je t => wordOfTarget 0x84 t
  | .jne t => wordOfTarget 0x85 t
  | .jl t => wordOfTarget 0x8C t
  | .jge t => wordOfTarget 0x8D t
  | .jle t => wordOfTarget 0x8E t
  | .jg t => wordOfTarget 0x8F t

/-- The `match` and `mask` of the row of opcode_table.json an instruction stands for. -/
def Instr.opcodeRow : Instr → Word × Word
  | .lea _ _ => (0x8D0F0000, 0xFFFF0000)
  | .push _ => (0x06000000, 0xFF00FFFF)
  | .pop _ => (0x07000000, 0xFF00FFFF)
  | .call _ => (0xE8000000, 0xFF000000)
  | .ret => (0xC2000000, 0xFFFFFFFF)
  | .movRegReg _ _ => (0x89000000, 0xFFFF0000)
  | .movRegImm _ _ => (0xC6000000, 0xFF000000)
  | .movRegMem _ _ => (0x8B0F0000, 0xFFFF0000)
  | .movRegArr _ _ _ => (0x8B0E0000, 0xFFFF0000)
  | .movMemImm _ _ => (0xC7000000, 0xFF000000)
  | .movMemReg _ _ => (0x89F00000, 0xFFFF0000)
  | .addRegImm _ _ => (0x05000000, 0xFF000000)
  | .addRegReg _ _ => (0x01000000, 0xFFFF0000)
  | .subRegImm _ _ => (0x2D000000, 0xFF000000)
  | .subRegReg _ _ => (0x29000000, 0xFFFF0000)
  | .cmpRegReg _ _ => (0x39000000, 0xFFFF0000)
  | .cmpRegMem _ _ => (0x3B0F0000, 0xFFFF0000)
  | .cmpRegImm _ _ => (0x3D000000, 0xFF000000)
  | .cmpRegArr _ _ _ => (0x3B0E0000, 0xFFFF0000)
  | .jmp _ => (0xE9000000, 0xFF000000)
  | .je _ => (0x84000000, 0xFF000000)
  | .jne _ => (0x85000000, 0xFF000000)
  | .jl _ => (0x8C000000, 0xFF000000)
  | .jge _ => (0x8D000000, 0xFF000000)
  | .jle _ => (0x8E000000, 0xFF000000)
  | .jg _ => (0x8F000000, 0xFF000000)

end Sys2Proof
end

