-- ==== Sys2Proof/Config.lean ====
section
/-! DEFINITION. The parameters of an instance (00_scope.md R7) and the constraints on them. -/

namespace Sys2Proof

/-- The parameters an instance is created with (00_scope.md R7; 92_eei_decisions.md section 2). -/
structure Config where
  /-- Width of a bus address. -/
  bits : Nat
  /-- Offset width; a block has `2 ^ k` bytes. -/
  k : Nat
  /-- Number of cache sets, a power of two. -/
  size : Nat
  /-- Lines per set. -/
  nway : Nat
  /-- STACK_DEPTH; `none` is infinity. -/
  stackDepth : Option Nat
  deriving DecidableEq, Repr

/-- s = log2(size), the index width (00_scope.md R7). -/
abbrev Config.setBits (cfg : Config) : Nat := Nat.log2 cfg.size

/-- t = bits - s - k, the tag width (00_scope.md R7). -/
abbrev Config.tagBits (cfg : Config) : Nat := cfg.bits - cfg.setBits - cfg.k

/-- The constraints of 00_scope.md R7: 10 ≤ bits ≤ 32, size a power of two, nway ≥ 1, t ≥ 0. -/
abbrev Config.WellFormed (cfg : Config) : Prop :=
  10 ≤ cfg.bits ∧ cfg.bits ≤ 32 ∧ cfg.size = 2 ^ cfg.setBits ∧ 1 ≤ cfg.nway ∧
    cfg.setBits + cfg.k ≤ cfg.bits

/-- The default values of 00_scope.md R7 (decisions D16, D17). -/
def Config.default : Config := { bits := 32, k := 2, size := 4, nway := 2, stackDepth := none }

end Sys2Proof
end

