-- ==== Sys2Proof/Machine/State.lean ====
section
/-! DEFINITION. All the state of 10_state.md R37 as plain data, the reasons a call can be stopped, and reset. -/

namespace Sys2Proof.Machine

/-- The register file: nine 32-bit registers (10_state.md R20). -/
structure Regs where
  eax : Word
  ebx : Word
  ecx : Word
  edx : Word
  esi : Word
  edi : Word
  rsp : Word
  rbp : Word
  pc : Word
  deriving DecidableEq, Repr

/-- The flag register: two independent one-bit fields (10_state.md R25). -/
structure Flags where
  zero : Bool
  sign : Bool
  deriving DecidableEq, Repr

/-- The error record of a fatal error, with its info value (10_state.md R38, 60_exceptions.md R150). -/
inductive ErrorRecord where
  | decodeError (w : Word)
  | stackUnderflow
  | stackOverflow
  | misalignedAccess (ea : Int)
  | rangeError (v : Int)
  deriving DecidableEq, Repr

/-- The run state (10_state.md R29). -/
inductive Run where
  | ready
  | halted (e : ErrorRecord)
  deriving DecidableEq, Repr

/-- Backing Memory: address and byte pairs, addresses strictly rising, no zero byte listed; an unlisted address
reads as zero (10_state.md R32). -/
abbrev Memory := List Host.Cell

/-- A valid cache line: its tag, and its bytes with `data[0]` at the block's lowest address (10_state.md R33). -/
structure Line where
  tag : Nat
  data : List Byte
  deriving DecidableEq, Repr

/-- One cache set (10_state.md R33). `lines[w]` is way w: `none` when valid = 0 (its tag and data are then
unspecified and never read, R36 and U2), `some` when valid = 1. `order` lists the ways, most recently used first. -/
structure CacheSet where
  lines : List (Option Line)
  order : List Nat
  deriving DecidableEq, Repr

/-- The cache: its sets in index order (10_state.md R33). -/
abbrev Cache := List CacheSet

/-- The whole state of one Computer (10_state.md R37), beside the parameters it was created with
(00_scope.md R7) and the host's once-only load, which no step changes. -/
structure State where
  cfg : Config
  regs : Regs
  flags : Flags
  /-- The hardware Stack; the last element is the top (10_state.md R27). -/
  stk : List Word
  run : Run
  mem : Memory
  cache : Cache
  /-- The model's own record that `loadProgram` has been called since reset (70_reset_and_hazards.md R171, log 9). -/
  loaded : Bool
  deriving DecidableEq, Repr

/-- Reasons for `Outcome.fault`. There is none: every fatal error of 60_exceptions.md R150 has an entry the spec
describes (R156, R157) and is a next state with `run = Halted(e)`; nothing is stuck (93_implementation_defined.md). -/
inductive Fault where
  deriving DecidableEq, Repr

/-- Reasons for `Outcome.refused`. No instruction and no step of this model ends in one; the last four are host
calls that the spec refuses. -/
inductive Refusal where
  /-- An instruction without a meaning, by its mnemonic, from an arm of `exec`. Safe. No arm uses it. -/
  | notModelled (mnemonic : String)
  /-- `create` with a geometry that breaks 00_scope.md R7: ConfigError (70_reset_and_hazards.md R176, U10). Safe. -/
  | configError
  /-- `loadProgram` with an image that is not 1024 bytes: ConfigError (70_reset_and_hazards.md R172, U11). Safe. -/
  | imageSize
  /-- `loadProgram` at any other time than once, right after reset (70_reset_and_hazards.md R171, U11). Safe. -/
  | loadNotAfterReset
  /-- A host cache access at an address that is no aligned bus address, to which 20_memory.md R52 and R53 give no
  effect. Safe. -/
  | hostAddress
  deriving DecidableEq, Repr

/-- What every instruction meaning and every step answers with. -/
abbrev Outcome := Host.Outcome State Fault Refusal

/-- All registers 0 (10_state.md R36, decision D2). -/
def Regs.reset : Regs :=
  { eax := 0, ebx := 0, ecx := 0, edx := 0, esi := 0, edi := 0, rsp := 0, rbp := 0, pc := 0 }

/-- An empty set of the cache: every line invalid, way 0 least recently used (10_state.md R36, decision D14). -/
def CacheSet.reset (cfg : Config) : CacheSet :=
  { lines := List.replicate cfg.nway none, order := (List.range cfg.nway).reverse }

/-- Every set empty (10_state.md R36). -/
def Cache.reset (cfg : Config) : Cache := List.replicate cfg.size (CacheSet.reset cfg)

/-- The state after reset of an instance with parameters `cfg` (10_state.md R36, 70_reset_and_hazards.md R170). -/
def State.resetWith (cfg : Config) : State :=
  { cfg := cfg
    regs := Regs.reset
    flags := { zero := false, sign := false }
    stk := []
    run := .ready
    mem := []
    cache := Cache.reset cfg
    loaded := false }

/-- The machine right after reset, with the default parameters of 00_scope.md R7. -/
def State.reset : State := State.resetWith Config.default

end Sys2Proof.Machine
end

