-- ==== Sys2Proof/Machine/Memory.lean ====
section
/-! DEFINITION. Backing Memory: reads, the canonical form, writes (20_memory.md R40, R41). -/

namespace Sys2Proof.Machine

/-- What an address not yet written reads as (10_state.md R32). -/
def Memory.unlisted : Byte := 0

/-- `Mem[a]` (10_state.md R32). -/
def Memory.read : Memory → Nat → Byte
  | [], _ => Memory.unlisted
  | (x, b) :: m, a => if x = a then b else Memory.read m a

/-- The canonical form: addresses strictly rising, no entry equal to what an unlisted address reads as. -/
abbrev Memory.wf (m : Memory) : Prop :=
  m.Pairwise (fun c d => c.1 < d.1) ∧ ∀ c ∈ m, c.2 ≠ Memory.unlisted

/-- `m` with `v` listed at `a` in front, unless that is what an unlisted address reads as. -/
def Memory.cons (m : Memory) (a : Nat) (v : Byte) : Memory :=
  if v = Memory.unlisted then m else (a, v) :: m

/-- `Mem[a] <- v`, keeping the canonical form (20_memory.md R41). -/
def Memory.write : Memory → Nat → Byte → Memory
  | [], a, v => Memory.cons [] a v
  | (x, b) :: m, a, v =>
    if a < x then Memory.cons ((x, b) :: m) a v
    else if a = x then Memory.cons m a v
    else (x, b) :: Memory.write m a v

/-- `MemBytesWrite(a, bytes)` (20_memory.md R41). -/
def Memory.writeBytes (m : Memory) (a : Nat) : List Byte → Memory
  | [] => m
  | b :: bs => Memory.writeBytes (m.write a b) (a + 1) bs

/-- `MemBlockRead(base, n)` (20_memory.md R41). -/
def Memory.block (m : Memory) (base n : Nat) : List Byte :=
  (List.range n).map fun j => m.read (base + j)

/-- The dword at a bus address, most significant byte first (20_memory.md R40). -/
def Memory.dword (m : Memory) (a : Nat) : Word :=
  packWord (m.read a) (m.read (a + 1)) (m.read (a + 2)) (m.read (a + 3))

end Sys2Proof.Machine
end

