-- ==== Sys2Proof/Machine/Cache.lean ====
section
/-! DEFINITION. The set-associative cache: address decomposition, lookup, LRU, fill, reads and writes
(20_memory.md R47 to R55). Default answers (`getD`, the empty set) concern shapes no run reaches (log 8). -/

namespace Sys2Proof.Machine

/-- offset(ba) = ba[k-1 : 0] (20_memory.md R47). -/
def cacheOffset (cfg : Config) (ba : Nat) : Nat := ba % 2 ^ cfg.k

/-- index(ba) = ba[k+s-1 : k] (20_memory.md R47). -/
def cacheIndex (cfg : Config) (ba : Nat) : Nat := ba / 2 ^ cfg.k % 2 ^ cfg.setBits

/-- tag(ba) = ba[bits-1 : k+s] (20_memory.md R47). -/
def cacheTag (cfg : Config) (ba : Nat) : Nat := ba / 2 ^ (cfg.k + cfg.setBits)

/-- base(ba) = ba - offset(ba) (20_memory.md R47). -/
def cacheBase (cfg : Config) (ba : Nat) : Nat := ba - cacheOffset cfg ba

/-- The way of a set whose valid line has a tag (20_memory.md R48). -/
def CacheSet.lookup (cs : CacheSet) (tag : Nat) : Option Nat :=
  cs.lines.findIdx? fun l => match l with
    | some ln => ln.tag == tag
    | none => false

/-- `Touch`: a way becomes the most recently used (20_memory.md R49). -/
def CacheSet.touch (cs : CacheSet) (w : Nat) : CacheSet :=
  { cs with order := w :: cs.order.erase w }

/-- The victim of a miss: the last way of `order`, valid or not (20_memory.md R50). -/
def CacheSet.victim (cs : CacheSet) : Nat := cs.order.getLast?.getD 0

/-- Way w becomes valid with this line; what it held is discarded (20_memory.md R50). -/
def CacheSet.fill (cs : CacheSet) (w : Nat) (ln : Line) : CacheSet :=
  { cs with lines := cs.lines.set w (some ln) }

/-- Set i of the cache. -/
def Cache.setAt (c : Cache) (i : Nat) : CacheSet := c.getD i { lines := [], order := [] }

/-- `Lookup(ba)`: the way, or `none` for -1 (20_memory.md R48). -/
def Cache.lookup (cfg : Config) (c : Cache) (ba : Nat) : Option Nat :=
  (c.setAt (cacheIndex cfg ba)).lookup (cacheTag cfg ba)

/-- `Ensure(ba)`: the way the block of `ba` is resident in, and the cache after (20_memory.md R50). -/
def Cache.ensure (cfg : Config) (m : Memory) (c : Cache) (ba : Nat) : Nat × Cache :=
  let i := cacheIndex cfg ba
  let cs := c.setAt i
  match cs.lookup (cacheTag cfg ba) with
  | some w => (w, c.set i (cs.touch w))
  | none =>
    let v := cs.victim
    let ln : Line := { tag := cacheTag cfg ba, data := m.block (cacheBase cfg ba) (2 ^ cfg.k) }
    (v, c.set i ((cs.fill v ln).touch v))

/-- One byte of a dword access: `Ensure` when it is the first byte (`w` is `none`) or begins a block, else the way
of the byte before it (20_memory.md R51 to R53). -/
def Cache.visit (cfg : Config) (m : Memory) (c : Cache) (ba : Nat) (w : Option Nat) : Nat × Cache :=
  match w with
  | some w => if cacheOffset cfg ba = 0 then c.ensure cfg m ba else (w, c)
  | none => c.ensure cfg m ba

/-- `line[index(ba)][w].data[offset(ba)]` (20_memory.md R52). -/
def Cache.byteAt (cfg : Config) (c : Cache) (ba w : Nat) : Byte :=
  match (c.setAt (cacheIndex cfg ba)).lines.getD w none with
  | some ln => ln.data.getD (cacheOffset cfg ba) 0
  | none => 0

/-- A line with one byte of its data replaced. -/
def Line.put (ln : Line) (o : Nat) (b : Byte) : Line := { ln with data := ln.data.set o b }

/-- A set with one byte of way w's line replaced, if that line is valid. -/
def CacheSet.put (cs : CacheSet) (w o : Nat) (b : Byte) : CacheSet :=
  { cs with lines := cs.lines.modify w (Option.map fun ln => ln.put o b) }

/-- `line[index(ba)][w].data[offset(ba)] <- b` (20_memory.md R53). -/
def Cache.putByte (cfg : Config) (c : Cache) (ba w : Nat) (b : Byte) : Cache :=
  c.modify (cacheIndex cfg ba) fun cs => cs.put w (cacheOffset cfg ba) b

/-- The loop of `CacheRead` over the next `n` bytes (20_memory.md R52). -/
def Cache.readBytes (cfg : Config) (m : Memory) : Nat → Cache → Nat → Option Nat → List Byte × Cache
  | 0, c, _, _ => ([], c)
  | n + 1, c, ba, w =>
    let v := c.visit cfg m ba w
    let r := Cache.readBytes cfg m n v.2 (ba + 1) (some v.1)
    (v.2.byteAt cfg ba v.1 :: r.1, r.2)

/-- The loop of `CacheWrite` over the bytes (20_memory.md R53). -/
def Cache.writeBytes (cfg : Config) (m : Memory) : List Byte → Cache → Nat → Option Nat → Cache
  | [], c, _, _ => c
  | b :: bs, c, ba, w =>
    let v := c.visit cfg m ba w
    Cache.writeBytes cfg m bs (v.2.putByte cfg ba v.1 b) (ba + 1) (some v.1)

/-- The big-endian dword of four bytes (20_memory.md R40). -/
def dwordOfBytes : List Byte → Word
  | [b0, b1, b2, b3] => packWord b0 b1 b2 b3
  | _ => 0

/-- `CacheRead(ba)`: the dword the lines hold, and the state with the cache after (20_memory.md R52). -/
def State.cacheRead (s : State) (ba : Nat) : Word × State :=
  let r := Cache.readBytes s.cfg s.mem 4 s.cache ba none
  (dwordOfBytes r.1, { s with cache := r.2 })

/-- `CacheWrite(ba, v, memwrite)` (20_memory.md R53, R54). -/
def State.cacheWrite (s : State) (ba : Nat) (v : Word) (memwrite : Bool) : State :=
  { s with
    cache := Cache.writeBytes s.cfg s.mem (wordBytes v) s.cache ba none
    mem := if memwrite then s.mem.writeBytes ba (wordBytes v) else s.mem }

end Sys2Proof.Machine
end

