-- ==== Sys2Proof/Machine/Operands.lean ====
section
/-! DEFINITION. Operand forms: registers, mem and arr operands, bus addresses (10_state.md R20 to R23,
20_memory.md R43). Immediates, displacements and targets are the instruction's own integers. -/

namespace Sys2Proof.Machine

/-- The bits of a register (10_state.md R20). -/
def Regs.get (rs : Regs) : Reg → Word
  | .eax => rs.eax
  | .ebx => rs.ebx
  | .ecx => rs.ecx
  | .edx => rs.edx
  | .esi => rs.esi
  | .edi => rs.edi
  | .rsp => rs.rsp
  | .rbp => rs.rbp
  | .pc => rs.pc

/-- The register file with one register replaced (10_state.md R20). -/
def Regs.set (rs : Regs) (r : Reg) (v : Word) : Regs :=
  match r with
  | .eax => { rs with eax := v }
  | .ebx => { rs with ebx := v }
  | .ecx => { rs with ecx := v }
  | .edx => { rs with edx := v }
  | .esi => { rs with esi := v }
  | .edi => { rs with edi := v }
  | .rsp => { rs with rsp := v }
  | .rbp => { rs with rbp := v }
  | .pc => { rs with pc := v }

/-- `x[r]`: the integer register r holds (00_scope.md R10, 10_state.md R20). -/
def State.x (s : State) (r : Reg) : Int := (s.regs.get r).toInt

/-- Register r takes these bits. -/
def State.setReg (s : State) (r : Reg) (v : Word) : State := { s with regs := s.regs.set r v }

/-- `x[r] <- v` for an integer v in INT_MIN .. INT_MAX (10_state.md R20): the register takes `tc_32(v)`. -/
def State.setX (s : State) (r : Reg) (v : Int) : State := s.setReg r (BitVec.ofInt 32 v)

/-- FRAME_BASE (00_scope.md R7, decision D6). -/
def frameBase : Reg := .rbp

/-- The effective address of a mem operand, not wrapped (20_memory.md R43). -/
def State.memEA (s : State) (d : Int) : Int := s.x frameBase + d

/-- The effective address of an arr operand, not wrapped (20_memory.md R43, 41_mov.md R113). -/
def State.arrEA (s : State) (rb ri : Reg) : Int := s.x rb + 4 * s.x ri

/-- The bus address of an effective address: ea mod 2^bits (20_memory.md R43, decision D4). -/
def busAddr (cfg : Config) (ea : Int) : Nat := (ea % 2 ^ cfg.bits).toNat

/-- An effective address a dword access accepts (20_memory.md R44). -/
abbrev Aligned (ea : Int) : Prop := ea % 4 = 0

end Sys2Proof.Machine
end

