-- ==== Sys2Proof/Machine/Flags.lean ====
section
/-! DEFINITION. The compare law and the conditions of the conditional jumps (43_cmp.md R130, 44_jumps.md R141). -/

namespace Sys2Proof.Machine

/-- The flag pair after `Compare(a, b)` (43_cmp.md R130). -/
def compareFlags (a b : Int) : Flags := { zero := decide (a = b), sign := !decide (a > b) }

/-- `Compare(a, b)`: both flags are written, nothing else (43_cmp.md R130). -/
def State.compare (s : State) (a b : Int) : State := { s with flags := compareFlags a b }

/-- je: zero = 1 (44_jumps.md R141). -/
def Flags.e (f : Flags) : Bool := f.zero

/-- jne: zero = 0 (44_jumps.md R141). -/
def Flags.ne (f : Flags) : Bool := !f.zero

/-- jl: zero = 0 and sign = 1 (44_jumps.md R141). -/
def Flags.l (f : Flags) : Bool := !f.zero && f.sign

/-- jge: zero = 1 or sign = 0 (44_jumps.md R141). -/
def Flags.ge (f : Flags) : Bool := f.zero || !f.sign

/-- jle: zero = 1 or sign = 1 (44_jumps.md R141). -/
def Flags.le (f : Flags) : Bool := f.zero || f.sign

/-- jg: zero = 0 and sign = 0 (44_jumps.md R141). -/
def Flags.g (f : Flags) : Bool := !f.zero && !f.sign

end Sys2Proof.Machine
end

