-- ==== Sys2Proof/Machine/Ops.lean ====
section
/-! DEFINITION. The shared operations of the step and of the instruction meanings: raising a fatal error and
committing a step, the range check, the hardware Stack, loads, stores, jumps, fetch and decode. An operation that
may raise takes what comes after it as an argument `next`. -/

namespace Sys2Proof.Machine

/-- `raise E(info)`: taking a fatal error (60_exceptions.md R156, R157). Within a step only `run` changes here;
`commit` then gives back everything the step had already changed, but for the cache. -/
def State.raise (s : State) (e : ErrorRecord) : State := { s with run := .halted e }

/-- The end of a step that began in the Ready state `s` and has come to `t` (60_exceptions.md R156): if an error was
raised, registers (pc included), flags, Stack and Memory are those of `s`, and the cache is that of `t`. There is no
return from an exception: Halted is left by reset only (60_exceptions.md R159). -/
def State.commit (s t : State) : State :=
  match t.run with
  | .ready => t
  | .halted e => { s with cache := t.cache, run := .halted e }

/-- `commit` on what the Execute phase answered. -/
def commitOutcome (s : State) (o : Outcome) : Outcome :=
  match o with
  | .next t => .next (s.commit t)
  | .fault f => .fault f
  | .refused r => .refused r

/-- INT_MIN ≤ v ≤ INT_MAX (00_scope.md R7). -/
abbrev InRange (v : Int) : Prop := -2147483648 ≤ v ∧ v ≤ 2147483647

/-- `x[r] <- chk(v)` and then `next`: RangeError instead of writing a value outside the range (42_add_sub.md R120). -/
def State.writeChecked (s : State) (r : Reg) (v : Int) (next : State → Outcome) : Outcome :=
  if InRange v then next (s.setX r v) else .next (s.raise (.rangeError v))

/-- `Push(v)`: v becomes the last entry, or StackOverflow (10_state.md R27). -/
def State.push (s : State) (v : Word) (next : State → Outcome) : Outcome :=
  if s.cfg.stackDepth = some s.stk.length then .next (s.raise .stackOverflow)
  else next { s with stk := s.stk ++ [v] }

/-- `Pop()`: the last entry, removed, or StackUnderflow (10_state.md R27). -/
def State.pop (s : State) (next : Word → State → Outcome) : Outcome :=
  match s.stk.getLast? with
  | none => .next (s.raise .stackUnderflow)
  | some v => next v { s with stk := s.stk.dropLast }

/-- `MemRead(ea, 4)` (20_memory.md R45). -/
def State.memRead (s : State) (ea : Int) (next : Word → State → Outcome) : Outcome :=
  if Aligned ea then
    let r := s.cacheRead (busAddr s.cfg ea)
    next r.1 r.2
  else .next (s.raise (.misalignedAccess ea))

/-- `MemWrite(ea, 4, v)`, always write-through (20_memory.md R46). -/
def State.memWrite (s : State) (ea : Int) (v : Word) (next : State → Outcome) : Outcome :=
  if Aligned ea then next (s.cacheWrite (busAddr s.cfg ea) v true)
  else .next (s.raise (.misalignedAccess ea))

/-- `pc <- t` (44_jumps.md R148). -/
def State.jumpTo (s : State) (t : Int) : State := s.setX .pc t

/-- `if c then pc <- t` (44_jumps.md R141). -/
def State.jumpIf (s : State) (c : Bool) (t : Int) : State := if c then s.jumpTo t else s

/-- A step up to its Execute phase (10_state.md R24): fetch at pc, decode, advance pc by 4; then `exec`. -/
def State.fetchDecode (s : State) (exec : Instr → State → Outcome) : Outcome :=
  s.memRead (s.x .pc) fun w s1 =>
    match decode w with
    | .error _ => .next (s1.raise (.decodeError w))
    | .ok i => s1.writeChecked .pc (s.x .pc + 4) (exec i)

/-- One call of `step()`: a Halted machine does nothing (60_exceptions.md R158); a Ready one does the phases of
10_state.md R24 and commits (60_exceptions.md R156). -/
def State.stepWith (s : State) (exec : Instr → State → Outcome) : Outcome :=
  match s.run with
  | .halted _ => .next s
  | .ready => commitOutcome s (s.fetchDecode exec)

/-- One byte placed from outside: in Memory, and in the line that holds its block if one is resident, with no change
of recency (the form of a program placed for the next fetch, log 11). -/
def State.pokeByte (s : State) (ba : Nat) (b : Byte) : State :=
  { s with
    mem := s.mem.write ba b
    cache := match Cache.lookup s.cfg s.cache ba with
      | some w => Cache.putByte s.cfg s.cache ba w b
      | none => s.cache }

/-- Bytes placed from outside at consecutive bus addresses. -/
def State.pokeBytes (s : State) (ba : Nat) : List Byte → State
  | [] => s
  | b :: bs => State.pokeBytes (s.pokeByte ba b) (ba + 1) bs

end Sys2Proof.Machine
end

