-- ==== Sys2Proof/Machine/Arith.lean ====
section
/-! DEFINITION. add and sub (42_add_sub.md). No flag is written (R120). -/

namespace Sys2Proof.Machine

/-- R121: x[rd] <- chk(x[rd] + v). -/
def execAddRegImm (rd : Reg) (v : Int) (s : State) : Outcome := s.writeChecked rd (s.x rd + v) .next

/-- R122: x[rd] <- chk(x[rd] + x[rs]). -/
def execAddRegReg (rd rs : Reg) (s : State) : Outcome := s.writeChecked rd (s.x rd + s.x rs) .next

/-- R123: x[rd] <- chk(x[rd] - v). -/
def execSubRegImm (rd : Reg) (v : Int) (s : State) : Outcome := s.writeChecked rd (s.x rd - v) .next

/-- R124: x[rd] <- chk(x[rd] - x[rs]). -/
def execSubRegReg (rd rs : Reg) (s : State) : Outcome := s.writeChecked rd (s.x rd - s.x rs) .next

end Sys2Proof.Machine
end

