-- ==== Sys2Proof/Machine/Cmp.lean ====
section
/-! DEFINITION. The four cmp forms (43_cmp.md): the only writers of the flags. -/

namespace Sys2Proof.Machine

/-- R131: Compare(x[ra], x[rb]). -/
def execCmpRegReg (ra rb : Reg) (s : State) : Outcome := .next (s.compare (s.x ra) (s.x rb))

/-- R132: Compare(x[ra], sext_32(MemRead(x[rbp] + d, 4))). -/
def execCmpRegMem (ra : Reg) (d : Int) (s : State) : Outcome :=
  s.memRead (s.memEA d) fun w s1 => .next (s1.compare (s1.x ra) w.toInt)

/-- R133: Compare(x[ra], v). -/
def execCmpRegImm (ra : Reg) (v : Int) (s : State) : Outcome := .next (s.compare (s.x ra) v)

/-- R134: Compare(x[ra], sext_32(MemRead(x[rb] + 4 * x[ri], 4))). -/
def execCmpRegArr (ra rb ri : Reg) (s : State) : Outcome :=
  s.memRead (s.arrEA rb ri) fun w s1 => .next (s1.compare (s1.x ra) w.toInt)

end Sys2Proof.Machine
end

