-- ==== Sys2Proof/Machine/Jump.lean ====
section
/-! DEFINITION. jmp and the six conditional jumps (44_jumps.md). The target is absolute; an untaken jump leaves
pc = a + 4 (R148). -/

namespace Sys2Proof.Machine

/-- R140: pc <- t. -/
def execJmp (t : Int) (s : State) : Outcome := .next (s.jumpTo t)

/-- R142: if zero = 1 then pc <- t. -/
def execJe (t : Int) (s : State) : Outcome := .next (s.jumpIf s.flags.e t)

/-- R143: if zero = 0 then pc <- t. -/
def execJne (t : Int) (s : State) : Outcome := .next (s.jumpIf s.flags.ne t)

/-- R144: if zero = 0 and sign = 1 then pc <- t. -/
def execJl (t : Int) (s : State) : Outcome := .next (s.jumpIf s.flags.l t)

/-- R145: if zero = 1 or sign = 0 then pc <- t. -/
def execJge (t : Int) (s : State) : Outcome := .next (s.jumpIf s.flags.ge t)

/-- R146: if zero = 1 or sign = 1 then pc <- t. -/
def execJle (t : Int) (s : State) : Outcome := .next (s.jumpIf s.flags.le t)

/-- R147: if zero = 0 and sign = 0 then pc <- t. -/
def execJg (t : Int) (s : State) : Outcome := .next (s.jumpIf s.flags.g t)

end Sys2Proof.Machine
end

