-- ==== Sys2Proof/Machine/LeaStack.lean ====
section
/-! DEFINITION. lea, push, pop, call, ret (40_lea_stack_call.md). Each meaning is the Execute phase: `s.x .pc` is
already a + 4 (10_state.md R24). -/

namespace Sys2Proof.Machine

/-- R100: x[rd] <- chk(x[rbp] + d). -/
def execLea (rd : Reg) (d : Int) (s : State) : Outcome := s.writeChecked rd (s.memEA d) .next

/-- R101: Push(x[r]). -/
def execPush (r : Reg) (s : State) : Outcome := s.push (s.regs.get r) .next

/-- R102: x[r] <- Pop(). -/
def execPop (r : Reg) (s : State) : Outcome := s.pop fun v s1 => .next (s1.setReg r v)

/-- R103: Push(x[pc]); pc <- t. -/
def execCall (t : Int) (s : State) : Outcome := s.push (s.regs.get .pc) fun s1 => .next (s1.jumpTo t)

/-- R104: pc <- Pop(). -/
def execRet (s : State) : Outcome := s.pop fun v s1 => .next (s1.setReg .pc v)

end Sys2Proof.Machine
end

