-- ==== Sys2Proof/Machine/Mov.lean ====
section
/-! DEFINITION. The six mov forms (41_mov.md). -/

namespace Sys2Proof.Machine

/-- R110: x[rd] <- x[rs]. -/
def execMovRegReg (rd rs : Reg) (s : State) : Outcome := .next (s.setReg rd (s.regs.get rs))

/-- R111: x[rd] <- v. -/
def execMovRegImm (rd : Reg) (v : Int) (s : State) : Outcome := .next (s.setX rd v)

/-- R112: x[rd] <- sext_32(MemRead(x[rbp] + d, 4)). -/
def execMovRegMem (rd : Reg) (d : Int) (s : State) : Outcome :=
  s.memRead (s.memEA d) fun w s1 => .next (s1.setReg rd w)

/-- R113: x[rd] <- sext_32(MemRead(x[rb] + 4 * x[ri], 4)). -/
def execMovRegArr (rd rb ri : Reg) (s : State) : Outcome :=
  s.memRead (s.arrEA rb ri) fun w s1 => .next (s1.setReg rd w)

/-- R114: MemWrite(x[rbp] + d, 4, tc_32(v)). -/
def execMovMemImm (d v : Int) (s : State) : Outcome :=
  s.memWrite (s.memEA d) (BitVec.ofInt 32 v) .next

/-- R115: MemWrite(x[rbp] + d, 4, tc_32(x[rs])). -/
def execMovMemReg (d : Int) (rs : Reg) (s : State) : Outcome :=
  s.memWrite (s.memEA d) (s.regs.get rs) .next

end Sys2Proof.Machine
end

