-- ==== Sys2Proof/Machine/Dispatch.lean ====
section
/-! DEFINITION. `Execute(I)` (10_state.md R24): one arm per instruction. -/

namespace Sys2Proof.Machine

def exec (i : Instr) (s : State) : Host.Outcome State Fault Refusal :=
  match i with
  | .lea rd d => Sys2Proof.Machine.execLea rd d s
  | .push r => Sys2Proof.Machine.execPush r s
  | .pop r => Sys2Proof.Machine.execPop r s
  | .call t => Sys2Proof.Machine.execCall t s
  | .ret => Sys2Proof.Machine.execRet s
  | .movRegReg rd rs => Sys2Proof.Machine.execMovRegReg rd rs s
  | .movRegImm rd v => Sys2Proof.Machine.execMovRegImm rd v s
  | .movRegMem rd d => Sys2Proof.Machine.execMovRegMem rd d s
  | .movRegArr rd rb ri => Sys2Proof.Machine.execMovRegArr rd rb ri s
  | .movMemImm d v => Sys2Proof.Machine.execMovMemImm d v s
  | .movMemReg d rs => Sys2Proof.Machine.execMovMemReg d rs s
  | .addRegImm rd v => Sys2Proof.Machine.execAddRegImm rd v s
  | .addRegReg rd rs => Sys2Proof.Machine.execAddRegReg rd rs s
  | .subRegImm rd v => Sys2Proof.Machine.execSubRegImm rd v s
  | .subRegReg rd rs => Sys2Proof.Machine.execSubRegReg rd rs s
  | .cmpRegReg ra rb => Sys2Proof.Machine.execCmpRegReg ra rb s
  | .cmpRegMem ra d => Sys2Proof.Machine.execCmpRegMem ra d s
  | .cmpRegImm ra v => Sys2Proof.Machine.execCmpRegImm ra v s
  | .cmpRegArr ra rb ri => Sys2Proof.Machine.execCmpRegArr ra rb ri s
  | .jmp t => Sys2Proof.Machine.execJmp t s
  | .je t => Sys2Proof.Machine.execJe t s
  | .jne t => Sys2Proof.Machine.execJne t s
  | .jl t => Sys2Proof.Machine.execJl t s
  | .jge t => Sys2Proof.Machine.execJge t s
  | .jle t => Sys2Proof.Machine.execJle t s
  | .jg t => Sys2Proof.Machine.execJg t s

end Sys2Proof.Machine
end

