-- ==== Sys2Proof/Machine/Step.lean ====
section
/-! DEFINITION. One call of `step()` (10_state.md R24), and placing the next instruction. -/

namespace Sys2Proof.Machine

/-- `step()` (10_state.md R24, 60_exceptions.md R156, R158). -/
def step (s : State) : Host.Outcome State Fault Refusal := s.stepWith exec

/-- `s` with an opcode-table word placed at the bus address of pc, where the next step fetches (log 10, log 11). -/
def State.withFetchWord (s : State) (nbits w : Nat) : State :=
  s.pokeBytes (busAddr s.cfg (s.x .pc)) (wordBytes (tableWord nbits w))

end Sys2Proof.Machine
end

