-- ==== Sys2Proof/Machine/Assembler.lean ====
section
/-! DEFINITION. The encoder (assembler): abstract instruction and label table to a word, an EncodingError, an image
(30_encoding.md R85 to R92). A pure function of its inputs; the CPU never calls it (60_exceptions.md R155). -/

namespace Sys2Proof.Machine

/-- The sixteen operators (30_encoding.md R86). -/
inductive Operator where
  | lea | push | pop | call | ret | mov | add | sub | cmp
  | jmp | jg | jge | jl | jle | je | jne
  deriving DecidableEq, Repr

/-- A typed operand (30_encoding.md R86). -/
inductive Operand where
  | reg (r : Reg)
  | mem (d : Int)
  | arr (b i : Reg)
  | imm (v : Int)
  | label (name : String)
  deriving DecidableEq, Repr

/-- An opcode tag and its operands (30_encoding.md R86). -/
structure AbsInstr where
  op : Operator
  operands : List Operand
  deriving DecidableEq, Repr

/-- Label names with the byte addresses they stand for (30_encoding.md R86); the first entry of a name counts. -/
abbrev LabelTable := List (String × Int)

/-- Why an instruction has no word (30_encoding.md R91). -/
inductive EncodingError where
  /-- (a) no layout for the operator and operand types. -/
  | noLayout
  /-- (b) a value outside its field's range. -/
  | fieldRange
  /-- (c) a label the table does not hold. -/
  | unknownLabel (name : String)
  /-- (d) a jge target whose word is lea's. -/
  | jgeTarget
  deriving DecidableEq, Repr

/-- The address a label stands for (30_encoding.md R89). -/
def LabelTable.find : LabelTable → String → Option Int
  | [], _ => none
  | (n, a) :: rest, name => if n = name then some a else LabelTable.find rest name

/-- `T` of 30_encoding.md R87: the value of an Imm or the address of a Label; no other operand is a target. -/
def Operand.target (L : LabelTable) : Operand → Except EncodingError Int
  | .imm v => .ok v
  | .label n =>
    match LabelTable.find L n with
    | some a => .ok a
    | none => .error (.unknownLabel n)
  | .reg _ | .mem _ | .arr _ _ => .error .noLayout

/-- A row of R87 that takes a target. -/
def withTarget (L : LabelTable) (o : Operand) (mk : Int → Instr) : Except EncodingError Instr :=
  match o.target L with
  | .ok t => .ok (mk t)
  | .error e => .error e

/-- The selection table (30_encoding.md R87): the instruction a combination stands for, labels resolved. -/
def AbsInstr.select (L : LabelTable) (a : AbsInstr) : Except EncodingError Instr :=
  match a.op, a.operands with
  | .lea, [.reg a, .mem d] => .ok (.lea a d)
  | .push, [.reg a] => .ok (.push a)
  | .pop, [.reg a] => .ok (.pop a)
  | .call, [o] => withTarget L o .call
  | .ret, [] => .ok .ret
  | .mov, [.reg a, .reg b] => .ok (.movRegReg a b)
  | .mov, [.reg a, .imm v] => .ok (.movRegImm a v)
  | .mov, [.reg a, .mem d] => .ok (.movRegMem a d)
  | .mov, [.reg a, .arr b i] => .ok (.movRegArr a b i)
  | .mov, [.mem d, .imm v] => .ok (.movMemImm d v)
  | .mov, [.mem d, .reg b] => .ok (.movMemReg d b)
  | .add, [.reg a, .imm v] => .ok (.addRegImm a v)
  | .add, [.reg a, .reg b] => .ok (.addRegReg a b)
  | .sub, [.reg a, .imm v] => .ok (.subRegImm a v)
  | .sub, [.reg a, .reg b] => .ok (.subRegReg a b)
  | .cmp, [.reg a, .reg b] => .ok (.cmpRegReg a b)
  | .cmp, [.reg a, .mem d] => .ok (.cmpRegMem a d)
  | .cmp, [.reg a, .imm v] => .ok (.cmpRegImm a v)
  | .cmp, [.reg a, .arr b i] => .ok (.cmpRegArr a b i)
  | .jmp, [o] => withTarget L o .jmp
  | .je, [o] => withTarget L o .je
  | .jne, [o] => withTarget L o .jne
  | .jl, [o] => withTarget L o .jl
  | .jge, [o] => withTarget L o .jge
  | .jle, [o] => withTarget L o .jle
  | .jg, [o] => withTarget L o .jg
  | _, _ => .error .noLayout

/-- `encode(instruction, labelTable)` (30_encoding.md R85, R88, R91). -/
def assemble (L : LabelTable) (a : AbsInstr) : Except EncodingError Word :=
  match a.select L with
  | .error e => .error e
  | .ok i =>
    if i.fieldsFit = false then .error .fieldRange
    else if i.readAsLea = true then .error .jgeTarget
    else .ok (encode i)

/-- IMAGE_BYTES (00_scope.md R7). -/
def imageBytes : Nat := 1024

/-- Why a program has no image (30_encoding.md R92). -/
inductive ImageError where
  /-- ConfigError: more than 256 instructions. -/
  | configError
  /-- The instruction at this index cannot be encoded; the whole image is aborted (60_exceptions.md R155). -/
  | encoding (index : Nat) (e : EncodingError)
  deriving DecidableEq, Repr

/-- The words of the instructions from index `n` on, as bytes, b0 first. -/
def assembleAll (L : LabelTable) : Nat → List AbsInstr → Except ImageError (List Byte)
  | _, [] => .ok []
  | n, a :: as =>
    match assemble L a with
    | .error e => .error (.encoding n e)
    | .ok w =>
      match assembleAll L (n + 1) as with
      | .error e => .error e
      | .ok bs => .ok (wordBytes w ++ bs)

/-- `encodeProgram(instructions, labelTable)`: exactly 1024 bytes, zero-padded (30_encoding.md R92). -/
def encodeProgram (L : LabelTable) (as : List AbsInstr) : Except ImageError (List Byte) :=
  if imageBytes < 4 * as.length then .error .configError
  else
    match assembleAll L 0 as with
    | .error e => .error e
    | .ok bs => .ok (bs ++ List.replicate (imageBytes - bs.length) 0)

end Sys2Proof.Machine
end

