-- ==== Sys2Proof/Machine/HostOps.lean ====
section
/-! DEFINITION. The host's operations between steps (70_reset_and_hazards.md R176). `step` is Step.lean's, the
encoder is Assembler.lean's, and reading the state is reading its fields. No host operation writes a register, a flag
or the Stack (decision D25). -/

namespace Sys2Proof.Machine

/-- reset / create(bits, k, size, nway, STACK_DEPTH): ConfigError if 00_scope.md R7's constraints break. -/
def create (cfg : Config) : Outcome :=
  if cfg.WellFormed then .next (State.resetWith cfg) else .refused .configError

/-- IMAGE_BASE (00_scope.md R7, decision D21). -/
def imageBase : Nat := 0

/-- `loadProgram(image)`: 1024 bytes directly into Memory, not through the cache, once, right after reset
(70_reset_and_hazards.md R171, R172). Right after reset is: in the state reset leaves, no load among it (log 9).
DESIGN CHOICE: at another time and with another length, the time is the reason reported (log 16). -/
def State.loadProgram (s : State) (image : List Byte) : Outcome :=
  if s = State.resetWith s.cfg then
    if image.length = imageBytes then .next { s with mem := s.mem.writeBytes imageBase image, loaded := true }
    else .refused .imageSize
  else .refused .loadNotAfterReset

/-- `isCacheHit(ba)`: the way, or -1 (20_memory.md R55). DESIGN CHOICE, unsafe: at an address that is no bus address,
2^bits or above, the spec gives no answer and the model answers -1 in every well-formed state (log 12). -/
def State.isCacheHit (s : State) (ba : Nat) : Int :=
  match Cache.lookup s.cfg s.cache ba with
  | some w => w
  | none => -1

/-- A bus address the cache operations are given: in 0 .. 2^bits - 1 and a multiple of 4 (20_memory.md R52, R53). -/
abbrev CacheAddress (cfg : Config) (ba : Nat) : Prop := ba < 2 ^ cfg.bits ∧ ba % 4 = 0

/-- The host's cache `read(ba)`: the dword and the state after, or the reason it is refused (20_memory.md R52). -/
def State.hostRead (s : State) (ba : Nat) : Except Refusal (Word × State) :=
  if CacheAddress s.cfg ba then .ok (s.cacheRead ba) else .error .hostAddress

/-- The host's cache `write(ba, v, memwrite)`; `memwrite = false` is the debug write (20_memory.md R53, R54). -/
def State.hostWrite (s : State) (ba : Nat) (v : Word) (memwrite : Bool) : Outcome :=
  if CacheAddress s.cfg ba then .next (s.cacheWrite ba v memwrite) else .refused .hostAddress

end Sys2Proof.Machine
end

