-- ==== Sys2Proof/Safety.lean ====
section
/-! DEFINITION. The terms the statements are written in: well-formed and coherent states, the reachable flag pairs,
a fetched instruction, what an instruction leaves unchanged, which instructions may do what. -/

namespace Sys2Proof.Machine

/-- One set has `nway` lines and an order that lists each way once; each valid line has a block of bytes and a tag of
`tagBits` bits, and no two valid lines have one tag (10_state.md R33, R34(a)). -/
abbrev CacheSet.Wf (cfg : Config) (cs : CacheSet) : Prop :=
  cs.lines.length = cfg.nway ∧ cs.order.Perm (List.range cfg.nway) ∧
    (∀ l ∈ cs.lines, ∀ ln ∈ l, ln.data.length = 2 ^ cfg.k ∧ ln.tag < 2 ^ cfg.tagBits) ∧
    cs.lines.Pairwise (fun a b => a = none ∨ a.map Line.tag ≠ b.map Line.tag)

/-- There are `size` sets, each well formed (10_state.md R33). -/
abbrev Cache.Wf (cfg : Config) (c : Cache) : Prop := c.length = cfg.size ∧ ∀ cs ∈ c, CacheSet.Wf cfg cs

/-- Memory is in its canonical form and lists bus addresses only (10_state.md R31, R32). -/
abbrev Memory.Fits (cfg : Config) (m : Memory) : Prop := m.wf ∧ ∀ c ∈ m, c.1 < 2 ^ cfg.bits

/-- At most STACK_DEPTH entries (10_state.md R27). -/
abbrev StackFits (cfg : Config) (stk : List Word) : Prop := ∀ n ∈ cfg.stackDepth, stk.length ≤ n

/-- The shape every state of a created machine has: legal parameters, canonical Memory, a well-formed cache, a Stack
within its capacity. -/
abbrev State.Wf (s : State) : Prop :=
  s.cfg.WellFormed ∧ s.mem.Fits s.cfg ∧ Cache.Wf s.cfg s.cache ∧ StackFits s.cfg s.stk

/-- The bus address of the block with a tag in set i (20_memory.md R47). -/
def blockAddr (cfg : Config) (tag i : Nat) : Nat := tag * 2 ^ (cfg.k + cfg.setBits) + i * 2 ^ cfg.k

/-- Every valid line holds the bytes Memory holds at its block (10_state.md R34(d)); it is so as long as the host
makes no debug write (20_memory.md R54). -/
abbrev State.Coherent (s : State) : Prop :=
  ∀ p ∈ s.cache.zipIdx, ∀ l ∈ p.1.lines, ∀ ln ∈ l, ln.data = s.mem.block (blockAddr s.cfg ln.tag p.2) (2 ^ s.cfg.k)

/-- Not the pair (zero, sign) = (1, 0), which no cmp makes (10_state.md R26). -/
abbrev Flags.Reachable (f : Flags) : Prop := ¬ (f.zero = true ∧ f.sign = false)

/-- The dword the fetch at pc reads (10_state.md R24). -/
def State.fetchedWord (s : State) : Word := (s.cacheRead (busAddr s.cfg (s.x .pc))).1

/-- The state after a fetch: the cache has changed, nothing else (20_memory.md R52). -/
def State.afterFetch (s : State) : State := (s.cacheRead (busAddr s.cfg (s.x .pc))).2

/-- A Ready machine fetches and decodes `i` at an aligned pc that can advance, and comes with pc advanced by 4 to the
Execute phase in `s1` (10_state.md R24). -/
abbrev State.Fetches (s : State) (i : Instr) (s1 : State) : Prop :=
  s.run = .ready ∧ Aligned (s.x .pc) ∧ decode s.fetchedWord = .ok i ∧ InRange (s.x .pc + 4) ∧
    s1 = s.afterFetch.setX .pc (s.x .pc + 4)

/-- The state a step that raised `e` leaves (60_exceptions.md R156): as before, but for `run` and the cache `c`. -/
def State.haltedWith (s : State) (c : Cache) (e : ErrorRecord) : State := { s with cache := c, run := .halted e }

/-- Flags, Stack, run state, parameters, the record of the load and every byte of Memory are as before. -/
def SameButRegsAndCache (s t : State) : Prop :=
  t.flags = s.flags ∧ t.stk = s.stk ∧ t.run = s.run ∧ t.cfg = s.cfg ∧ t.loaded = s.loaded ∧ ∀ a, t.mem.read a = s.mem.read a

/-- Register r holds v, and every other register is as before. -/
def OnlyReg (s t : State) (r : Reg) (v : Int) : Prop := t.x r = v ∧ ∀ q, q ≠ r → t.x q = s.x q

/-- Every register is as before. -/
def SameRegs (s t : State) : Prop := ∀ q, t.x q = s.x q

/-- The flags are those of `Compare(a, b)`, spelled out (43_cmp.md R130). -/
def ComparedFlags (t : State) (a b : Int) : Prop :=
  (t.flags.zero = true ↔ a = b) ∧ (t.flags.sign = false ↔ a > b)

/-- Stack, run state, parameters, the record of the load and every byte of Memory are as before. -/
def SameStackRunMemory (s t : State) : Prop :=
  t.stk = s.stk ∧ t.run = s.run ∧ t.cfg = s.cfg ∧ t.loaded = s.loaded ∧ ∀ a, t.mem.read a = s.mem.read a

/-- Everything but the cache is as before: every register, byte of Memory and other field. -/
def SameButCache (s t : State) : Prop := SameRegs s t ∧ SameButRegsAndCache s t

/-- All that a program can observe of two machines is the same: everything but the cache, its geometry and the host's
record of the load (10_state.md R35). -/
def SameToProgram (s t : State) : Prop :=
  t.cfg.bits = s.cfg.bits ∧ t.cfg.stackDepth = s.cfg.stackDepth ∧ t.regs = s.regs ∧ t.flags = s.flags ∧
    t.stk = s.stk ∧ t.run = s.run ∧ t.mem = s.mem

/-- The dword w is stored big-endian at bus addresses ba .. ba + 3, and every other byte is as before
(20_memory.md R40, R53). -/
def StoredDword (s t : State) (ba : Nat) (w : Word) : Prop :=
  t.mem.read ba = byte0 w ∧ t.mem.read (ba + 1) = byte1 w ∧ t.mem.read (ba + 2) = byte2 w ∧
    t.mem.read (ba + 3) = byte3 w ∧ ∀ a, ¬ (ba ≤ a ∧ a < ba + 4) → t.mem.read a = s.mem.read a

/-- One dword access to the cache: a fetch, a load or a host read; a store or a host write (20_memory.md R52 to R54). -/
inductive CacheAccess where
  | read (ba : Nat)
  | write (ba : Nat) (v : Word) (memwrite : Bool)
  deriving DecidableEq, Repr

/-- The bus address of an access. -/
def CacheAccess.addr : CacheAccess → Nat
  | .read ba | .write ba _ _ => ba

/-- A state after an access. -/
def State.access (s : State) : CacheAccess → State
  | .read ba => (s.cacheRead ba).2
  | .write ba v memwrite => s.cacheWrite ba v memwrite

/-- Every byte of the dword at ba lies in a resident block. -/
abbrev State.DwordResident (s : State) (ba : Nat) : Prop := ∀ j, j < 4 → s.isCacheHit (ba + j) ≠ -1

/-- No byte of the dword at ba lies in a resident block. -/
abbrev State.DwordAbsent (s : State) (ba : Nat) : Prop := ∀ j, j < 4 → s.isCacheHit (ba + j) = -1

/-- `t` is reached from `s` by accesses, none of them a write to the dword at ba, that leave that dword resident
throughout (20_memory.md R54, "while the line stays resident"). -/
inductive State.KeepsResident (ba : Nat) : State → State → Prop where
  | refl {s : State} : s.DwordResident ba → KeepsResident ba s s
  | access {s t : State} (a : CacheAccess) : KeepsResident ba s t → CacheAddress t.cfg a.addr →
      (a = .read ba ∨ a.addr ≠ ba) → (t.access a).DwordResident ba → KeepsResident ba s (t.access a)

end Sys2Proof.Machine

namespace Sys2Proof

open Sys2Proof.Machine

/-- `if c(flags) then pc <- t` and nothing else (44_jumps.md R142 to R147). -/
def Machine.JumpsIf (mk : Int → Instr) (c : Flags → Prop) : Prop :=
  ∀ (s : State) (p : Int), TargetFits p →
    (c s.flags → ∃ t, exec (mk p) s = .next t ∧ OnlyReg s t .pc p ∧ SameButRegsAndCache s t ∧ t.cache = s.cache) ∧
    (¬ c s.flags → exec (mk p) s = .next s)

/-- The register an instruction names as its destination, or pc where it redirects (10_state.md R22). -/
def Instr.writes : Instr → List Reg
  | .lea rd _ | .pop rd | .movRegReg rd _ | .movRegImm rd _ | .movRegMem rd _ | .movRegArr rd _ _
  | .addRegImm rd _ | .addRegReg rd _ | .subRegImm rd _ | .subRegReg rd _ => [rd]
  | .call _ | .ret | .jmp _ | .je _ | .jne _ | .jl _ | .jge _ | .jle _ | .jg _ => [.pc]
  | .push _ | .movMemImm _ _ | .movMemReg _ _ | .cmpRegReg _ _ | .cmpRegMem _ _ | .cmpRegImm _ _
  | .cmpRegArr _ _ _ => []

/-- The four cmp instructions (10_state.md R26). -/
def Instr.isCmp : Instr → Bool
  | .cmpRegReg _ _ | .cmpRegMem _ _ | .cmpRegImm _ _ | .cmpRegArr _ _ _ => true
  | .lea _ _ | .push _ | .pop _ | .call _ | .ret | .movRegReg _ _ | .movRegImm _ _ | .movRegMem _ _
  | .movRegArr _ _ _ | .movMemImm _ _ | .movMemReg _ _ | .addRegImm _ _ | .addRegReg _ _ | .subRegImm _ _
  | .subRegReg _ _ | .jmp _ | .je _ | .jne _ | .jl _ | .jge _ | .jle _ | .jg _ => false

/-- The six conditional jumps (44_jumps.md R141). -/
def Instr.isConditionalJump : Instr → Bool
  | .je _ | .jne _ | .jl _ | .jge _ | .jle _ | .jg _ => true
  | .lea _ _ | .push _ | .pop _ | .call _ | .ret | .movRegReg _ _ | .movRegImm _ _ | .movRegMem _ _
  | .movRegArr _ _ _ | .movMemImm _ _ | .movMemReg _ _ | .addRegImm _ _ | .addRegReg _ _ | .subRegImm _ _
  | .subRegReg _ _ | .cmpRegReg _ _ | .cmpRegMem _ _ | .cmpRegImm _ _ | .cmpRegArr _ _ _ | .jmp _ => false

/-- The target of the jumps and of call (44_jumps.md R148, 40_lea_stack_call.md R103). -/
def Instr.target : Instr → Option Int
  | .call p | .jmp p | .je p | .jne p | .jl p | .jge p | .jle p | .jg p => some p
  | .lea _ _ | .push _ | .pop _ | .ret | .movRegReg _ _ | .movRegImm _ _ | .movRegMem _ _
  | .movRegArr _ _ _ | .movMemImm _ _ | .movMemReg _ _ | .addRegImm _ _ | .addRegReg _ _ | .subRegImm _ _
  | .subRegReg _ _ | .cmpRegReg _ _ | .cmpRegMem _ _ | .cmpRegImm _ _ | .cmpRegArr _ _ _ => none

/-- Whether an instruction redirects execution with these flags: call, ret and jmp always, a conditional jump when the
predicate of 44_jumps.md R141 holds. -/
def Instr.taken (f : Flags) : Instr → Bool
  | .call _ | .ret | .jmp _ => true
  | .je _ => f.zero
  | .jne _ => !f.zero
  | .jl _ => !f.zero && f.sign
  | .jge _ => f.zero || !f.sign
  | .jle _ => f.zero || f.sign
  | .jg _ => !f.zero && !f.sign
  | .lea _ _ | .push _ | .pop _ | .movRegReg _ _ | .movRegImm _ _ | .movRegMem _ _
  | .movRegArr _ _ _ | .movMemImm _ _ | .movMemReg _ _ | .addRegImm _ _ | .addRegReg _ _ | .subRegImm _ _
  | .subRegReg _ _ | .cmpRegReg _ _ | .cmpRegMem _ _ | .cmpRegImm _ _ | .cmpRegArr _ _ _ => false

/-- push and call (10_state.md R28). -/
def Instr.pushes : Instr → Bool
  | .push _ | .call _ => true
  | .lea _ _ | .pop _ | .ret | .movRegReg _ _ | .movRegImm _ _ | .movRegMem _ _
  | .movRegArr _ _ _ | .movMemImm _ _ | .movMemReg _ _ | .addRegImm _ _ | .addRegReg _ _ | .subRegImm _ _
  | .subRegReg _ _ | .cmpRegReg _ _ | .cmpRegMem _ _ | .cmpRegImm _ _ | .cmpRegArr _ _ _ | .jmp _
  | .je _ | .jne _ | .jl _ | .jge _ | .jle _ | .jg _ => false

/-- pop and ret (10_state.md R28). -/
def Instr.pops : Instr → Bool
  | .pop _ | .ret => true
  | .lea _ _ | .push _ | .call _ | .movRegReg _ _ | .movRegImm _ _ | .movRegMem _ _
  | .movRegArr _ _ _ | .movMemImm _ _ | .movMemReg _ _ | .addRegImm _ _ | .addRegReg _ _ | .subRegImm _ _
  | .subRegReg _ _ | .cmpRegReg _ _ | .cmpRegMem _ _ | .cmpRegImm _ _ | .cmpRegArr _ _ _ | .jmp _
  | .je _ | .jne _ | .jl _ | .jge _ | .jle _ | .jg _ => false

/-- The storing instructions, and where they store (20_memory.md R31, R46): the effective address. -/
def Instr.storesAt (s : State) : Instr → Option Int
  | .movMemImm d _ | .movMemReg d _ => some (s.memEA d)
  | .lea _ _ | .push _ | .pop _ | .call _ | .ret | .movRegReg _ _ | .movRegImm _ _ | .movRegMem _ _
  | .movRegArr _ _ _ | .addRegImm _ _ | .addRegReg _ _ | .subRegImm _ _ | .subRegReg _ _ | .cmpRegReg _ _
  | .cmpRegMem _ _ | .cmpRegImm _ _ | .cmpRegArr _ _ _ | .jmp _ | .je _ | .jne _ | .jl _ | .jge _ | .jle _
  | .jg _ => none

/-- The error an instruction raises in its Execute phase from `s`, if any: the causes of 60_exceptions.md R150. -/
def Instr.raises (s : State) : Instr → Option ErrorRecord
  | .lea _ d => rangeCheck (s.x .rbp + d)
  | .addRegImm rd v => rangeCheck (s.x rd + v)
  | .addRegReg rd rs => rangeCheck (s.x rd + s.x rs)
  | .subRegImm rd v => rangeCheck (s.x rd - v)
  | .subRegReg rd rs => rangeCheck (s.x rd - s.x rs)
  | .push _ | .call _ => if s.cfg.stackDepth = some s.stk.length then some .stackOverflow else none
  | .pop _ | .ret => if s.stk = [] then some .stackUnderflow else none
  | .movRegMem _ d | .movMemImm d _ | .movMemReg d _ | .cmpRegMem _ d => alignCheck (s.x .rbp + d)
  | .movRegArr _ rb ri | .cmpRegArr _ rb ri => alignCheck (s.x rb + 4 * s.x ri)
  | .movRegReg _ _ | .movRegImm _ _ | .cmpRegReg _ _ | .cmpRegImm _ _ | .jmp _ | .je _ | .jne _ | .jl _ | .jge _
  | .jle _ | .jg _ => none
where
  /-- RangeError outside INT_MIN .. INT_MAX. -/
  rangeCheck (v : Int) : Option ErrorRecord :=
    if v < -2147483648 ∨ 2147483647 < v then some (.rangeError v) else none
  /-- MisalignedAccess off a multiple of 4. -/
  alignCheck (ea : Int) : Option ErrorRecord := if ea % 4 ≠ 0 then some (.misalignedAccess ea) else none

/-- The words of 30_encoding.md R79 (a) to (e). -/
def Machine.IllegalWord (w : Word) : Prop :=
  (byte0 w).toNat ∉ [0x01, 0x05, 0x06, 0x07, 0x29, 0x2D, 0x39, 0x3B, 0x3D, 0x84, 0x85, 0x89, 0x8B, 0x8C, 0x8D, 0x8E,
      0x8F, 0xC2, 0xC6, 0xC7, 0xE8, 0xE9] ∨
    ((byte0 w).toNat ∈ [0x01, 0x29, 0x39] ∧ byte1 w ≠ 0x00) ∨
    ((byte0 w).toNat ∈ [0x3B, 0x8B] ∧ byte1 w ≠ 0x0E ∧ byte1 w ≠ 0x0F) ∨
    (byte0 w = 0x89 ∧ byte1 w ≠ 0x00 ∧ byte1 w ≠ 0xF0) ∨
    ((byte0 w).toNat ∈ [0x06, 0x07] ∧ (byte2 w ≠ 0 ∨ byte3 w ≠ 0)) ∨
    (byte0 w = 0xC2 ∧ (byte1 w ≠ 0 ∨ byte2 w ≠ 0 ∨ byte3 w ≠ 0)) ∨
    ((byte0 w).toNat ∈ [0x05, 0x06, 0x07, 0x2D, 0x3D, 0xC6] ∧ 8 < (byte1 w).toNat) ∨
    ((byte0 w).toNat ∈ [0x01, 0x29, 0x39] ∧ (8 < (byte2 w).toNat ∨ 8 < (byte3 w).toNat)) ∨
    (byte0 w = 0x89 ∧ byte1 w = 0x00 ∧ (8 < (byte2 w).toNat ∨ 8 < (byte3 w).toNat)) ∨
    (byte0 w = 0x89 ∧ byte1 w = 0xF0 ∧ 8 < (byte3 w).toNat) ∨
    ((byte0 w).toNat ∈ [0x3B, 0x8B, 0x8D] ∧ byte1 w = 0x0F ∧ 8 < (byte2 w).toNat) ∨
    ((byte0 w).toNat ∈ [0x3B, 0x8B] ∧ byte1 w = 0x0E ∧
      (8 < (byte2 w).toNat ∨ 8 < (byte3 w).toNat / 16 ∨ 8 < (byte3 w).toNat % 16))

/-- The abstract instruction an instruction is the selected form of: the rows of 30_encoding.md R87, read from right
to left, targets as Imm. -/
def Instr.abstract : Instr → AbsInstr
  | .lea a d => ⟨.lea, [.reg a, .mem d]⟩
  | .push a => ⟨.push, [.reg a]⟩
  | .pop a => ⟨.pop, [.reg a]⟩
  | .call t => ⟨.call, [.imm t]⟩
  | .ret => ⟨.ret, []⟩
  | .movRegReg a b => ⟨.mov, [.reg a, .reg b]⟩
  | .movRegImm a v => ⟨.mov, [.reg a, .imm v]⟩
  | .movRegMem a d => ⟨.mov, [.reg a, .mem d]⟩
  | .movRegArr a b i => ⟨.mov, [.reg a, .arr b i]⟩
  | .movMemImm d v => ⟨.mov, [.mem d, .imm v]⟩
  | .movMemReg d b => ⟨.mov, [.mem d, .reg b]⟩
  | .addRegImm a v => ⟨.add, [.reg a, .imm v]⟩
  | .addRegReg a b => ⟨.add, [.reg a, .reg b]⟩
  | .subRegImm a v => ⟨.sub, [.reg a, .imm v]⟩
  | .subRegReg a b => ⟨.sub, [.reg a, .reg b]⟩
  | .cmpRegReg a b => ⟨.cmp, [.reg a, .reg b]⟩
  | .cmpRegMem a d => ⟨.cmp, [.reg a, .mem d]⟩
  | .cmpRegImm a v => ⟨.cmp, [.reg a, .imm v]⟩
  | .cmpRegArr a b i => ⟨.cmp, [.reg a, .arr b i]⟩
  | .jmp t => ⟨.jmp, [.imm t]⟩
  | .je t => ⟨.je, [.imm t]⟩
  | .jne t => ⟨.jne, [.imm t]⟩
  | .jl t => ⟨.jl, [.imm t]⟩
  | .jge t => ⟨.jge, [.imm t]⟩
  | .jle t => ⟨.jle, [.imm t]⟩
  | .jg t => ⟨.jg, [.imm t]⟩

/-- The operators of 30_encoding.md R87 that take a target. -/
def Machine.Operator.takesTarget : Operator → Bool
  | .call | .jmp | .je | .jne | .jl | .jge | .jle | .jg => true
  | .lea | .push | .pop | .ret | .mov | .add | .sub | .cmp => false

/-- A Label replaced by the address the table holds for it, if any (30_encoding.md R89). -/
def Machine.Operand.resolve (L : LabelTable) : Operand → Operand
  | .label n =>
    match LabelTable.find L n with
    | some a => .imm a
    | none => .label n
  | .reg r => .reg r
  | .mem d => .mem d
  | .arr b i => .arr b i
  | .imm v => .imm v

/-- An abstract instruction with the labels of its target operands resolved (30_encoding.md R89). -/
def Machine.AbsInstr.resolve (L : LabelTable) (a : AbsInstr) : AbsInstr :=
  if a.op.takesTarget then ⟨a.op, a.operands.map (Operand.resolve L)⟩ else a

end Sys2Proof
end

