-- ==== Sys2Proof/Certificates/Slice0/Obligations.lean ====
section
/-! DEFINITION. The statements. `exec i s` is the Execute phase: the pc of `s` is already a + 4 (10_state.md R24).
A fatal error in it is `{ s with run := .halted e }`; what the step then gives back is said by
`FatalErrorsArePrecise`, `StepErrorsFollowThePriority` and, for pop and ret, beside their results. -/

section Statements

open Sys2Proof Sys2Proof.Machine

/-! Encoding, decoding, assembling. -/

/-- Words of 95_test_vectors.md section 2.1 and 2.2, one or more of each family. -/
def Obligations.SpecWordsDecodeAsPrinted : Prop :=
  decode 0x8D0F04F8 = .ok (.lea .esi (-8)) ∧ decode 0x06080000 = .ok (.push .pc) ∧
  decode 0xE8FFFFFC = .ok (.call (-4)) ∧ decode 0xC2000000 = .ok .ret ∧
  decode 0x89000706 = .ok (.movRegReg .rbp .rsp) ∧ decode 0x8B0E0878 = .ok (.movRegArr .pc .rbp .pc) ∧
  decode 0xC708FFE2 = .ok (.movMemImm 8 (-30)) ∧ decode 0x89F00C04 = .ok (.movMemReg 12 .esi) ∧
  decode 0x0500FFFF = .ok (.addRegImm .eax (-1)) ∧ decode 0x29000001 = .ok (.subRegReg .eax .ebx) ∧
  decode 0x3B0F0004 = .ok (.cmpRegMem .eax 4) ∧ decode 0xE9800000 = .ok (.jmp (-8388608)) ∧
  decode 0x8D0E0000 = .ok (.jge 917504) ∧ decode 0x84FFFFFC = .ok (.je (-4)) ∧
  decode 0x8D0F0900 = .error (.badRegister 0x8D0F0900) ∧ decode 0x00000000 = .error (.noPattern 0)

/-- 30_encoding.md section 4 (R93): decode is a left inverse of encode on every well-formed instruction. -/
def Obligations.DecodeOfEncodeIsTheInstruction : Prop :=
  ∀ i : Instr, i.wellFormed = true → decode (encode i) = .ok i

/-- 30_encoding.md section 4 (R93, the converse it derives): a word that decodes is the word of a well-formed
instruction, so each instruction has one word. -/
def Obligations.EncodeOfDecodeIsTheWord : Prop :=
  ∀ (w : Word) (i : Instr), decode w = .ok i → i.wellFormed = true ∧ encode i = w

/-- 30_encoding.md section 4 (R93): what is assembled decodes to the instruction with the same operator, registers and
integers, labels replaced by their addresses; and every decodable word is assembled from some abstract instruction. -/
def Obligations.AssembledWordsDecodeToTheirInstruction : Prop :=
  (∀ (L : LabelTable) (a : AbsInstr) (w : Word), assemble L a = .ok w →
    ∃ i, decode w = .ok i ∧ i.abstract = a.resolve L) ∧
  ∀ (L : LabelTable) (w : Word) (i : Instr), decode w = .ok i → assemble L i.abstract = .ok w

/-- 30_encoding.md R79: the illegal words are exactly (a) to (e), and one that is fetched halts the machine with
DecodeError(w). -/
def Obligations.IllegalWordsAreExactlyThoseListed : Prop :=
  (∀ w : Word, (∃ e, decode w = .error e) ↔ IllegalWord w) ∧
  ∀ s : State, s.run = .ready → Aligned (s.x .pc) → IllegalWord s.fetchedWord →
    step s = .next (s.haltedWith s.afterFetch.cache (.decodeError s.fetchedWord))

/-- 30_encoding.md section 3 (R80, decision D12): a word 0x8D 0x0F is lea or illegal, never jge; and the targets whose
jge word would be such a word are exactly 0x0F0000 .. 0x0FFFFF. -/
def Obligations.LeaWordsAreNeverJge : Prop :=
  (∀ w : Word, byte0 w = 0x8D → byte1 w = 0x0F →
    (∃ rd, decode w = .ok (.lea rd (byte3 w).toInt)) ∨ decode w = .error (.badRegister w)) ∧
  ∀ t : Int, TargetFits t →
    (byte0 (encode (.jge t)) = 0x8D ∧ (byte1 (encode (.jge t)) = 0x0F ↔ 0x0F0000 ≤ t ∧ t ≤ 0x0FFFFF))

/-- opcode_table.json: a word that decodes has the fixed bits of its instruction's row. -/
def Obligations.DecodedWordsLieInTheirTableRow : Prop :=
  ∀ (w : Word) (i : Instr), decode w = .ok i → w &&& i.opcodeRow.2 = i.opcodeRow.1

/-- 30_encoding.md section 4 (R91): the encoder succeeds exactly on the layouts of R87 whose values fit their fields
and that are no jge to a target of lea's; the labels of target operands are resolved first. -/
def Obligations.AssemblerAcceptsExactlyTheLayouts : Prop :=
  ∀ (L : LabelTable) (a : AbsInstr),
    (∃ w, assemble L a = .ok w) ↔ ∃ i : Instr, i.abstract = a.resolve L ∧ i.wellFormed = true

/-- 30_encoding.md section 4 (R92): an image has 1024 bytes, byte 4m + q is byte q of instruction m, the rest are
zero; more than 256 instructions make no image. -/
def Obligations.ImagesAreInstructionsThenZeros : Prop :=
  (∀ (L : LabelTable) (as : List AbsInstr) (img : List Byte), encodeProgram L as = .ok img →
    img.length = 1024 ∧
    (∀ (m : Nat) (a : AbsInstr), as[m]? = some a → ∃ w, assemble L a = .ok w ∧
      img[4 * m]? = some (byte0 w) ∧ img[4 * m + 1]? = some (byte1 w) ∧ img[4 * m + 2]? = some (byte2 w) ∧
      img[4 * m + 3]? = some (byte3 w)) ∧
    ∀ n, 4 * as.length ≤ n → n < 1024 → img[n]? = some 0) ∧
  ∀ (L : LabelTable) (as : List AbsInstr), 256 < as.length → encodeProgram L as = .error .configError

/-! Reset and the step. -/

/-- 10_state.md section 8 (R36): the reset state of every instance. The register, flag and Stack values are the spec's
own decision D2, the recency order D14 (log 7); the Memory bytes, the empty cache and Ready are the source's. That
isCacheHit is -1 at an address of 2^bits or above too is the model's choice (log 12). -/
def Obligations.ResetClearsTheMachine : Prop :=
  ∀ cfg : Config,
    (∀ r, (State.resetWith cfg).x r = 0) ∧ (State.resetWith cfg).flags = ⟨false, false⟩ ∧
    (State.resetWith cfg).stk = [] ∧ (State.resetWith cfg).run = .ready ∧
    (∀ a, (State.resetWith cfg).mem.read a = 0) ∧
    (∀ ba, (State.resetWith cfg).isCacheHit ba = -1) ∧
    (∀ i, i < cfg.size → ((State.resetWith cfg).cache.setAt i).order = (List.range cfg.nway).reverse) ∧
    State.reset = State.resetWith ⟨32, 2, 4, 2, none⟩

/-- 70_reset_and_hazards.md sections 1 and 3 (R170, R176, R7), 10_state.md sections 3, 7 and 8: creation with legal
parameters gives a machine in which every invariant below holds, and with others is a ConfigError. The flag pair is
reachable because both flags are 0 at reset, the Stack fits because it is empty: the spec's decision D2; the recency
order is a permutation of the ways by D14 (log 7). -/
def Obligations.CreatedMachinesMeetTheInvariants : Prop :=
  (∀ cfg : Config, cfg.WellFormed → ∃ s, create cfg = .next s ∧ s.cfg = cfg ∧ s.Wf ∧ s.Coherent ∧ s.flags.Reachable) ∧
  ∀ cfg : Config, ¬ cfg.WellFormed → create cfg = .refused .configError

/-- 10_state.md section 2 (R24): when the word fetched at pc decodes to i, the step is `exec i` after pc has advanced
by 4 (nothing else having changed but the cache), and an error raised there leaves the state the step began with,
Halted, with the cache as it then is. -/
def Obligations.StepRunsTheDecodedInstruction : Prop :=
  ∀ (s : State) (i : Instr) (s1 : State), s.Fetches i s1 →
    OnlyReg s s1 .pc (s.x .pc + 4) ∧ SameButRegsAndCache s s1 ∧
    ∀ t, exec i s1 = .next t →
      (t.run = .ready → step s = .next t) ∧ ∀ e, t.run = .halted e → step s = .next (s.haltedWith t.cache e)

/-- 60_exceptions.md R160: the one error a step raises is the first in the order fetch alignment, decode, pc advance
(only at a = 0x7FFFFFFC), the instruction's own; where none arises the step completes and stays Ready. -/
def Obligations.StepErrorsFollowThePriority : Prop :=
  ∀ s : State, s.run = .ready →
    (¬ Aligned (s.x .pc) → step s = .next (s.haltedWith s.cache (.misalignedAccess (s.x .pc)))) ∧
    (Aligned (s.x .pc) → ∀ e, decode s.fetchedWord = .error e →
      step s = .next (s.haltedWith s.afterFetch.cache (.decodeError s.fetchedWord))) ∧
    (Aligned (s.x .pc) → (¬ InRange (s.x .pc + 4) ↔ s.x .pc = 0x7FFFFFFC)) ∧
    (Aligned (s.x .pc) → s.x .pc = 0x7FFFFFFC → ∀ i, decode s.fetchedWord = .ok i →
      step s = .next (s.haltedWith s.afterFetch.cache (.rangeError 0x80000000))) ∧
    ∀ i s1, s.Fetches i s1 →
      (∀ e, i.raises s1 = some e → step s = .next (s.haltedWith s1.cache e)) ∧
      (i.raises s1 = none → ∃ t, step s = .next t ∧ t.run = .ready)

/-- 60_exceptions.md section 2 (R156; decision D19 for the kinds other than DecodeError): a step that ends Halted has
changed no register (pc is the faulting instruction's address), flag, Stack entry or Memory byte. -/
def Obligations.FatalErrorsArePrecise : Prop :=
  ∀ (s t : State) (e : ErrorRecord), s.run = .ready → step s = .next t → t.run = .halted e →
    SameRegs s t ∧ t.flags = s.flags ∧ t.stk = s.stk ∧ t.cfg = s.cfg ∧ t.loaded = s.loaded ∧
      ∀ a, t.mem.read a = s.mem.read a

/-- 60_exceptions.md section 2 (R158, decision D20). -/
def Obligations.HaltedMachinesStayAsTheyAre : Prop :=
  ∀ (s : State) (e : ErrorRecord), s.run = .halted e → step s = .next s

/-- 93_implementation_defined.md section 1: nothing is stuck. -/
def Obligations.EveryStepHasASuccessor : Prop :=
  (∀ s : State, ∃ t, step s = .next t) ∧ ∀ (i : Instr) (s : State), ∃ t, exec i s = .next t

/-- 60_exceptions.md section 1 (R150; the three decided kinds are D3, D5, D17): each instruction raises exactly the
errors of its row, before it changes anything; else it leaves the run state alone. -/
def Obligations.ExecuteRaisesExactlyTheListedErrors : Prop :=
  ∀ (i : Instr) (s : State),
    (∀ e, i.raises s = some e → exec i s = .next { s with run := .halted e }) ∧
    (i.raises s = none → ∃ t, exec i s = .next t ∧ t.run = s.run)

/-- Memory stays canonical and within the address space, the cache well formed with at most one valid line per tag in
a set (10_state.md R34(a)), the Stack within STACK_DEPTH: from every such state, by every step. -/
def Obligations.EveryStepKeepsStatesWellFormed : Prop :=
  ∀ s t : State, s.Wf → step s = .next t → t.Wf

/-- 10_state.md section 7 (R34(d)): from every well-formed state whose lines agree with Memory, every step leaves
lines that agree with Memory. -/
def Obligations.EveryStepKeepsTheCacheCoherent : Prop :=
  ∀ s t : State, s.Wf → s.Coherent → step s = .next t → t.Coherent

/-- 10_state.md section 3 (R26): the flag pair (1, 0) is never produced. -/
def Obligations.NoStepMakesTheUnreachableFlagPair : Prop :=
  ∀ s t : State, s.flags.Reachable → step s = .next t → t.flags.Reachable

/-- 10_state.md sections 5 and 9 (R30, R37): the parameters of an instance never change (log 2); nor does a step count
as a load or undo one (70_reset_and_hazards.md section 1, log 9). -/
def Obligations.NoStepChangesTheParameters : Prop :=
  ∀ s t : State, step s = .next t → t.cfg = s.cfg ∧ t.loaded = s.loaded

/-! Rules about the whole instruction set. -/

/-- 10_state.md section 3 (R25, R26): a step that changes a flag executed a cmp, and no other instruction's Execute
phase changes one. -/
def Obligations.OnlyCmpWritesTheFlags : Prop :=
  (∀ s t : State, step s = .next t → t.flags ≠ s.flags → ∃ i s1, s.Fetches i s1 ∧ i.isCmp = true) ∧
  ∀ (i : Instr) (s t : State), exec i s = .next t → i.isCmp = false → t.flags = s.flags

/-- 10_state.md section 3 (R25, R26): but for the six conditional jumps, what an instruction does does not depend on
the flags; a completed cmp sets them the same whatever they were, any other leaves them as they were. -/
def Obligations.OnlyConditionalJumpsReadTheFlags : Prop :=
  ∀ (i : Instr) (s t : State) (f : Flags), i.isConditionalJump = false → exec i s = .next t →
    (i.isCmp = true → i.raises s = none → exec i { s with flags := f } = .next t) ∧
    (i.isCmp = false ∨ i.raises s ≠ none → exec i { s with flags := f } = .next { t with flags := f })

/-- 10_state.md R28: only push and call add an entry, only pop and ret take one; entries are not tagged, so what push
pushed ret takes as an address, and what call pushed pop takes as a value. -/
def Obligations.OnlyStackInstructionsUseTheStack : Prop :=
  (∀ (i : Instr) (s t : State), exec i s = .next t → t.run = s.run →
    (i.pushes = true → i.raises s = none → ∃ v, t.stk = s.stk ++ [v]) ∧
    (i.pops = true → i.raises s = none → ∃ v, s.stk = t.stk ++ [v]) ∧
    (i.pushes = false → i.pops = false → t.stk = s.stk)) ∧
  (∀ (s t : State) (r : Reg), (Instr.push r).raises s = none → exec (.push r) s = .next t →
    ∃ u, exec .ret t = .next u ∧ u.x .pc = s.x r ∧ u.stk = s.stk) ∧
  ∀ (s t : State) (p : Int) (r : Reg), (Instr.call p).raises s = none → exec (.call p) s = .next t →
    ∃ u, exec (.pop r) t = .next u ∧ u.x r = s.x .pc ∧ u.stk = s.stk

/-- 10_state.md section 6 (R31) and 20_memory.md section 3 (R46): an instruction changes no byte of Memory but the
four at the bus address of the effective address it stores to; one that stores nothing changes none. -/
def Obligations.MemoryChangesOnlyWhereMovStores : Prop :=
  ∀ (i : Instr) (s t : State), exec i s = .next t →
    (i.storesAt s = none → ∀ a, t.mem.read a = s.mem.read a) ∧
    ∀ ea, i.storesAt s = some ea →
      ∀ a, ¬ (busAddr s.cfg ea ≤ a ∧ a < busAddr s.cfg ea + 4) → t.mem.read a = s.mem.read a

/-- 10_state.md section 1 (R22): an instruction writes no register but its destination, or pc where it redirects. -/
def Obligations.OnlyNamedRegistersAreWritten : Prop :=
  ∀ (i : Instr) (s t : State), exec i s = .next t → ∀ r, r ∉ i.writes → t.x r = s.x r

/-! The instructions. -/

/-- 40_lea_stack_call.md R100. -/
def Obligations.LeaWritesTheAddressOnly : Prop :=
  (∀ (b2 b3 : Byte) (rd : Reg), Reg.ofId? b2.toNat = some rd →
    decode (packWord 0x8D 0x0F b2 b3) = .ok (.lea rd b3.toInt)) ∧
  (∀ b2 b3 : Byte, 8 < b2.toNat → ∃ e, decode (packWord 0x8D 0x0F b2 b3) = .error e) ∧
  (∀ (s : State) (rd : Reg) (d : Int), InRange (s.x .rbp + d) →
    ∃ t, exec (.lea rd d) s = .next t ∧ OnlyReg s t rd (s.x .rbp + d) ∧ SameButRegsAndCache s t ∧
      t.cache = s.cache) ∧
  ∀ (s : State) (rd : Reg) (d : Int), ¬ InRange (s.x .rbp + d) →
    exec (.lea rd d) s = .next { s with run := .halted (.rangeError (s.x .rbp + d)) }

/-- 40_lea_stack_call.md R101. -/
def Obligations.PushAddsTheRegisterToTheStack : Prop :=
  (∀ (b1 : Byte) (r : Reg), Reg.ofId? b1.toNat = some r → decode (packWord 0x06 b1 0 0) = .ok (.push r)) ∧
  (∀ b1 b2 b3 : Byte, (8 < b1.toNat ∨ b2 ≠ 0 ∨ b3 ≠ 0) → ∃ e, decode (packWord 0x06 b1 b2 b3) = .error e) ∧
  (∀ (s : State) (r : Reg), s.cfg.stackDepth ≠ some s.stk.length →
    ∃ t, exec (.push r) s = .next t ∧ t.stk = s.stk ++ [s.regs.get r] ∧ SameRegs s t ∧ t.flags = s.flags ∧
      t.run = s.run ∧ t.cfg = s.cfg ∧ t.loaded = s.loaded ∧ (∀ a, t.mem.read a = s.mem.read a) ∧
      t.cache = s.cache) ∧
  ∀ (s : State) (r : Reg), s.cfg.stackDepth = some s.stk.length →
    exec (.push r) s = .next { s with run := .halted .stackOverflow }

/-- 40_lea_stack_call.md R102. -/
def Obligations.PopTakesTheTopOfTheStack : Prop :=
  (∀ (b1 : Byte) (r : Reg), Reg.ofId? b1.toNat = some r → decode (packWord 0x07 b1 0 0) = .ok (.pop r)) ∧
  (∀ b1 b2 b3 : Byte, (8 < b1.toNat ∨ b2 ≠ 0 ∨ b3 ≠ 0) → ∃ e, decode (packWord 0x07 b1 b2 b3) = .error e) ∧
  (∀ (s : State) (r : Reg) (stk : List Word) (v : Word), s.stk = stk ++ [v] →
    ∃ t, exec (.pop r) s = .next t ∧ t.stk = stk ∧ OnlyReg s t r v.toInt ∧ t.flags = s.flags ∧ t.run = s.run ∧
      t.cfg = s.cfg ∧ t.loaded = s.loaded ∧ (∀ a, t.mem.read a = s.mem.read a) ∧ t.cache = s.cache) ∧
  (∀ (s : State) (r : Reg), s.stk = [] → exec (.pop r) s = .next { s with run := .halted .stackUnderflow }) ∧
  ∀ (s s1 : State) (r : Reg), s.Fetches (.pop r) s1 → s.stk = [] →
    step s = .next (s.haltedWith s1.cache .stackUnderflow)

/-- 40_lea_stack_call.md, call (R103); that the pushed address is the next instruction's is the spec's inference from
R24. -/
def Obligations.CallPushesTheReturnAddressAndJumps : Prop :=
  (∀ j : BitVec 24, decode (0xE8#8 ++ j) = .ok (.call j.toInt)) ∧
  (∀ (s : State) (p : Int), TargetFits p → s.cfg.stackDepth ≠ some s.stk.length →
    ∃ t, exec (.call p) s = .next t ∧ t.stk = s.stk ++ [s.regs.get .pc] ∧ OnlyReg s t .pc p ∧ t.flags = s.flags ∧
      t.run = s.run ∧ t.cfg = s.cfg ∧ t.loaded = s.loaded ∧ (∀ a, t.mem.read a = s.mem.read a) ∧
      t.cache = s.cache) ∧
  (∀ (s : State) (p : Int), s.cfg.stackDepth = some s.stk.length →
    exec (.call p) s = .next { s with run := .halted .stackOverflow }) ∧
  ∀ (s s1 : State) (p : Int), s.Fetches (.call p) s1 → TargetFits p → s.cfg.stackDepth ≠ some s.stk.length →
    ∃ t, step s = .next t ∧ t.x .pc = p ∧ t.stk.map BitVec.toInt = s.stk.map BitVec.toInt ++ [s.x .pc + 4]

/-- 40_lea_stack_call.md R104. -/
def Obligations.RetPopsTheProgramCounter : Prop :=
  decode 0xC2000000 = .ok .ret ∧
  (∀ b1 b2 b3 : Byte, (b1 ≠ 0 ∨ b2 ≠ 0 ∨ b3 ≠ 0) → ∃ e, decode (packWord 0xC2 b1 b2 b3) = .error e) ∧
  (∀ (s : State) (stk : List Word) (v : Word), s.stk = stk ++ [v] →
    ∃ t, exec .ret s = .next t ∧ t.stk = stk ∧ OnlyReg s t .pc v.toInt ∧ t.flags = s.flags ∧ t.run = s.run ∧
      t.cfg = s.cfg ∧ t.loaded = s.loaded ∧ (∀ a, t.mem.read a = s.mem.read a) ∧ t.cache = s.cache) ∧
  (∀ s : State, s.stk = [] → exec .ret s = .next { s with run := .halted .stackUnderflow }) ∧
  ∀ s s1 : State, s.Fetches .ret s1 → s.stk = [] → step s = .next (s.haltedWith s1.cache .stackUnderflow)

/-- 41_mov.md, mov reg,reg (R110); the operand order of the word is decision D10. -/
def Obligations.MovRegRegCopiesTheRegister : Prop :=
  (∀ (b2 b3 : Byte) (rd rs : Reg), Reg.ofId? b2.toNat = some rd → Reg.ofId? b3.toNat = some rs →
    decode (packWord 0x89 0x00 b2 b3) = .ok (.movRegReg rd rs)) ∧
  (∀ b2 b3 : Byte, (8 < b2.toNat ∨ 8 < b3.toNat) → ∃ e, decode (packWord 0x89 0x00 b2 b3) = .error e) ∧
  ∀ (s : State) (rd rs : Reg),
    ∃ t, exec (.movRegReg rd rs) s = .next t ∧ OnlyReg s t rd (s.x rs) ∧ SameButRegsAndCache s t ∧ t.cache = s.cache

/-- 41_mov.md R111. -/
def Obligations.MovRegImmLoadsTheImmediate : Prop :=
  (∀ (b1 : Byte) (z : BitVec 16) (rd : Reg), Reg.ofId? b1.toNat = some rd →
    decode (0xC6#8 ++ b1 ++ z) = .ok (.movRegImm rd z.toInt)) ∧
  (∀ (b1 : Byte) (z : BitVec 16), 8 < b1.toNat → ∃ e, decode (0xC6#8 ++ b1 ++ z) = .error e) ∧
  ∀ (s : State) (rd : Reg) (v : Int), ImmFits v →
    ∃ t, exec (.movRegImm rd v) s = .next t ∧ OnlyReg s t rd v ∧ SameButRegsAndCache s t ∧ t.cache = s.cache

/-- 41_mov.md, mov reg,mem (R112); reading the dword as signed is decision D13. The value is what CacheRead answers,
which in a coherent state is Memory's dword. -/
def Obligations.MovRegMemLoadsTheFrameDword : Prop :=
  (∀ (b2 b3 : Byte) (rd : Reg), Reg.ofId? b2.toNat = some rd →
    decode (packWord 0x8B 0x0F b2 b3) = .ok (.movRegMem rd b3.toInt)) ∧
  (∀ b2 b3 : Byte, 8 < b2.toNat → ∃ e, decode (packWord 0x8B 0x0F b2 b3) = .error e) ∧
  (∀ (s : State) (rd : Reg) (d : Int), Aligned (s.x .rbp + d) →
    ∃ t, exec (.movRegMem rd d) s = .next t ∧
      OnlyReg s t rd (s.cacheRead (busAddr s.cfg (s.x .rbp + d))).1.toInt ∧ SameButRegsAndCache s t ∧
      t.cache = (s.cacheRead (busAddr s.cfg (s.x .rbp + d))).2.cache ∧
      (s.Wf → s.Coherent → t.x rd = (s.mem.dword (busAddr s.cfg (s.x .rbp + d))).toInt)) ∧
  ∀ (s : State) (rd : Reg) (d : Int), ¬ Aligned (s.x .rbp + d) →
    exec (.movRegMem rd d) s = .next { s with run := .halted (.misalignedAccess (s.x .rbp + d)) }

/-- 41_mov.md, mov reg,arr (R113); the word's layout is decision D7. -/
def Obligations.MovRegArrLoadsTheElement : Prop :=
  (∀ (b2 : Byte) (bs ix : BitVec 4) (rd rb ri : Reg), Reg.ofId? b2.toNat = some rd →
    Reg.ofId? bs.toNat = some rb → Reg.ofId? ix.toNat = some ri →
    decode (packWord 0x8B 0x0E b2 (bs ++ ix)) = .ok (.movRegArr rd rb ri)) ∧
  (∀ (b2 : Byte) (bs ix : BitVec 4), (8 < b2.toNat ∨ 8 < bs.toNat ∨ 8 < ix.toNat) →
    ∃ e, decode (packWord 0x8B 0x0E b2 (bs ++ ix)) = .error e) ∧
  (∀ (s : State) (rd rb ri : Reg), Aligned (s.x rb + 4 * s.x ri) →
    ∃ t, exec (.movRegArr rd rb ri) s = .next t ∧
      OnlyReg s t rd (s.cacheRead (busAddr s.cfg (s.x rb + 4 * s.x ri))).1.toInt ∧ SameButRegsAndCache s t ∧
      t.cache = (s.cacheRead (busAddr s.cfg (s.x rb + 4 * s.x ri))).2.cache ∧
      (s.Wf → s.Coherent → t.x rd = (s.mem.dword (busAddr s.cfg (s.x rb + 4 * s.x ri))).toInt)) ∧
  ∀ (s : State) (rd rb ri : Reg), ¬ Aligned (s.x rb) →
    exec (.movRegArr rd rb ri) s = .next { s with run := .halted (.misalignedAccess (s.x rb + 4 * s.x ri)) }

/-- 41_mov.md R114. -/
def Obligations.MovMemImmStoresTheImmediate : Prop :=
  (∀ (b1 : Byte) (z : BitVec 16), decode (0xC7#8 ++ b1 ++ z) = .ok (.movMemImm b1.toInt z.toInt)) ∧
  (∀ (s : State) (d v : Int), s.mem.wf → ImmFits v → Aligned (s.x .rbp + d) →
    ∃ t w, exec (.movMemImm d v) s = .next t ∧ w.toInt = v ∧
      StoredDword s t (busAddr s.cfg (s.x .rbp + d)) w ∧ SameRegs s t ∧ t.flags = s.flags ∧ t.stk = s.stk ∧
      t.run = s.run ∧ t.cfg = s.cfg ∧ t.loaded = s.loaded ∧
      t.cache = (s.cacheWrite (busAddr s.cfg (s.x .rbp + d)) w true).cache) ∧
  ∀ (s : State) (d v : Int), ¬ Aligned (s.x .rbp + d) →
    exec (.movMemImm d v) s = .next { s with run := .halted (.misalignedAccess (s.x .rbp + d)) }

/-- 41_mov.md R115; a store followed by a load of the same address returns the same integer. -/
def Obligations.MovMemRegStoresTheRegister : Prop :=
  (∀ (b2 b3 : Byte) (rs : Reg), Reg.ofId? b3.toNat = some rs →
    decode (packWord 0x89 0xF0 b2 b3) = .ok (.movMemReg b2.toInt rs)) ∧
  (∀ b2 b3 : Byte, 8 < b3.toNat → ∃ e, decode (packWord 0x89 0xF0 b2 b3) = .error e) ∧
  (∀ (s : State) (d : Int) (rs : Reg), s.mem.wf → Aligned (s.x .rbp + d) →
    ∃ t w, exec (.movMemReg d rs) s = .next t ∧ w.toInt = s.x rs ∧
      StoredDword s t (busAddr s.cfg (s.x .rbp + d)) w ∧ SameRegs s t ∧ t.flags = s.flags ∧ t.stk = s.stk ∧
      t.run = s.run ∧ t.cfg = s.cfg ∧ t.loaded = s.loaded ∧
      t.cache = (s.cacheWrite (busAddr s.cfg (s.x .rbp + d)) w true).cache) ∧
  (∀ (s : State) (d : Int) (rs rd : Reg), s.Wf → Aligned (s.x .rbp + d) →
    ∃ t u, exec (.movMemReg d rs) s = .next t ∧ exec (.movRegMem rd d) t = .next u ∧ u.x rd = s.x rs) ∧
  ∀ (s : State) (d : Int) (rs : Reg), ¬ Aligned (s.x .rbp + d) →
    exec (.movMemReg d rs) s = .next { s with run := .halted (.misalignedAccess (s.x .rbp + d)) }

/-- 42_add_sub.md R121, R123. -/
def Obligations.AddAndSubOfAnImmediateAreExact : Prop :=
  (∀ (b1 : Byte) (z : BitVec 16) (rd : Reg), Reg.ofId? b1.toNat = some rd →
    decode (0x05#8 ++ b1 ++ z) = .ok (.addRegImm rd z.toInt) ∧
    decode (0x2D#8 ++ b1 ++ z) = .ok (.subRegImm rd z.toInt)) ∧
  (∀ (b1 : Byte) (z : BitVec 16), 8 < b1.toNat →
    (∃ e, decode (0x05#8 ++ b1 ++ z) = .error e) ∧ ∃ e, decode (0x2D#8 ++ b1 ++ z) = .error e) ∧
  (∀ (s : State) (rd : Reg) (v : Int), InRange (s.x rd + v) →
    ∃ t, exec (.addRegImm rd v) s = .next t ∧ OnlyReg s t rd (s.x rd + v) ∧ SameButRegsAndCache s t ∧
      t.cache = s.cache) ∧
  (∀ (s : State) (rd : Reg) (v : Int), ¬ InRange (s.x rd + v) →
    exec (.addRegImm rd v) s = .next { s with run := .halted (.rangeError (s.x rd + v)) }) ∧
  (∀ (s : State) (rd : Reg) (v : Int), InRange (s.x rd - v) →
    ∃ t, exec (.subRegImm rd v) s = .next t ∧ OnlyReg s t rd (s.x rd - v) ∧ SameButRegsAndCache s t ∧
      t.cache = s.cache) ∧
  ∀ (s : State) (rd : Reg) (v : Int), ¬ InRange (s.x rd - v) →
    exec (.subRegImm rd v) s = .next { s with run := .halted (.rangeError (s.x rd - v)) }

/-- 42_add_sub.md R122, R124. -/
def Obligations.AddAndSubOfRegistersAreExact : Prop :=
  (∀ (b2 b3 : Byte) (rd rs : Reg), Reg.ofId? b2.toNat = some rd → Reg.ofId? b3.toNat = some rs →
    decode (packWord 0x01 0x00 b2 b3) = .ok (.addRegReg rd rs) ∧
    decode (packWord 0x29 0x00 b2 b3) = .ok (.subRegReg rd rs)) ∧
  (∀ b2 b3 : Byte, (8 < b2.toNat ∨ 8 < b3.toNat) →
    (∃ e, decode (packWord 0x01 0x00 b2 b3) = .error e) ∧ ∃ e, decode (packWord 0x29 0x00 b2 b3) = .error e) ∧
  (∀ (s : State) (rd rs : Reg), InRange (s.x rd + s.x rs) →
    ∃ t, exec (.addRegReg rd rs) s = .next t ∧ OnlyReg s t rd (s.x rd + s.x rs) ∧ SameButRegsAndCache s t ∧
      t.cache = s.cache) ∧
  (∀ (s : State) (rd rs : Reg), ¬ InRange (s.x rd + s.x rs) →
    exec (.addRegReg rd rs) s = .next { s with run := .halted (.rangeError (s.x rd + s.x rs)) }) ∧
  (∀ (s : State) (rd rs : Reg), InRange (s.x rd - s.x rs) →
    ∃ t, exec (.subRegReg rd rs) s = .next t ∧ OnlyReg s t rd (s.x rd - s.x rs) ∧ SameButRegsAndCache s t ∧
      t.cache = s.cache) ∧
  ∀ (s : State) (rd rs : Reg), ¬ InRange (s.x rd - s.x rs) →
    exec (.subRegReg rd rs) s = .next { s with run := .halted (.rangeError (s.x rd - s.x rs)) }

/-- 43_cmp.md R133. -/
def Obligations.CmpRegImmComparesExactly : Prop :=
  (∀ (b1 : Byte) (z : BitVec 16) (ra : Reg), Reg.ofId? b1.toNat = some ra →
    decode (0x3D#8 ++ b1 ++ z) = .ok (.cmpRegImm ra z.toInt)) ∧
  (∀ (b1 : Byte) (z : BitVec 16), 8 < b1.toNat → ∃ e, decode (0x3D#8 ++ b1 ++ z) = .error e) ∧
  ∀ (s : State) (ra : Reg) (v : Int),
    ∃ t, exec (.cmpRegImm ra v) s = .next t ∧ ComparedFlags t (s.x ra) v ∧ SameRegs s t ∧ SameStackRunMemory s t ∧
      t.cache = s.cache

/-- 43_cmp.md, cmp reg,reg (R131); the operand order of the word is decision D10. -/
def Obligations.CmpRegRegComparesExactly : Prop :=
  (∀ (b2 b3 : Byte) (ra rb : Reg), Reg.ofId? b2.toNat = some ra → Reg.ofId? b3.toNat = some rb →
    decode (packWord 0x39 0x00 b2 b3) = .ok (.cmpRegReg ra rb)) ∧
  (∀ b2 b3 : Byte, (8 < b2.toNat ∨ 8 < b3.toNat) → ∃ e, decode (packWord 0x39 0x00 b2 b3) = .error e) ∧
  ∀ (s : State) (ra rb : Reg),
    ∃ t, exec (.cmpRegReg ra rb) s = .next t ∧ ComparedFlags t (s.x ra) (s.x rb) ∧ SameRegs s t ∧
      SameStackRunMemory s t ∧ t.cache = s.cache

/-- 43_cmp.md R132. -/
def Obligations.CmpRegMemComparesWithTheFrameDword : Prop :=
  (∀ (b2 b3 : Byte) (ra : Reg), Reg.ofId? b2.toNat = some ra →
    decode (packWord 0x3B 0x0F b2 b3) = .ok (.cmpRegMem ra b3.toInt)) ∧
  (∀ b2 b3 : Byte, 8 < b2.toNat → ∃ e, decode (packWord 0x3B 0x0F b2 b3) = .error e) ∧
  (∀ (s : State) (ra : Reg) (d : Int), Aligned (s.x .rbp + d) →
    ∃ t, exec (.cmpRegMem ra d) s = .next t ∧
      ComparedFlags t (s.x ra) (s.cacheRead (busAddr s.cfg (s.x .rbp + d))).1.toInt ∧ SameRegs s t ∧
      SameStackRunMemory s t ∧ t.cache = (s.cacheRead (busAddr s.cfg (s.x .rbp + d))).2.cache ∧
      (s.Wf → s.Coherent → ComparedFlags t (s.x ra) (s.mem.dword (busAddr s.cfg (s.x .rbp + d))).toInt)) ∧
  ∀ (s : State) (ra : Reg) (d : Int), ¬ Aligned (s.x .rbp + d) →
    exec (.cmpRegMem ra d) s = .next { s with run := .halted (.misalignedAccess (s.x .rbp + d)) }

/-- 43_cmp.md, cmp reg,arr (R134); the word's layout is decision D7. -/
def Obligations.CmpRegArrComparesWithTheElement : Prop :=
  (∀ (b2 : Byte) (bs ix : BitVec 4) (ra rb ri : Reg), Reg.ofId? b2.toNat = some ra →
    Reg.ofId? bs.toNat = some rb → Reg.ofId? ix.toNat = some ri →
    decode (packWord 0x3B 0x0E b2 (bs ++ ix)) = .ok (.cmpRegArr ra rb ri)) ∧
  (∀ (b2 : Byte) (bs ix : BitVec 4), (8 < b2.toNat ∨ 8 < bs.toNat ∨ 8 < ix.toNat) →
    ∃ e, decode (packWord 0x3B 0x0E b2 (bs ++ ix)) = .error e) ∧
  (∀ (s : State) (ra rb ri : Reg), Aligned (s.x rb + 4 * s.x ri) →
    ∃ t, exec (.cmpRegArr ra rb ri) s = .next t ∧
      ComparedFlags t (s.x ra) (s.cacheRead (busAddr s.cfg (s.x rb + 4 * s.x ri))).1.toInt ∧ SameRegs s t ∧
      SameStackRunMemory s t ∧ t.cache = (s.cacheRead (busAddr s.cfg (s.x rb + 4 * s.x ri))).2.cache ∧
      (s.Wf → s.Coherent → ComparedFlags t (s.x ra) (s.mem.dword (busAddr s.cfg (s.x rb + 4 * s.x ri))).toInt)) ∧
  ∀ (s : State) (ra rb ri : Reg), ¬ Aligned (s.x rb) →
    exec (.cmpRegArr ra rb ri) s = .next { s with run := .halted (.misalignedAccess (s.x rb + 4 * s.x ri)) }

/-- 44_jumps.md R140. -/
def Obligations.JmpSetsTheProgramCounter : Prop :=
  (∀ j : BitVec 24, decode (0xE9#8 ++ j) = .ok (.jmp j.toInt)) ∧
  ∀ (s : State) (p : Int), TargetFits p →
    ∃ t, exec (.jmp p) s = .next t ∧ OnlyReg s t .pc p ∧ SameButRegsAndCache s t ∧ t.cache = s.cache

/-- 44_jumps.md R142 to R147. -/
def Obligations.ConditionalJumpsTestTheFlags : Prop :=
  (∀ j : BitVec 24, decode (0x84#8 ++ j) = .ok (.je j.toInt) ∧ decode (0x85#8 ++ j) = .ok (.jne j.toInt) ∧
    decode (0x8C#8 ++ j) = .ok (.jl j.toInt) ∧ decode (0x8E#8 ++ j) = .ok (.jle j.toInt) ∧
    decode (0x8F#8 ++ j) = .ok (.jg j.toInt) ∧
    (j.extractLsb' 16 8 ≠ 0x0F → decode (0x8D#8 ++ j) = .ok (.jge j.toInt))) ∧
  JumpsIf .je (fun f => f.zero = true) ∧ JumpsIf .jne (fun f => f.zero = false) ∧
  JumpsIf .jl (fun f => f.zero = false ∧ f.sign = true) ∧ JumpsIf .jge (fun f => f.zero = true ∨ f.sign = false) ∧
  JumpsIf .jle (fun f => f.zero = true ∨ f.sign = true) ∧ JumpsIf .jg (fun f => f.zero = false ∧ f.sign = false)

/-- 44_jumps.md section 1 (R141, last column) and 95_test_vectors.md S5: on the flags a cmp of a with b leaves, each
conditional jump is taken exactly when its relation holds of a and b. -/
def Obligations.JumpsAfterCmpFollowTheRelation : Prop :=
  ∀ (s : State) (a b p : Int), TargetFits p → ComparedFlags s a b →
    (∃ t, exec (.je p) s = .next t ∧ t.x .pc = if a = b then p else s.x .pc) ∧
    (∃ t, exec (.jne p) s = .next t ∧ t.x .pc = if a ≠ b then p else s.x .pc) ∧
    (∃ t, exec (.jl p) s = .next t ∧ t.x .pc = if a < b then p else s.x .pc) ∧
    (∃ t, exec (.jge p) s = .next t ∧ t.x .pc = if a ≥ b then p else s.x .pc) ∧
    (∃ t, exec (.jle p) s = .next t ∧ t.x .pc = if a ≤ b then p else s.x .pc) ∧
    ∃ t, exec (.jg p) s = .next t ∧ t.x .pc = if a > b then p else s.x .pc

/-- 44_jumps.md section 1 (R148) and 95_test_vectors.md S6: after a step of jmp, of call with room on the Stack or of a
conditional jump that is taken, the next fetch is at the target itself; after ret it is at the popped integer; after an
untaken conditional jump at a + 4. -/
def Obligations.NextFetchAfterAJumpIsAtTheTarget : Prop :=
  (∀ (s s1 : State) (i : Instr) (p : Int), s.Fetches i s1 → i.target = some p → TargetFits p →
    i.taken s.flags = true → i.raises s = none →
    ∃ t, step s = .next t ∧ t.run = .ready ∧ t.x .pc = p ∧ t.fetchedWord = (t.cacheRead (busAddr s.cfg p)).1) ∧
  (∀ (s s1 : State) (stk : List Word) (v : Word), s.Fetches .ret s1 → s.stk = stk ++ [v] →
    ∃ t, step s = .next t ∧ t.run = .ready ∧ t.x .pc = v.toInt ∧
      t.fetchedWord = (t.cacheRead (busAddr s.cfg v.toInt)).1) ∧
  ∀ (s s1 : State) (i : Instr), s.Fetches i s1 → i.isConditionalJump = true → i.taken s.flags = false →
    ∃ t, step s = .next t ∧ t.run = .ready ∧ t.x .pc = s.x .pc + 4 ∧
      t.fetchedWord = (t.cacheRead (busAddr s.cfg (s.x .pc + 4))).1

/-! Memory, cache, host. -/

/-- 20_memory.md section 3 (R43, decision D4, log 14): a bus address is the effective address mod 2^bits, so two effective
addresses are one bus address exactly when they are congruent, an aligned one gives an address the cache accepts, and
what mov mem,reg stores is loaded by mov reg,arr from any effective address congruent to the one stored to. -/
def Obligations.EffectiveAddressesWrapToBusAddresses : Prop :=
  (∀ (cfg : Config) (ea : Int), (busAddr cfg ea : Int) = ea % 2 ^ cfg.bits) ∧
  (∀ (cfg : Config) (ea ea' : Int), busAddr cfg ea = busAddr cfg ea' ↔ (ea - ea') % 2 ^ cfg.bits = 0) ∧
  (∀ (cfg : Config) (ea : Int), cfg.WellFormed → Aligned ea → CacheAddress cfg (busAddr cfg ea)) ∧
  ∀ (s t : State) (d : Int) (rs rd rb ri : Reg), s.Wf → Aligned (s.x .rbp + d) → exec (.movMemReg d rs) s = .next t →
    (s.x rb + 4 * s.x ri - (s.x .rbp + d)) % 2 ^ s.cfg.bits = 0 →
    ∃ u, exec (.movRegArr rd rb ri) t = .next u ∧ u.x rd = s.x rs

/-- 20_memory.md R47: tag, index, offset and base are bit slices of the bus address. -/
def Obligations.CacheAddressPartsAreBitSlices : Prop :=
  ∀ (cfg : Config) (ba : BitVec cfg.bits), cfg.WellFormed →
    cacheOffset cfg ba.toNat = (ba.extractLsb' 0 cfg.k).toNat ∧
    cacheIndex cfg ba.toNat = (ba.extractLsb' cfg.k cfg.setBits).toNat ∧
    cacheTag cfg ba.toNat = (ba.extractLsb' (cfg.k + cfg.setBits) cfg.tagBits).toNat ∧
    cacheBase cfg ba.toNat = ba.toNat - cacheOffset cfg ba.toNat

/-- 20_memory.md R48: Lookup of a bus address answers the one way whose valid line has the tag, or -1. -/
def Obligations.LookupAnswersTheMatchingWay : Prop :=
  ∀ (s : State) (ba : Nat), s.Wf → ba < 2 ^ s.cfg.bits →
    (∀ w : Nat, s.isCacheHit ba = w ↔
      ∃ ln, (s.cache.setAt (cacheIndex s.cfg ba)).lines[w]? = some (some ln) ∧ ln.tag = cacheTag s.cfg ba) ∧
    (s.isCacheHit ba = -1 ↔
      ∀ (w : Nat) (ln : Line), (s.cache.setAt (cacheIndex s.cfg ba)).lines[w]? = some (some ln) →
        ln.tag ≠ cacheTag s.cfg ba)

/-- 20_memory.md section 4 (R49, R50; the victim rule is decision D14): a hit changes the recency order only; a miss
replaces the least recently used line of the set, and that one only, by the block read from Memory; the way becomes
the most recent and the others keep their order; other sets are untouched. -/
def Obligations.EnsureReplacesTheLeastRecentLineOnly : Prop :=
  ∀ (cfg : Config) (m : Memory) (c : Cache) (ba : Nat), cfg.WellFormed → Cache.Wf cfg c → ba < 2 ^ cfg.bits →
    let i := cacheIndex cfg ba
    let w := (c.ensure cfg m ba).1
    let c' := (c.ensure cfg m ba).2
    (∀ j, j ≠ i → c'.setAt j = c.setAt j) ∧ c'.lookup cfg ba = some w ∧
    (c'.setAt i).order = w :: (c.setAt i).order.erase w ∧
    (∀ x, c.lookup cfg ba = some x → w = x ∧ (c'.setAt i).lines = (c.setAt i).lines) ∧
    (c.lookup cfg ba = none → (c.setAt i).order.getLast? = some w ∧
      (c'.setAt i).lines[w]? = some (some ⟨cacheTag cfg ba, m.block (cacheBase cfg ba) (2 ^ cfg.k)⟩) ∧
      ∀ x, x ≠ w → (c'.setAt i).lines[x]? = (c.setAt i).lines[x]?)

/-- 20_memory.md section 4 (R53, R56) and 95_test_vectors.md S2, S3: after a write-through Memory holds the dword and a
read answers it, whatever debug writes came before; where the cache has room for a dword at all, and so in the geometry
of S2 (nway = 1, size = 2, k = 1), each of its bytes is then a hit. -/
def Obligations.WriteThroughThenReadAnswersTheDword : Prop :=
  ∀ (s : State) (ba : Nat) (v : Word), s.Wf → CacheAddress s.cfg ba →
    ∃ t, s.hostWrite ba v true = .next t ∧ t.mem.dword ba = v ∧ (t.cacheRead ba).1 = v ∧
      (4 ≤ s.cfg.nway * s.cfg.size * 2 ^ s.cfg.k → t.DwordResident ba)

/-- 20_memory.md section 4 (R58): without debug writes the cache is invisible: a read answers Memory's dword and changes
no byte of it, a write changes exactly the four bytes of Memory. -/
def Obligations.TheCacheIsTransparent : Prop :=
  ∀ (s : State) (ba : Nat), s.Wf → s.Coherent → CacheAddress s.cfg ba →
    (s.cacheRead ba).1 = s.mem.dword ba ∧ (s.cacheRead ba).2.mem = s.mem ∧
    ∀ v : Word, StoredDword s (s.cacheWrite ba v true) ba v

/-- 20_memory.md section 4 (R54), for every geometry: a debug write changes no byte of Memory; its dword is resident
where the cache has room for one, and is read back in every later state for as long as it stays so, whatever is accessed
in between but a write to it; a dword that is not resident is read from Memory. -/
def Obligations.DebugWritesStayInTheCache : Prop :=
  (∀ (s : State) (ba : Nat) (v : Word), s.Wf → CacheAddress s.cfg ba →
    ∃ t, s.hostWrite ba v false = .next t ∧ SameButCache s t ∧
      (4 ≤ s.cfg.nway * s.cfg.size * 2 ^ s.cfg.k → t.DwordResident ba) ∧
      ∀ u, State.KeepsResident ba t u → (u.cacheRead ba).1 = v) ∧
  ∀ (s : State) (ba : Nat), s.Wf → CacheAddress s.cfg ba → s.DwordAbsent ba →
    (s.cacheRead ba).1 = s.mem.dword ba

/-- 10_state.md section 7 (R35) and 20_memory.md section 4 (R58): two coherent machines that differ only in their cache
and its geometry (k, size, nway) stay the same to the program, step by step. -/
def Obligations.GeometryIsInvisibleToPrograms : Prop :=
  ∀ s u s' : State, s.Wf → s.Coherent → u.Wf → u.Coherent → SameToProgram s u → step s = .next s' →
    ∃ u', step u = .next u' ∧ SameToProgram s' u'

/-- 20_memory.md section 7 (R63): a store over the next instruction, by either storing instruction, is what the next
step fetches. -/
def Obligations.AStoreOverTheNextInstructionIsFetched : Prop :=
  (∀ (s s1 : State) (d : Int) (rs : Reg), s.Wf → s.Fetches (.movMemReg d rs) s1 → Aligned (s.x .rbp + d) →
    busAddr s.cfg (s.x .rbp + d) = busAddr s.cfg (s.x .pc + 4) →
    ∃ t, step s = .next t ∧ t.run = .ready ∧ t.fetchedWord = s1.regs.get rs) ∧
  ∀ (s s1 : State) (d v : Int), s.Wf → s.Fetches (.movMemImm d v) s1 → Aligned (s.x .rbp + d) →
    busAddr s.cfg (s.x .rbp + d) = busAddr s.cfg (s.x .pc + 4) →
    ∃ t, step s = .next t ∧ t.run = .ready ∧ t.fetchedWord.toInt = v

/-- 70_reset_and_hazards.md section 1 (R171, R172, decision D21): right after reset 1024 image bytes go to Memory at 0,
and nothing else changes but the record of the load (log 9); another length is a ConfigError; a second load, a load
after a step and a load in any state but the one reset leaves are refused, under that reason whatever the image's
length (the model's choice, log 16). -/
def Obligations.LoadProgramPlacesTheImage : Prop :=
  (∀ (cfg : Config) (img : List Byte), img.length = 1024 →
    ∃ t, (State.resetWith cfg).loadProgram img = .next t ∧
      (∀ n, t.mem.read n = (img[n]?).getD 0) ∧ t.mem.wf ∧
      t = { State.resetWith cfg with mem := t.mem, loaded := true } ∧
      ∀ img', t.loadProgram img' = .refused .loadNotAfterReset) ∧
  (∀ (cfg : Config) (img : List Byte), img.length ≠ 1024 →
    (State.resetWith cfg).loadProgram img = .refused .imageSize) ∧
  (∀ (cfg : Config) (t : State) (img : List Byte), cfg.WellFormed → step (State.resetWith cfg) = .next t →
    t.loadProgram img = .refused .loadNotAfterReset) ∧
  ∀ (s : State) (img : List Byte), s ≠ State.resetWith s.cfg → s.loadProgram img = .refused .loadNotAfterReset

/-- 70_reset_and_hazards.md section 1 (R171): a machine stepped with no program halts at once with
DecodeError(0x00000000) at pc = 0 (a reset value, decision D2). -/
def Obligations.AnUnloadedMachineHaltsAtOnce : Prop :=
  ∀ cfg : Config, cfg.WellFormed →
    ∃ t, step (State.resetWith cfg) = .next t ∧ t.run = .halted (.decodeError 0) ∧ t.x .pc = 0

/-- The model's own placement of one word (log 10, log 11): the next fetch reads it, and only Memory and the cache have
changed. -/
def Obligations.APlacedWordIsFetchedNext : Prop :=
  ∀ (s : State) (w : Nat), s.Wf → Aligned (s.x .pc) →
    (s.withFetchWord 32 w).fetchedWord = BitVec.ofNat 32 w ∧ (s.withFetchWord 32 w).regs = s.regs ∧
    (s.withFetchWord 32 w).flags = s.flags ∧ (s.withFetchWord 32 w).stk = s.stk ∧
    (s.withFetchWord 32 w).run = s.run ∧ (s.withFetchWord 32 w).cfg = s.cfg ∧
    (s.withFetchWord 32 w).loaded = s.loaded

end Statements
end

