-- ==== Sys2Proof/Laws/Memory.lean ====
section
/-! SUPPORT. Backing Memory: every operation keeps the canonical form, a read after a write, and byte order. -/

namespace Sys2Proof.Machine

theorem packWord_byte0 (a b c d : Byte) : byte0 (packWord a b c d) = a := by
  apply BitVec.eq_of_getLsbD_eq
  intro i hi
  simp only [byte0, packWord, BitVec.getLsbD_extractLsb', BitVec.getLsbD_append]
  have h1 : ¬ 24 + i < 8 := by omega
  have h2 : ¬ 24 + i - 8 < 8 := by omega
  have h3 : ¬ 24 + i - 8 - 8 < 8 := by omega
  simp [hi, h1, h2, h3, show 24 + i - 8 - 8 - 8 = i by omega]

theorem packWord_byte1 (a b c d : Byte) : byte1 (packWord a b c d) = b := by
  apply BitVec.eq_of_getLsbD_eq
  intro i hi
  simp only [byte1, packWord, BitVec.getLsbD_extractLsb', BitVec.getLsbD_append]
  have h1 : ¬ 16 + i < 8 := by omega
  have h2 : ¬ 16 + i - 8 < 8 := by omega
  simp [hi, h1, h2, show 16 + i - 8 - 8 = i by omega]

theorem packWord_byte2 (a b c d : Byte) : byte2 (packWord a b c d) = c := by
  apply BitVec.eq_of_getLsbD_eq
  intro i hi
  simp only [byte2, packWord, BitVec.getLsbD_extractLsb', BitVec.getLsbD_append]
  have h1 : ¬ 8 + i < 8 := by omega
  simp [hi, h1, show 8 + i - 8 = i by omega]

theorem packWord_byte3 (a b c d : Byte) : byte3 (packWord a b c d) = d := by
  apply BitVec.eq_of_getLsbD_eq
  intro i hi
  simp only [byte3, packWord, BitVec.getLsbD_extractLsb', BitVec.getLsbD_append]
  simp [hi]

/-- A word is the four bytes it is stored as (20_memory.md R40). -/
theorem packWord_bytes (w : Word) : packWord (byte0 w) (byte1 w) (byte2 w) (byte3 w) = w := by
  apply BitVec.eq_of_getLsbD_eq
  intro i hi
  simp only [packWord, byte0, byte1, byte2, byte3, BitVec.getLsbD_append, BitVec.getLsbD_extractLsb']
  split
  · next h => simp [h]
  · next h =>
    split
    · next h' => simp [h', show 8 + (i - 8) = i by omega]
    · next h' =>
      split
      · next h2 => simp [h2, show 16 + (i - 8 - 8) = i by omega]
      · next h2 => simp [show i - 8 - 8 - 8 < 8 by omega, show 24 + (i - 8 - 8 - 8) = i by omega]

/-- A word with these bytes is the packed word. -/
theorem eq_packWord {w : Word} {a b c d : Byte} (h0 : byte0 w = a) (h1 : byte1 w = b) (h2 : byte2 w = c)
    (h3 : byte3 w = d) : w = packWord a b c d := by
  rw [← h0, ← h1, ← h2, ← h3, packWord_bytes]

theorem Memory.read_cons_self (m : Memory) (a : Nat) (v : Byte) (h : ∀ c ∈ m, a < c.1) :
    (Memory.cons m a v).read a = v := by
  unfold Memory.cons
  split
  · next hv =>
    rw [hv]
    clear hv
    induction m with
    | nil => rfl
    | cons c m ih =>
      have hc := h c (List.mem_cons_self)
      simp only [Memory.read, if_neg (show ¬ c.1 = a by omega)]
      exact ih fun d hd => h d (List.mem_cons_of_mem _ hd)
  · simp [Memory.read]

theorem Memory.read_cons_of_ne (m : Memory) {a b : Nat} (v : Byte) (h : b ≠ a) :
    (Memory.cons m a v).read b = Memory.read m b := by
  unfold Memory.cons
  split
  · rfl
  · simp [Memory.read, h.symm]

/-- A write leaves every other byte alone, in any memory. -/
theorem Memory.read_write_of_ne (m : Memory) {a b : Nat} (v : Byte) (h : b ≠ a) :
    (m.write a v).read b = m.read b := by
  induction m with
  | nil => exact Memory.read_cons_of_ne [] v h
  | cons c m ih =>
    simp only [Memory.write]
    split
    · exact Memory.read_cons_of_ne _ v h
    · split
      · next h2 =>
        rw [Memory.read_cons_of_ne _ v h]
        simp [Memory.read, show ¬ c.1 = b by omega]
      · simp only [Memory.read]
        split
        · rfl
        · exact ih

theorem Memory.wf_tail {c : Host.Cell} {m : Memory} (h : Memory.wf (c :: m)) : Memory.wf m :=
  ⟨h.1.of_cons, fun d hd => h.2 d (List.mem_cons_of_mem _ hd)⟩

theorem Memory.wf_head {c : Host.Cell} {m : Memory} (h : Memory.wf (c :: m)) : ∀ d ∈ m, c.1 < d.1 :=
  fun _ hd => List.rel_of_pairwise_cons h.1 hd

/-- A canonical memory reads back what was written. -/
theorem Memory.read_write_self (m : Memory) (a : Nat) (v : Byte) (h : m.wf) : (m.write a v).read a = v := by
  induction m with
  | nil => exact Memory.read_cons_self [] a v (by simp)
  | cons c m ih =>
    have hm := Memory.wf_head h
    simp only [Memory.write]
    split
    · next h1 =>
      refine Memory.read_cons_self _ a v fun d hd => ?_
      rcases List.mem_cons.1 hd with rfl | hd
      · exact h1
      · have := hm d hd
        omega
    · split
      · next h2 => exact Memory.read_cons_self _ a v fun d hd => h2 ▸ hm d hd
      · next h2 =>
        simp only [Memory.read, if_neg (Ne.symm h2)]
        exact ih (Memory.wf_tail h)

theorem Memory.read_write (m : Memory) (a b : Nat) (v : Byte) (h : m.wf) :
    (m.write a v).read b = if b = a then v else m.read b := by
  split
  · next e => rw [e, Memory.read_write_self m a v h]
  · next e => exact Memory.read_write_of_ne m v e

theorem Memory.cons_wf {m : Memory} {a : Nat} {v : Byte} (hm : m.wf) (h : ∀ c ∈ m, a < c.1) :
    (Memory.cons m a v).wf := by
  unfold Memory.cons
  split
  · exact hm
  · next hv => exact ⟨List.pairwise_cons.2 ⟨h, hm.1⟩, fun c hc => by
      rcases List.mem_cons.1 hc with rfl | hc
      · exact hv
      · exact hm.2 c hc⟩

/-- The addresses listed after a write: the old ones, and the written one. -/
theorem Memory.mem_write {m : Memory} {a : Nat} {v : Byte} {c : Host.Cell} (h : c ∈ m.write a v) :
    c ∈ m ∨ c.1 = a := by
  have hcons : ∀ {m' : Memory}, c ∈ Memory.cons m' a v → c ∈ m' ∨ c.1 = a := by
    intro m' hc
    unfold Memory.cons at hc
    split at hc
    · exact .inl hc
    · rcases List.mem_cons.1 hc with rfl | hc
      · exact .inr rfl
      · exact .inl hc
  induction m with
  | nil => exact hcons h
  | cons d m ih =>
    simp only [Memory.write] at h
    split at h
    · exact hcons h
    · split at h
      · rcases hcons h with h | h
        · exact .inl (List.mem_cons_of_mem _ h)
        · exact .inr h
      · rcases List.mem_cons.1 h with rfl | h
        · exact .inl List.mem_cons_self
        · rcases ih h with h | h
          · exact .inl (List.mem_cons_of_mem _ h)
          · exact .inr h

/-- A write keeps the canonical form. -/
theorem Memory.write_wf {m : Memory} (a : Nat) (v : Byte) (h : m.wf) : (m.write a v).wf := by
  induction m with
  | nil => exact Memory.cons_wf h (by simp)
  | cons c m ih =>
    have hm := Memory.wf_head h
    simp only [Memory.write]
    split
    · next h1 =>
      refine Memory.cons_wf h fun d hd => ?_
      rcases List.mem_cons.1 hd with rfl | hd
      · exact h1
      · have := hm d hd
        omega
    · split
      · next h2 => exact Memory.cons_wf (Memory.wf_tail h) fun d hd => h2 ▸ hm d hd
      · next h1 h2 =>
        have hw := ih (Memory.wf_tail h)
        refine ⟨List.pairwise_cons.2 ⟨fun d hd => ?_, hw.1⟩, fun d hd => ?_⟩
        · rcases Memory.mem_write hd with hd | hd
          · exact hm d hd
          · omega
        · rcases List.mem_cons.1 hd with rfl | hd
          · exact h.2 _ List.mem_cons_self
          · exact hw.2 d hd

/-- Writing bytes keeps the canonical form. -/
theorem Memory.writeBytes_wf {m : Memory} (a : Nat) (bs : List Byte) (h : m.wf) : (m.writeBytes a bs).wf := by
  induction bs generalizing m a with
  | nil => exact h
  | cons b bs ih => exact ih (a + 1) (Memory.write_wf a b h)

theorem Memory.mem_writeBytes {m : Memory} {a : Nat} {bs : List Byte} {c : Host.Cell} (h : c ∈ m.writeBytes a bs) :
    c ∈ m ∨ (a ≤ c.1 ∧ c.1 < a + bs.length) := by
  induction bs generalizing m a with
  | nil => exact .inl h
  | cons b bs ih =>
    simp only [List.length_cons]
    rcases ih h with h | h
    · rcases Memory.mem_write h with h | h
      · exact .inl h
      · exact .inr (by omega)
    · exact .inr (by omega)

/-- Reading after writing bytes, in a canonical memory: the byte written there, or what was there. -/
theorem Memory.read_writeBytes {m : Memory} (a : Nat) (bs : List Byte) (b : Nat) (h : m.wf) :
    (m.writeBytes a bs).read b = if a ≤ b ∧ b < a + bs.length then bs.getD (b - a) 0 else m.read b := by
  induction bs generalizing m a with
  | nil => simp [Memory.writeBytes, show ¬ (a ≤ b ∧ b < a) by omega]
  | cons v bs ih =>
    simp only [Memory.writeBytes, List.length_cons]
    rw [ih (a + 1) (Memory.write_wf a v h), Memory.read_write m a b v h]
    by_cases hb : b = a
    · subst hb
      simp [show ¬ (b + 1 ≤ b ∧ b < b + 1 + bs.length) by omega]
    · by_cases hr : a + 1 ≤ b ∧ b < a + 1 + bs.length
      · rw [if_pos hr, if_pos (by omega), show b - a = (b - (a + 1)) + 1 by omega]
        rfl
      · rw [if_neg hr, if_neg hb, if_neg (by omega)]

/-- Bytes outside the written range are unchanged, in any memory. -/
theorem Memory.read_writeBytes_outside {m : Memory} {a : Nat} {bs : List Byte} {b : Nat}
    (h : ¬ (a ≤ b ∧ b < a + bs.length)) : (m.writeBytes a bs).read b = m.read b := by
  induction bs generalizing m a with
  | nil => rfl
  | cons v bs ih =>
    simp only [List.length_cons] at h
    rw [Memory.writeBytes, ih (by omega), Memory.read_write_of_ne m v (by omega)]

theorem wordBytes_length (w : Word) : (wordBytes w).length = 4 := rfl

theorem Memory.block_length (m : Memory) (base n : Nat) : (m.block base n).length = n := by
  simp [Memory.block]

theorem Memory.block_getElem? (m : Memory) (base n j : Nat) :
    (m.block base n)[j]? = if j < n then some (m.read (base + j)) else none := by
  simp only [Memory.block, List.getElem?_map]
  split
  · next h => simp [h]
  · next h => simp [List.getElem?_eq_none (show (List.range n).length ≤ j by simp; omega)]

end Sys2Proof.Machine
end

