-- ==== Sys2Proof/Laws/Cache.lean ====
section
/-! SUPPORT. The cache, address by address: what Ensure, a byte read and a byte write do to lookup, to the bytes the
lines hold and to well-formedness. -/

namespace Sys2Proof.Machine

/-! Addresses (20_memory.md R47). -/

theorem cacheIndex_lt {cfg : Config} (h : cfg.WellFormed) (ba : Nat) : cacheIndex cfg ba < cfg.size := by
  rw [h.2.2.1]
  exact Nat.mod_lt _ (Nat.two_pow_pos _)

theorem cacheTag_lt {cfg : Config} (h : cfg.WellFormed) {ba : Nat} (hb : ba < 2 ^ cfg.bits) :
    cacheTag cfg ba < 2 ^ cfg.tagBits := by
  unfold cacheTag
  rw [Nat.div_lt_iff_lt_mul (Nat.two_pow_pos _), ← Nat.pow_add]
  have := h.2.2.2.2
  rwa [show cfg.tagBits + (cfg.k + cfg.setBits) = cfg.bits by simp only [Config.tagBits]; omega]

theorem cacheBase_add_offset (cfg : Config) (ba : Nat) : cacheBase cfg ba + cacheOffset cfg ba = ba := by
  have := Nat.mod_le ba (2 ^ cfg.k)
  simp only [cacheBase, cacheOffset]
  omega

theorem cacheOffset_lt (cfg : Config) (ba : Nat) : cacheOffset cfg ba < 2 ^ cfg.k :=
  Nat.mod_lt _ (Nat.two_pow_pos _)

/-- An address is its tag, index and offset put together. -/
theorem blockAddr_add_offset (cfg : Config) (ba : Nat) :
    blockAddr cfg (cacheTag cfg ba) (cacheIndex cfg ba) + cacheOffset cfg ba = ba := by
  simp only [blockAddr, cacheTag, cacheIndex, cacheOffset]
  have h1 := Nat.div_add_mod ba (2 ^ cfg.k)
  have h2 := Nat.div_add_mod (ba / 2 ^ cfg.k) (2 ^ cfg.setBits)
  rw [Nat.div_div_eq_div_mul, ← Nat.pow_add] at h2
  calc ba / 2 ^ (cfg.k + cfg.setBits) * 2 ^ (cfg.k + cfg.setBits)
        + ba / 2 ^ cfg.k % 2 ^ cfg.setBits * 2 ^ cfg.k + ba % 2 ^ cfg.k
      = 2 ^ cfg.k * (2 ^ cfg.setBits * (ba / 2 ^ (cfg.k + cfg.setBits)) + ba / 2 ^ cfg.k % 2 ^ cfg.setBits)
          + ba % 2 ^ cfg.k := by
        rw [Nat.pow_add, Nat.mul_add, Nat.mul_comm (ba / _) _, Nat.mul_assoc, Nat.mul_comm (_ % _) (2 ^ cfg.k)]
    _ = ba := by rw [h2, h1]

theorem blockAddr_eq_base (cfg : Config) (ba : Nat) :
    blockAddr cfg (cacheTag cfg ba) (cacheIndex cfg ba) = cacheBase cfg ba := by
  have h1 := blockAddr_add_offset cfg ba
  have h2 := cacheBase_add_offset cfg ba
  omega

/-- Two addresses of one block. -/
def SameBlock (cfg : Config) (a b : Nat) : Prop :=
  cacheTag cfg a = cacheTag cfg b ∧ cacheIndex cfg a = cacheIndex cfg b

theorem SameBlock.base_eq {cfg : Config} {a b : Nat} (h : SameBlock cfg a b) : cacheBase cfg a = cacheBase cfg b := by
  rw [← blockAddr_eq_base, ← blockAddr_eq_base, h.1, h.2]

theorem SameBlock.eq_of_offset {cfg : Config} {a b : Nat} (h : SameBlock cfg a b)
    (ho : cacheOffset cfg a = cacheOffset cfg b) : a = b := by
  rw [← cacheBase_add_offset cfg a, ← cacheBase_add_offset cfg b, h.base_eq, ho]

/-- The next address is in the same block unless a block begins there. -/
theorem sameBlock_succ {cfg : Config} {a : Nat} (h : cacheOffset cfg (a + 1) ≠ 0) : SameBlock cfg (a + 1) a := by
  have hd : (a + 1) / 2 ^ cfg.k = a / 2 ^ cfg.k := by
    rw [Nat.succ_div, if_neg, Nat.add_zero]
    exact fun hdvd => h (Nat.mod_eq_zero_of_dvd hdvd)
  refine ⟨?_, ?_⟩
  · simp only [cacheTag, Nat.pow_add, ← Nat.div_div_eq_div_mul, hd]
  · simp only [cacheIndex, hd]

/-! Sets (20_memory.md R48 to R50). -/

/-- No two valid lines of a set have one tag. -/
theorem CacheSet.Wf.unique {cfg : Config} {cs : CacheSet} (h : cs.Wf cfg) {w1 w2 : Nat} {l1 l2 : Line}
    (h1 : cs.lines[w1]? = some (some l1)) (h2 : cs.lines[w2]? = some (some l2)) (ht : l1.tag = l2.tag) :
    w1 = w2 := by
  obtain ⟨b1, e1⟩ := List.getElem?_eq_some_iff.1 h1
  obtain ⟨b2, e2⟩ := List.getElem?_eq_some_iff.1 h2
  have hp := List.pairwise_iff_getElem.1 h.2.2.2
  rcases Nat.lt_trichotomy w1 w2 with hlt | heq | hlt
  · have := hp w1 w2 b1 b2 hlt
    simp [e1, e2, ht] at this
  · exact heq
  · have := hp w2 w1 b2 b1 hlt
    simp [e1, e2, ht] at this

theorem CacheSet.lookup_some {cs : CacheSet} {tag w : Nat} (h : cs.lookup tag = some w) :
    ∃ ln, cs.lines[w]? = some (some ln) ∧ ln.tag = tag := by
  obtain ⟨hw, hp, -⟩ := List.findIdx?_eq_some_iff_getElem.1 h
  split at hp
  · next ln he => exact ⟨ln, by rw [List.getElem?_eq_getElem hw, he], by simpa using hp⟩
  · cases hp

theorem CacheSet.lookup_none {cs : CacheSet} {tag w : Nat} {ln : Line} (h : cs.lookup tag = none)
    (hl : cs.lines[w]? = some (some ln)) : ln.tag ≠ tag := by
  have := List.findIdx?_eq_none_iff.1 h (some ln) (List.mem_of_getElem? hl)
  simpa using this

theorem CacheSet.Wf.lookup_of {cfg : Config} {cs : CacheSet} (h : cs.Wf cfg) {tag w : Nat} {ln : Line}
    (hl : cs.lines[w]? = some (some ln)) (ht : ln.tag = tag) : cs.lookup tag = some w := by
  cases hk : cs.lookup tag with
  | none => exact absurd ht (CacheSet.lookup_none hk hl)
  | some w' =>
    obtain ⟨l', hl', ht'⟩ := CacheSet.lookup_some hk
    rw [h.unique hl' hl (by rw [ht', ht])]

theorem CacheSet.Wf.order_mem {cfg : Config} {cs : CacheSet} (h : cs.Wf cfg) {w : Nat} :
    w ∈ cs.order ↔ w < cfg.nway := by
  rw [h.2.1.mem_iff, List.mem_range]

theorem CacheSet.Wf.victim_lt {cfg : Config} {cs : CacheSet} (hc : cfg.WellFormed) (h : cs.Wf cfg) :
    cs.victim < cfg.nway := by
  have hne : cs.order ≠ [] := fun e => by
    have := h.2.1.length_eq
    have := hc.2.2.2.1
    simp only [e, List.length_nil, List.length_range] at *
    omega
  simp only [CacheSet.victim, List.getLast?_eq_some_getLast hne, Option.getD_some]
  exact h.order_mem.1 (List.getLast_mem hne)

/-- `Touch` of a way keeps a set well formed. -/
theorem CacheSet.Wf.touch {cfg : Config} {cs : CacheSet} (h : cs.Wf cfg) {w : Nat} (hw : w < cfg.nway) :
    (cs.touch w).Wf cfg :=
  ⟨h.1, (List.perm_cons_erase (h.order_mem.2 hw)).symm.trans h.2.1, h.2.2⟩

theorem CacheSet.lookup_touch (cs : CacheSet) (w tag : Nat) : (cs.touch w).lookup tag = cs.lookup tag := rfl

/-- A line of a filled set: the new one, or an old one of another way. -/
theorem CacheSet.fill_line {cs : CacheSet} {v w : Nat} {ln ln' : Line}
    (h : (cs.fill v ln).lines[w]? = some (some ln')) :
    (w = v ∧ ln' = ln) ∨ (w ≠ v ∧ cs.lines[w]? = some (some ln')) := by
  simp only [CacheSet.fill, List.getElem?_set] at h
  split at h
  · next e =>
    split at h
    · exact .inl ⟨e.symm, by simpa using h.symm⟩
    · cases h
  · next e => exact .inr ⟨Ne.symm e, h⟩

/-- Filling a way with a block whose tag the set does not hold keeps it well formed. -/
theorem CacheSet.Wf.fill {cfg : Config} {cs : CacheSet} (h : cs.Wf cfg) {v : Nat} {ln : Line}
    (hd : ln.data.length = 2 ^ cfg.k) (ht : ln.tag < 2 ^ cfg.tagBits) (hn : cs.lookup ln.tag = none) :
    (cs.fill v ln).Wf cfg := by
  refine ⟨by simpa [CacheSet.fill] using h.1, h.2.1, fun l hl ln' hln => ?_, ?_⟩
  · rcases List.mem_or_eq_of_mem_set hl with hl | rfl
    · exact h.2.2.1 l hl ln' hln
    · simp only [Option.mem_def, Option.some.injEq] at hln
      subst hln
      exact ⟨hd, ht⟩
  · refine List.pairwise_iff_getElem.2 fun i j hi hj hij => ?_
    cases hli : (cs.fill v ln).lines[i] with
    | none => exact .inl rfl
    | some li =>
      right
      cases hlj : (cs.fill v ln).lines[j] with
      | none => simp
      | some lj =>
        have ei := List.getElem?_eq_some_iff.2 ⟨hi, hli⟩
        have ej := List.getElem?_eq_some_iff.2 ⟨hj, hlj⟩
        simp only [Option.map_some, ne_eq, Option.some.injEq]
        intro ht'
        rcases CacheSet.fill_line ei with ⟨rfl, rfl⟩ | ⟨-, oi⟩
        · rcases CacheSet.fill_line ej with ⟨rfl, -⟩ | ⟨-, oj⟩
          · omega
          · exact CacheSet.lookup_none hn oj ht'.symm
        · rcases CacheSet.fill_line ej with ⟨rfl, rfl⟩ | ⟨-, oj⟩
          · exact CacheSet.lookup_none hn oi ht'
          · have := h.unique oi oj ht'
            omega

/-! The whole cache. -/

theorem Cache.setAt_eq {ca : Cache} {i : Nat} {cs : CacheSet} (h : ca[i]? = some cs) : ca.setAt i = cs := by
  simp [Cache.setAt, List.getD_eq_getElem?_getD, h]

theorem Cache.Wf.getElem? {cfg : Config} {ca : Cache} (h : Cache.Wf cfg ca) {i : Nat} (hi : i < cfg.size) :
    ca[i]? = some (ca.setAt i) := by
  have hl : i < ca.length := by
    rw [h.1]
    exact hi
  rw [Cache.setAt_eq (List.getElem?_eq_getElem hl), List.getElem?_eq_getElem hl]

theorem Cache.Wf.setAt {cfg : Config} {c : Cache} (h : Cache.Wf cfg c) {i : Nat} (hi : i < cfg.size) :
    (c.setAt i).Wf cfg :=
  h.2 _ (List.mem_of_getElem? (h.getElem? hi))

theorem Cache.Wf.set {cfg : Config} {c : Cache} (h : Cache.Wf cfg c) (i : Nat) {cs : CacheSet} (hs : cs.Wf cfg) :
    Cache.Wf cfg (c.set i cs) := by
  refine ⟨by simpa using h.1, fun x hx => ?_⟩
  rcases List.mem_or_eq_of_mem_set hx with hx | rfl
  · exact h.2 x hx
  · exact hs

theorem Cache.Wf.setAt_set {cfg : Config} {c : Cache} (h : Cache.Wf cfg c) {i : Nat} (hi : i < cfg.size) (j : Nat)
    (cs : CacheSet) : Cache.setAt (c.set i cs) j = if i = j then cs else c.setAt j := by
  have hl : i < c.length := by
    rw [h.1]
    exact hi
  simp only [Cache.setAt, List.getD_eq_getElem?_getD, List.getElem?_set]
  split
  · next e => simp
  · rfl

/-- The two cases of `Ensure` (20_memory.md R50). -/
theorem Cache.ensure_cases (cfg : Config) (m : Memory) (c : Cache) (ba : Nat) :
    (∃ w, c.lookup cfg ba = some w ∧
      c.ensure cfg m ba = (w, c.set (cacheIndex cfg ba) ((c.setAt (cacheIndex cfg ba)).touch w))) ∨
    (c.lookup cfg ba = none ∧
      c.ensure cfg m ba = ((c.setAt (cacheIndex cfg ba)).victim,
        c.set (cacheIndex cfg ba) (((c.setAt (cacheIndex cfg ba)).fill (c.setAt (cacheIndex cfg ba)).victim
          { tag := cacheTag cfg ba, data := m.block (cacheBase cfg ba) (2 ^ cfg.k) }).touch
            (c.setAt (cacheIndex cfg ba)).victim))) := by
  simp only [Cache.lookup, Cache.ensure]
  cases h : (c.setAt (cacheIndex cfg ba)).lookup (cacheTag cfg ba) with
  | none => exact .inr ⟨rfl, rfl⟩
  | some w => exact .inl ⟨w, rfl, rfl⟩

theorem Cache.Wf.lookup_lt {cfg : Config} {c : Cache} (hc : cfg.WellFormed) (h : Cache.Wf cfg c) {ba w : Nat}
    (hl : c.lookup cfg ba = some w) : w < cfg.nway := by
  obtain ⟨ln, hln, -⟩ := CacheSet.lookup_some hl
  rw [← (h.setAt (cacheIndex_lt hc ba)).1]
  exact (List.getElem?_eq_some_iff.1 hln).1

/-- `Ensure` keeps the cache well formed. -/
theorem Cache.Wf.ensure {cfg : Config} {c : Cache} (hc : cfg.WellFormed) (h : Cache.Wf cfg c) (m : Memory) {ba : Nat}
    (hb : ba < 2 ^ cfg.bits) : Cache.Wf cfg (c.ensure cfg m ba).2 := by
  have hs := h.setAt (cacheIndex_lt hc ba)
  rcases Cache.ensure_cases cfg m c ba with ⟨w, hl, e⟩ | ⟨hl, e⟩ <;> rw [e]
  · exact h.set _ (hs.touch (h.lookup_lt hc hl))
  · have hl' : (c.setAt (cacheIndex cfg ba)).lookup (cacheTag cfg ba) = none := hl
    exact h.set _ ((hs.fill (Memory.block_length ..) (cacheTag_lt hc hb) hl').touch (hs.victim_lt hc))

/-- After `Ensure` the block is resident in the way it answers. -/
theorem Cache.Wf.lookup_ensure_self {cfg : Config} {c : Cache} (hc : cfg.WellFormed) (h : Cache.Wf cfg c) (m : Memory)
    {ba : Nat} (hb : ba < 2 ^ cfg.bits) : (c.ensure cfg m ba).2.lookup cfg ba = some (c.ensure cfg m ba).1 := by
  have hi := cacheIndex_lt hc ba
  have hs := h.setAt hi
  rcases Cache.ensure_cases cfg m c ba with ⟨w, hl, e⟩ | ⟨hl, e⟩
  · rw [e]
    simp only [Cache.lookup, h.setAt_set hi, if_true, CacheSet.lookup_touch]
    exact hl
  · rw [e]
    have hl' : (c.setAt (cacheIndex cfg ba)).lookup (cacheTag cfg ba) = none := hl
    simp only [Cache.lookup, h.setAt_set hi, if_true, CacheSet.lookup_touch]
    refine (hs.fill (v := (c.setAt (cacheIndex cfg ba)).victim)
      (ln := { tag := cacheTag cfg ba, data := m.block (cacheBase cfg ba) (2 ^ cfg.k) })
      (Memory.block_length m _ _) (cacheTag_lt hc hb) hl').lookup_of
      (ln := { tag := cacheTag cfg ba, data := m.block (cacheBase cfg ba) (2 ^ cfg.k) }) ?_ rfl
    simp [CacheSet.fill, hs.1, hs.victim_lt hc]

theorem Cache.byteAt_eq {cfg : Config} {c : Cache} {a w : Nat} {ln : Line}
    (h : (c.setAt (cacheIndex cfg a)).lines[w]? = some (some ln)) :
    c.byteAt cfg a w = ln.data.getD (cacheOffset cfg a) 0 := by
  simp [Cache.byteAt, List.getD_eq_getElem?_getD, h]

/-- What an address is found to hold after `Ensure(ba)`: either what it was found to hold before, or it lies in the
block that was just fetched from Memory. -/
theorem Cache.Wf.ensure_found {cfg : Config} {c : Cache} (hc : cfg.WellFormed) (h : Cache.Wf cfg c) (m : Memory)
    {ba a w : Nat} (hl : (c.ensure cfg m ba).2.lookup cfg a = some w) :
    (c.lookup cfg a = some w ∧ (c.ensure cfg m ba).2.byteAt cfg a w = c.byteAt cfg a w) ∨
    (c.lookup cfg ba = none ∧ SameBlock cfg a ba ∧ (c.ensure cfg m ba).2.byteAt cfg a w = m.read a) := by
  have hi := cacheIndex_lt hc ba
  rcases Cache.ensure_cases cfg m c ba with ⟨w', hl', e⟩ | ⟨hl', e⟩
  · left
    rw [e] at hl ⊢
    simp only [Cache.lookup, Cache.byteAt, h.setAt_set hi] at hl ⊢
    split at hl
    · next ei =>
      rw [if_pos ei, ← ei]
      exact ⟨hl, rfl⟩
    · next ei =>
      rw [if_neg ei]
      exact ⟨hl, rfl⟩
  · rw [e] at hl ⊢
    simp only [Cache.lookup, h.setAt_set hi] at hl ⊢
    by_cases ei : cacheIndex cfg ba = cacheIndex cfg a
    · rw [if_pos ei, CacheSet.lookup_touch] at hl
      obtain ⟨ln, hln, ht⟩ := CacheSet.lookup_some hl
      have hb : ∀ (cs : CacheSet), (Cache.byteAt cfg (c.set (cacheIndex cfg ba) (cs.touch
          (c.setAt (cacheIndex cfg ba)).victim)) a w) = (match cs.lines.getD w none with
            | some ln => ln.data.getD (cacheOffset cfg a) 0 | none => 0) := by
        intro cs
        simp only [Cache.byteAt, h.setAt_set hi, if_pos ei]
        rfl
      rw [hb]
      simp only [List.getD_eq_getElem?_getD, hln, Option.getD_some]
      rcases CacheSet.fill_line hln with ⟨-, rfl⟩ | ⟨hw, ho⟩
      · right
        refine ⟨hl', ⟨ht.symm, ei.symm⟩, ?_⟩
        have hbase : cacheBase cfg ba + cacheOffset cfg a = a := by
          rw [← SameBlock.base_eq (cfg := cfg) (a := a) (b := ba) ⟨ht.symm, ei.symm⟩, cacheBase_add_offset]
        simp [Memory.block_getElem?, cacheOffset_lt, hbase]
      · left
        rw [ei] at ho
        refine ⟨(h.setAt (ei ▸ hi)).lookup_of ho ht, ?_⟩
        simp [Cache.byteAt_eq ho]
    · left
      rw [if_neg ei] at hl
      refine ⟨hl, ?_⟩
      simp only [Cache.byteAt, h.setAt_set hi, if_neg ei]

/-! One byte of a dword access (20_memory.md R51 to R53). -/

theorem Cache.setAt_putByte (cfg : Config) (c : Cache) (ba w : Nat) (b : Byte) (i : Nat) :
    (c.putByte cfg ba w b).setAt i =
      if i = cacheIndex cfg ba ∧ i < c.length then
        (c.setAt i).put w (cacheOffset cfg ba) b
      else c.setAt i := by
  simp only [Cache.putByte, Cache.setAt, List.getD_eq_getElem?_getD, List.getElem?_modify]
  by_cases h : i = cacheIndex cfg ba
  · subst h
    by_cases hl : cacheIndex cfg ba < c.length
    · simp [hl]
    · simp [hl]
  · simp [h, Ne.symm h]

/-- A line after one of its bytes, or a byte of another line, is written. -/
theorem putByte_line {lines : List (Option Line)} {w x o : Nat} {b : Byte} {ln' : Line}
    (h : (lines.modify w (Option.map fun ln => ln.put o b))[x]? = some (some ln')) :
    ∃ ln, lines[x]? = some (some ln) ∧
      ln' = if x = w then ln.put o b else ln := by
  rw [List.getElem?_modify] at h
  by_cases e : w = x
  · subst e
    cases hx : lines[w]? with
    | none => simp [hx] at h
    | some l =>
      cases l with
      | none => simp [hx] at h
      | some ln => exact ⟨ln, rfl, by simpa [hx] using h.symm⟩
  · exact ⟨ln', by simpa [e] using h, by simp [Ne.symm e]⟩

theorem putByte_line_of {lines : List (Option Line)} {x : Nat} (w o : Nat) (b : Byte) {ln : Line}
    (h : lines[x]? = some (some ln)) :
    (lines.modify w (Option.map fun ln => ln.put o b))[x]? =
      some (some (if x = w then ln.put o b else ln)) := by
  rw [List.getElem?_modify]
  by_cases e : w = x
  · subst e
    simp [h]
  · simp [e, Ne.symm e, h]

/-- Writing a byte of a line keeps the cache well formed. -/
theorem Cache.Wf.putByte {cfg : Config} {c : Cache} (h : Cache.Wf cfg c) (ba w : Nat) (b : Byte) :
    Cache.Wf cfg (c.putByte cfg ba w b) := by
  refine ⟨by simpa [Cache.putByte] using h.1, fun cs hcs => ?_⟩
  obtain ⟨i0, hi⟩ := List.mem_iff_getElem?.1 hcs
  have hset := Cache.setAt_eq hi
  rw [Cache.setAt_putByte] at hset
  have hlt : i0 < cfg.size := by
    have := (List.getElem?_eq_some_iff.1 hi).1
    simp only [Cache.putByte, List.length_modify] at this
    rw [← h.1]
    exact this
  have hs := h.setAt hlt
  split at hset
  · subst hset
    refine ⟨by simpa [CacheSet.put] using hs.1, hs.2.1, fun l hl ln hln => ?_, ?_⟩
    · obtain ⟨x, hx⟩ := List.mem_iff_getElem?.1 hl
      rw [Option.mem_def.1 hln] at hx
      obtain ⟨ln0, h0, e⟩ := putByte_line hx
      have := hs.2.2.1 _ (List.mem_of_getElem? h0) ln0 rfl
      rw [e]
      split
      · simpa [Line.put] using this
      · exact this
    · refine List.pairwise_iff_getElem.2 fun i j hi hj hij => ?_
      cases hli : ((c.setAt i0).put w (cacheOffset cfg ba) b).lines[i] with
      | none => exact .inl rfl
      | some li =>
        right
        cases hlj : ((c.setAt i0).put w (cacheOffset cfg ba) b).lines[j] with
        | none => simp
        | some lj =>
          obtain ⟨l1, o1, e1⟩ := putByte_line (List.getElem?_eq_some_iff.2 ⟨hi, hli⟩)
          obtain ⟨l2, o2, e2⟩ := putByte_line (List.getElem?_eq_some_iff.2 ⟨hj, hlj⟩)
          simp only [Option.map_some, ne_eq, Option.some.injEq]
          intro ht
          have t1 : li.tag = l1.tag := by rw [e1]; split <;> rfl
          have t2 : lj.tag = l2.tag := by rw [e2]; split <;> rfl
          have := hs.unique o1 o2 (by rw [← t1, ← t2, ht])
          omega
  · rw [← hset]
    exact hs

/-- Writing a byte of a line moves no line. -/
theorem Cache.Wf.lookup_putByte {cfg : Config} {c : Cache} (hc : cfg.WellFormed) (h : Cache.Wf cfg c)
    (ba w : Nat) (b : Byte) (a : Nat) : (c.putByte cfg ba w b).lookup cfg a = c.lookup cfg a := by
  have hwf := (h.putByte ba w b).setAt (cacheIndex_lt hc a)
  cases hl : c.lookup cfg a with
  | some x =>
    obtain ⟨ln, hln, ht⟩ := CacheSet.lookup_some hl
    have hset := Cache.setAt_putByte cfg c ba w b (cacheIndex cfg a)
    unfold Cache.lookup
    split at hset
    · have := putByte_line_of w (cacheOffset cfg ba) b hln
      refine hwf.lookup_of (by rw [hset]; exact this) ?_
      split <;> exact ht
    · refine hwf.lookup_of (by rw [hset]; exact hln) ht
  | none =>
    cases hp : (c.putByte cfg ba w b).lookup cfg a with
    | none => rfl
    | some x =>
      obtain ⟨ln', hln', ht'⟩ := CacheSet.lookup_some hp
      rw [Cache.setAt_putByte] at hln'
      split at hln'
      · obtain ⟨ln, hln, e⟩ := putByte_line hln'
        refine absurd ?_ (CacheSet.lookup_none hl hln)
        rw [← ht', e]
        split <;> rfl
      · exact absurd ht' (CacheSet.lookup_none hl hln')

/-- The byte found after a byte of a resident block is written: the new byte there, the old byte elsewhere. -/
theorem Cache.Wf.byteAt_putByte {cfg : Config} {c : Cache} (hc : cfg.WellFormed) (h : Cache.Wf cfg c) {ba w : Nat}
    (b : Byte) (hw : c.lookup cfg ba = some w) {a x : Nat} (hx : c.lookup cfg a = some x) :
    (c.putByte cfg ba w b).byteAt cfg a x = if a = ba then b else c.byteAt cfg a x := by
  obtain ⟨ln, hln, ht⟩ := CacheSet.lookup_some hw
  obtain ⟨la, hla, hta⟩ := CacheSet.lookup_some hx
  have hs := h.setAt (cacheIndex_lt hc a)
  have hlen : cacheIndex cfg a < c.length := by
    rw [h.1]
    exact cacheIndex_lt hc a
  have hset := Cache.setAt_putByte cfg c ba w b (cacheIndex cfg a)
  rw [Cache.byteAt_eq hla]
  by_cases ei : cacheIndex cfg a = cacheIndex cfg ba
  · rw [if_pos ⟨ei, hlen⟩] at hset
    have hput := putByte_line_of w (cacheOffset cfg ba) b hla
    rw [Cache.byteAt_eq (by rw [hset]; exact hput)]
    by_cases exw : x = w
    · subst exw
      rw [ei] at hla
      have el : la = ln := by simpa using hla.symm.trans hln
      subst el
      have hsb : SameBlock cfg a ba := ⟨by rw [← hta, ← ht], ei⟩
      simp only [if_true]
      have hd := (hs.2.2.1 _ (List.mem_of_getElem? (ei ▸ hla)) la rfl).1
      by_cases ea : a = ba
      · subst ea
        simp [Line.put, hd, cacheOffset_lt]
      · rw [if_neg ea]
        have : cacheOffset cfg ba ≠ cacheOffset cfg a := fun eo => ea (hsb.eq_of_offset eo.symm)
        simp [Line.put, this]
    · have ea : a ≠ ba := by
        rintro rfl
        exact exw (by simpa using hx.symm.trans hw)
      rw [if_neg exw, if_neg ea]
  · rw [if_neg (fun e => ei e.1)] at hset
    have ea : a ≠ ba := by
      rintro rfl
      exact ei rfl
    rw [Cache.byteAt_eq (by rw [hset]; exact hla), if_neg ea]

end Sys2Proof.Machine
end

