-- ==== Sys2Proof/Laws/State.lean ====
section
/-! SUPPORT. One lemma per field per update of State, and reads of a register after a write. -/

namespace Sys2Proof.Machine

@[simp] theorem State.raise_cfg (s : State) (e : ErrorRecord) : (s.raise e).cfg = s.cfg := rfl
@[simp] theorem State.raise_regs (s : State) (e : ErrorRecord) : (s.raise e).regs = s.regs := rfl
@[simp] theorem State.raise_flags (s : State) (e : ErrorRecord) : (s.raise e).flags = s.flags := rfl
@[simp] theorem State.raise_stk (s : State) (e : ErrorRecord) : (s.raise e).stk = s.stk := rfl
@[simp] theorem State.raise_run (s : State) (e : ErrorRecord) : (s.raise e).run = .halted e := rfl
@[simp] theorem State.raise_loaded (s : State) (e : ErrorRecord) : (s.raise e).loaded = s.loaded := rfl
@[simp] theorem State.raise_mem (s : State) (e : ErrorRecord) : (s.raise e).mem = s.mem := rfl
@[simp] theorem State.raise_cache (s : State) (e : ErrorRecord) : (s.raise e).cache = s.cache := rfl

@[simp] theorem State.setReg_cfg (s : State) (r : Reg) (v : Word) : (s.setReg r v).cfg = s.cfg := rfl
@[simp] theorem State.setReg_regs (s : State) (r : Reg) (v : Word) : (s.setReg r v).regs = s.regs.set r v := rfl
@[simp] theorem State.setReg_flags (s : State) (r : Reg) (v : Word) : (s.setReg r v).flags = s.flags := rfl
@[simp] theorem State.setReg_stk (s : State) (r : Reg) (v : Word) : (s.setReg r v).stk = s.stk := rfl
@[simp] theorem State.setReg_run (s : State) (r : Reg) (v : Word) : (s.setReg r v).run = s.run := rfl
@[simp] theorem State.setReg_loaded (s : State) (r : Reg) (v : Word) : (s.setReg r v).loaded = s.loaded := rfl
@[simp] theorem State.setReg_mem (s : State) (r : Reg) (v : Word) : (s.setReg r v).mem = s.mem := rfl
@[simp] theorem State.setReg_cache (s : State) (r : Reg) (v : Word) : (s.setReg r v).cache = s.cache := rfl

@[simp] theorem State.setX_cfg (s : State) (r : Reg) (v : Int) : (s.setX r v).cfg = s.cfg := rfl
@[simp] theorem State.setX_regs (s : State) (r : Reg) (v : Int) : (s.setX r v).regs = s.regs.set r (BitVec.ofInt 32 v) := rfl
@[simp] theorem State.setX_flags (s : State) (r : Reg) (v : Int) : (s.setX r v).flags = s.flags := rfl
@[simp] theorem State.setX_stk (s : State) (r : Reg) (v : Int) : (s.setX r v).stk = s.stk := rfl
@[simp] theorem State.setX_run (s : State) (r : Reg) (v : Int) : (s.setX r v).run = s.run := rfl
@[simp] theorem State.setX_loaded (s : State) (r : Reg) (v : Int) : (s.setX r v).loaded = s.loaded := rfl
@[simp] theorem State.setX_mem (s : State) (r : Reg) (v : Int) : (s.setX r v).mem = s.mem := rfl
@[simp] theorem State.setX_cache (s : State) (r : Reg) (v : Int) : (s.setX r v).cache = s.cache := rfl

@[simp] theorem State.compare_cfg (s : State) (a b : Int) : (s.compare a b).cfg = s.cfg := rfl
@[simp] theorem State.compare_regs (s : State) (a b : Int) : (s.compare a b).regs = s.regs := rfl
@[simp] theorem State.compare_flags (s : State) (a b : Int) : (s.compare a b).flags = compareFlags a b := rfl
@[simp] theorem State.compare_stk (s : State) (a b : Int) : (s.compare a b).stk = s.stk := rfl
@[simp] theorem State.compare_run (s : State) (a b : Int) : (s.compare a b).run = s.run := rfl
@[simp] theorem State.compare_loaded (s : State) (a b : Int) : (s.compare a b).loaded = s.loaded := rfl
@[simp] theorem State.compare_mem (s : State) (a b : Int) : (s.compare a b).mem = s.mem := rfl
@[simp] theorem State.compare_cache (s : State) (a b : Int) : (s.compare a b).cache = s.cache := rfl

@[simp] theorem State.jumpTo_cfg (s : State) (p : Int) : (s.jumpTo p).cfg = s.cfg := rfl
@[simp] theorem State.jumpTo_regs (s : State) (p : Int) : (s.jumpTo p).regs = s.regs.set .pc (BitVec.ofInt 32 p) := rfl
@[simp] theorem State.jumpTo_flags (s : State) (p : Int) : (s.jumpTo p).flags = s.flags := rfl
@[simp] theorem State.jumpTo_stk (s : State) (p : Int) : (s.jumpTo p).stk = s.stk := rfl
@[simp] theorem State.jumpTo_run (s : State) (p : Int) : (s.jumpTo p).run = s.run := rfl
@[simp] theorem State.jumpTo_loaded (s : State) (p : Int) : (s.jumpTo p).loaded = s.loaded := rfl
@[simp] theorem State.jumpTo_mem (s : State) (p : Int) : (s.jumpTo p).mem = s.mem := rfl
@[simp] theorem State.jumpTo_cache (s : State) (p : Int) : (s.jumpTo p).cache = s.cache := rfl

@[simp] theorem State.cacheRead_cfg (s : State) (ba : Nat) : ((s.cacheRead ba).2).cfg = s.cfg := rfl
@[simp] theorem State.cacheRead_regs (s : State) (ba : Nat) : ((s.cacheRead ba).2).regs = s.regs := rfl
@[simp] theorem State.cacheRead_flags (s : State) (ba : Nat) : ((s.cacheRead ba).2).flags = s.flags := rfl
@[simp] theorem State.cacheRead_stk (s : State) (ba : Nat) : ((s.cacheRead ba).2).stk = s.stk := rfl
@[simp] theorem State.cacheRead_run (s : State) (ba : Nat) : ((s.cacheRead ba).2).run = s.run := rfl
@[simp] theorem State.cacheRead_loaded (s : State) (ba : Nat) : ((s.cacheRead ba).2).loaded = s.loaded := rfl
@[simp] theorem State.cacheRead_mem (s : State) (ba : Nat) : ((s.cacheRead ba).2).mem = s.mem := rfl
@[simp] theorem State.cacheRead_cache (s : State) (ba : Nat) : ((s.cacheRead ba).2).cache = (Cache.readBytes s.cfg s.mem 4 s.cache ba none).2 := rfl

@[simp] theorem State.cacheWrite_cfg (s : State) (ba : Nat) (v : Word) (mw : Bool) : (s.cacheWrite ba v mw).cfg = s.cfg := rfl
@[simp] theorem State.cacheWrite_regs (s : State) (ba : Nat) (v : Word) (mw : Bool) : (s.cacheWrite ba v mw).regs = s.regs := rfl
@[simp] theorem State.cacheWrite_flags (s : State) (ba : Nat) (v : Word) (mw : Bool) : (s.cacheWrite ba v mw).flags = s.flags := rfl
@[simp] theorem State.cacheWrite_stk (s : State) (ba : Nat) (v : Word) (mw : Bool) : (s.cacheWrite ba v mw).stk = s.stk := rfl
@[simp] theorem State.cacheWrite_run (s : State) (ba : Nat) (v : Word) (mw : Bool) : (s.cacheWrite ba v mw).run = s.run := rfl
@[simp] theorem State.cacheWrite_loaded (s : State) (ba : Nat) (v : Word) (mw : Bool) : (s.cacheWrite ba v mw).loaded = s.loaded := rfl
@[simp] theorem State.cacheWrite_mem (s : State) (ba : Nat) (v : Word) (mw : Bool) : (s.cacheWrite ba v mw).mem = if mw then s.mem.writeBytes ba (wordBytes v) else s.mem := rfl
@[simp] theorem State.cacheWrite_cache (s : State) (ba : Nat) (v : Word) (mw : Bool) : (s.cacheWrite ba v mw).cache = Cache.writeBytes s.cfg s.mem (wordBytes v) s.cache ba none := rfl

@[simp] theorem State.jumpIf_cfg (s : State) (c : Bool) (p : Int) : (s.jumpIf c p).cfg = s.cfg := by
  cases c <;> rfl
@[simp] theorem State.jumpIf_flags (s : State) (c : Bool) (p : Int) : (s.jumpIf c p).flags = s.flags := by
  cases c <;> rfl
@[simp] theorem State.jumpIf_stk (s : State) (c : Bool) (p : Int) : (s.jumpIf c p).stk = s.stk := by
  cases c <;> rfl
@[simp] theorem State.jumpIf_run (s : State) (c : Bool) (p : Int) : (s.jumpIf c p).run = s.run := by
  cases c <;> rfl
@[simp] theorem State.jumpIf_loaded (s : State) (c : Bool) (p : Int) : (s.jumpIf c p).loaded = s.loaded := by
  cases c <;> rfl
@[simp] theorem State.jumpIf_mem (s : State) (c : Bool) (p : Int) : (s.jumpIf c p).mem = s.mem := by
  cases c <;> rfl
@[simp] theorem State.jumpIf_cache (s : State) (c : Bool) (p : Int) : (s.jumpIf c p).cache = s.cache := by
  cases c <;> rfl
@[simp] theorem State.jumpIf_true (s : State) (p : Int) : s.jumpIf true p = s.jumpTo p := rfl
@[simp] theorem State.jumpIf_false (s : State) (p : Int) : s.jumpIf false p = s := rfl

@[simp] theorem State.cacheRead_fst (s : State) (ba : Nat) :
    (s.cacheRead ba).1 = dwordOfBytes (Cache.readBytes s.cfg s.mem 4 s.cache ba none).1 := rfl

@[simp] theorem State.pokeByte_cfg (s : State) (ba : Nat) (b : Byte) : (s.pokeByte ba b).cfg = s.cfg := rfl
@[simp] theorem State.pokeByte_regs (s : State) (ba : Nat) (b : Byte) : (s.pokeByte ba b).regs = s.regs := rfl
@[simp] theorem State.pokeByte_flags (s : State) (ba : Nat) (b : Byte) : (s.pokeByte ba b).flags = s.flags := rfl
@[simp] theorem State.pokeByte_stk (s : State) (ba : Nat) (b : Byte) : (s.pokeByte ba b).stk = s.stk := rfl
@[simp] theorem State.pokeByte_run (s : State) (ba : Nat) (b : Byte) : (s.pokeByte ba b).run = s.run := rfl
@[simp] theorem State.pokeByte_loaded (s : State) (ba : Nat) (b : Byte) : (s.pokeByte ba b).loaded = s.loaded := rfl
@[simp] theorem State.pokeByte_mem (s : State) (ba : Nat) (b : Byte) : (s.pokeByte ba b).mem = s.mem.write ba b := rfl

@[simp] theorem State.pokeBytes_cfg (s : State) (ba : Nat) (bs : List Byte) :
    (s.pokeBytes ba bs).cfg = s.cfg := by
  induction bs generalizing s ba with
  | nil => rfl
  | cons b bs ih => rw [State.pokeBytes, ih]; rfl
@[simp] theorem State.pokeBytes_regs (s : State) (ba : Nat) (bs : List Byte) :
    (s.pokeBytes ba bs).regs = s.regs := by
  induction bs generalizing s ba with
  | nil => rfl
  | cons b bs ih => rw [State.pokeBytes, ih]; rfl
@[simp] theorem State.pokeBytes_flags (s : State) (ba : Nat) (bs : List Byte) :
    (s.pokeBytes ba bs).flags = s.flags := by
  induction bs generalizing s ba with
  | nil => rfl
  | cons b bs ih => rw [State.pokeBytes, ih]; rfl
@[simp] theorem State.pokeBytes_stk (s : State) (ba : Nat) (bs : List Byte) :
    (s.pokeBytes ba bs).stk = s.stk := by
  induction bs generalizing s ba with
  | nil => rfl
  | cons b bs ih => rw [State.pokeBytes, ih]; rfl
@[simp] theorem State.pokeBytes_run (s : State) (ba : Nat) (bs : List Byte) :
    (s.pokeBytes ba bs).run = s.run := by
  induction bs generalizing s ba with
  | nil => rfl
  | cons b bs ih => rw [State.pokeBytes, ih]; rfl
@[simp] theorem State.pokeBytes_loaded (s : State) (ba : Nat) (bs : List Byte) :
    (s.pokeBytes ba bs).loaded = s.loaded := by
  induction bs generalizing s ba with
  | nil => rfl
  | cons b bs ih => rw [State.pokeBytes, ih]; rfl

/-! Register reads after writes (10_state.md R20). -/

@[simp] theorem Regs.get_set_self (rs : Regs) (r : Reg) (v : Word) : (rs.set r v).get r = v := by
  cases r <;> rfl

theorem Regs.get_set_of_ne (rs : Regs) (v : Word) {q r : Reg} (h : q ≠ r) : (rs.set r v).get q = rs.get q := by
  cases r <;> cases q <;> first | rfl | exact absurd rfl h

theorem Regs.get_set (rs : Regs) (q r : Reg) (v : Word) :
    (rs.set r v).get q = if q = r then v else rs.get q := by
  split
  · next h => rw [h, Regs.get_set_self]
  · next h => exact Regs.get_set_of_ne rs v h

/-- Register files that agree on every register are equal. -/
theorem Regs.ext_get {a b : Regs} (h : ∀ r, a.get r = b.get r) : a = b := by
  cases a; cases b
  simp only [Regs.mk.injEq]
  exact ⟨h .eax, h .ebx, h .ecx, h .edx, h .esi, h .edi, h .rsp, h .rbp, h .pc⟩

@[simp] theorem State.x_setReg_self (s : State) (r : Reg) (v : Word) : (s.setReg r v).x r = v.toInt := by
  simp [State.x]

theorem State.x_setReg_of_ne (s : State) (v : Word) {q r : Reg} (h : q ≠ r) : (s.setReg r v).x q = s.x q := by
  simp [State.x, Regs.get_set_of_ne _ _ h]

/-- Every register value is in range (10_state.md R20). -/
theorem State.x_inRange (s : State) (r : Reg) : InRange (s.x r) := by
  have h := (s.regs.get r).isLt
  have := BitVec.toInt_eq_toNat_cond (s.regs.get r)
  simp only [State.x, InRange]
  split at this <;> omega

/-- `tc_32` loses nothing in range (00_scope.md R9). -/
theorem toInt_ofInt_of_inRange {v : Int} (h : InRange v) : (BitVec.ofInt 32 v).toInt = v := by
  rw [BitVec.toInt_ofInt, Int.bmod_def]
  simp only [InRange] at h
  split <;> omega

theorem State.x_setX_self (s : State) (r : Reg) {v : Int} (h : InRange v) : (s.setX r v).x r = v := by
  simp [State.setX, toInt_ofInt_of_inRange h]

theorem State.x_setX_of_ne (s : State) (v : Int) {q r : Reg} (h : q ≠ r) : (s.setX r v).x q = s.x q :=
  State.x_setReg_of_ne s _ h

@[simp] theorem State.x_raise (s : State) (e : ErrorRecord) (r : Reg) : (s.raise e).x r = s.x r := rfl
@[simp] theorem State.x_compare (s : State) (a b : Int) (r : Reg) : (s.compare a b).x r = s.x r := rfl
@[simp] theorem State.x_cacheRead (s : State) (ba : Nat) (r : Reg) : (s.cacheRead ba).2.x r = s.x r := rfl
@[simp] theorem State.x_cacheWrite (s : State) (ba : Nat) (v : Word) (mw : Bool) (r : Reg) :
    (s.cacheWrite ba v mw).x r = s.x r := rfl

end Sys2Proof.Machine
end

