-- ==== Sys2Proof/Laws/Access.lean ====
section
/-! SUPPORT. Dword accesses through the cache: what CacheRead and CacheWrite do to well-formedness and to the byte each
address is found to hold. -/

namespace Sys2Proof.Machine

/-- If the block of `a` is resident, its byte at `a` is `t`. -/
def FoundIs (cfg : Config) (c : Cache) (a : Nat) (t : Byte) : Prop :=
  ∀ x, c.lookup cfg a = some x → c.byteAt cfg a x = t

/-- The way carried from the byte before is the way of this byte, unless a block begins here. -/
def OnWay (cfg : Config) (c : Cache) (ba : Nat) (w : Option Nat) : Prop :=
  ∀ x, w = some x → cacheOffset cfg ba ≠ 0 → c.lookup cfg ba = some x

theorem SameBlock.le_of_offset_zero {cfg : Config} {a ba : Nat} (h : SameBlock cfg a ba)
    (ho : cacheOffset cfg ba = 0) : ba ≤ a := by
  have h1 := cacheBase_add_offset cfg a
  have h2 := cacheBase_add_offset cfg ba
  have h3 := h.base_eq
  omega

/-- What one byte's visit does (20_memory.md R51): the block is resident in the way it answers, and every address is
found to hold what it held, or lies in a block just fetched. -/
theorem Cache.Wf.visit {cfg : Config} {c : Cache} (hc : cfg.WellFormed) (h : Cache.Wf cfg c) (m : Memory) {ba : Nat}
    {w : Option Nat} (hb : ba < 2 ^ cfg.bits) (hw : OnWay cfg c ba w) :
    Cache.Wf cfg (c.visit cfg m ba w).2 ∧
    (c.visit cfg m ba w).2.lookup cfg ba = some (c.visit cfg m ba w).1 ∧
    ∀ a x, (c.visit cfg m ba w).2.lookup cfg a = some x →
      (c.lookup cfg a = some x ∧ (c.visit cfg m ba w).2.byteAt cfg a x = c.byteAt cfg a x) ∨
      ((w = none ∨ cacheOffset cfg ba = 0) ∧ SameBlock cfg a ba ∧
        (c.visit cfg m ba w).2.byteAt cfg a x = m.read a) := by
  have hens : (w = none ∨ cacheOffset cfg ba = 0) → c.visit cfg m ba w = c.ensure cfg m ba := by
    rintro (rfl | ho)
    · rfl
    · cases w with
      | none => rfl
      | some x => simp [Cache.visit, ho]
  by_cases hf : w = none ∨ cacheOffset cfg ba = 0
  · rw [hens hf]
    refine ⟨h.ensure hc m hb, h.lookup_ensure_self hc m hb, fun a x hx => ?_⟩
    rcases h.ensure_found hc m hx with hk | ⟨-, hsb, hv⟩
    · exact .inl hk
    · exact .inr ⟨hf, hsb, hv⟩
  · cases w with
    | none => exact absurd (.inl rfl) hf
    | some x =>
      have ho : cacheOffset cfg ba ≠ 0 := fun e => hf (.inr e)
      have hv : c.visit cfg m ba (some x) = (x, c) := by simp [Cache.visit, ho]
      rw [hv]
      exact ⟨h, hw x rfl ho, fun a y hy => .inl ⟨hy, rfl⟩⟩

/-- The way just visited is carried to the next byte. -/
theorem onWay_succ {cfg : Config} {c : Cache} {ba x : Nat} (h : c.lookup cfg ba = some x) :
    OnWay cfg c (ba + 1) (some x) := by
  intro y hy ho
  have hs := sameBlock_succ ho
  unfold Cache.lookup at h ⊢
  rw [hs.1, hs.2, h, hy]

theorem FoundIs.visit {cfg : Config} {c : Cache} (hc : cfg.WellFormed) (h : Cache.Wf cfg c) {m : Memory} {ba a : Nat}
    {w : Option Nat} (hb : ba < 2 ^ cfg.bits) (hw : OnWay cfg c ba w) (hf : FoundIs cfg c a (m.read a)) :
    FoundIs cfg (c.visit cfg m ba w).2 a (m.read a) := by
  intro x hx
  rcases (h.visit hc m hb hw).2.2 a x hx with ⟨ho, e⟩ | ⟨-, -, e⟩
  · rw [e]
    exact hf x ho
  · exact e

/-- `CacheRead`'s loop (20_memory.md R52): it keeps the cache well formed, keeps every address that agrees with Memory
agreeing, and answers Memory's bytes where the lines agree with Memory. -/
theorem Cache.Wf.readBytes {cfg : Config} (hc : cfg.WellFormed) (m : Memory) (n : Nat) {c : Cache}
    (h : Cache.Wf cfg c) {ba : Nat} {w : Option Nat} (hb : ba + n ≤ 2 ^ cfg.bits) (hw : OnWay cfg c ba w) :
    Cache.Wf cfg (Cache.readBytes cfg m n c ba w).2 ∧
    (∀ a, FoundIs cfg c a (m.read a) → FoundIs cfg (Cache.readBytes cfg m n c ba w).2 a (m.read a)) ∧
    ((∀ j, j < n → FoundIs cfg c (ba + j) (m.read (ba + j))) →
      (Cache.readBytes cfg m n c ba w).1 = m.block ba n) := by
  induction n generalizing c ba w with
  | zero => exact ⟨h, fun _ hf => hf, fun _ => rfl⟩
  | succ n ih =>
    have hv := h.visit hc m (by omega) hw
    have hr := ih hv.1 (ba := ba + 1) (by omega) (onWay_succ hv.2.1)
    refine ⟨hr.1, fun a hf => hr.2.1 a (hf.visit hc h (by omega) hw), fun hall => ?_⟩
    have h0 : FoundIs cfg c ba (m.read ba) := hall 0 (by omega)
    have htail := hr.2.2 fun j hj => by
      have := (hall (j + 1) (by omega)).visit hc h (by omega) hw
      rwa [show ba + (j + 1) = ba + 1 + j by omega] at this
    simp only [Cache.readBytes, htail, (h0.visit hc h (by omega) hw) _ hv.2.1]
    simp only [Memory.block, List.range_succ_eq_map, List.map_cons, List.map_map, Nat.add_zero, List.cons.injEq,
      true_and]
    exact List.map_congr_left fun j _ => by simp only [Function.comp_apply]; congr 1; omega

/-- `CacheWrite`'s loop keeps the cache well formed (20_memory.md R53). -/
theorem Cache.Wf.writeBytes {cfg : Config} (hc : cfg.WellFormed) (m : Memory) (bs : List Byte) {c : Cache}
    (h : Cache.Wf cfg c) {ba : Nat} {w : Option Nat} (hb : ba + bs.length ≤ 2 ^ cfg.bits) (hw : OnWay cfg c ba w) :
    Cache.Wf cfg (Cache.writeBytes cfg m bs c ba w) := by
  induction bs generalizing c ba w with
  | nil => exact h
  | cons b bs ih =>
    simp only [List.length_cons] at hb
    have hv := h.visit hc m (by omega) hw
    refine ih (hv.1.putByte ba _ b) (by omega) (onWay_succ ?_)
    rw [hv.1.lookup_putByte hc]
    exact hv.2.1

/-- `CacheWrite`'s loop, address by address (20_memory.md R53): a written address is found to hold the byte written to
it, if it is still resident; any other keeps the byte `t` it was found to hold, if Memory has it too. -/
theorem Cache.Wf.writeBytes_found {cfg : Config} (hc : cfg.WellFormed) (m : Memory) (bs : List Byte) {c : Cache}
    (h : Cache.Wf cfg c) {ba : Nat} {w : Option Nat} (hb : ba + bs.length ≤ 2 ^ cfg.bits) (hw : OnWay cfg c ba w)
    {a : Nat} {t : Byte} (h1 : a < ba → FoundIs cfg c a t ∧ (w = none → t = m.read a))
    (h2 : ba ≤ a → a < ba + bs.length → bs[a - ba]? = some t)
    (h3 : ba + bs.length ≤ a → FoundIs cfg c a t ∧ t = m.read a) :
    FoundIs cfg (Cache.writeBytes cfg m bs c ba w) a t := by
  induction bs generalizing c ba w with
  | nil =>
    simp only [List.length_nil, Nat.add_zero] at h3
    by_cases hlt : a < ba
    · exact (h1 hlt).1
    · exact (h3 (by omega)).1
  | cons b bs ih =>
    simp only [List.length_cons] at hb h2 h3
    have hv := h.visit hc m (by omega) hw
    have hlk : (Cache.putByte cfg (c.visit cfg m ba w).2 ba (c.visit cfg m ba w).1 b).lookup cfg ba =
        some (c.visit cfg m ba w).1 := by
      rw [hv.1.lookup_putByte hc]
      exact hv.2.1
    have hother : a ≠ ba → FoundIs cfg c a t → ((w = none ∨ cacheOffset cfg ba = 0) → SameBlock cfg a ba →
        t = m.read a) →
        FoundIs cfg (Cache.putByte cfg (c.visit cfg m ba w).2 ba (c.visit cfg m ba w).1 b) a t := by
      intro hne hf hm x hx
      rw [hv.1.lookup_putByte hc] at hx
      rw [hv.1.byteAt_putByte hc b hv.2.1 hx, if_neg hne]
      rcases hv.2.2 a x hx with ⟨ho, e⟩ | ⟨hfill, hsb, e⟩
      · rw [e]
        exact hf x ho
      · rw [e, hm hfill hsb]
    refine ih (hv.1.putByte ba _ b) (by omega) (onWay_succ hlk) ?_ ?_ ?_
    · intro hlt
      refine ⟨?_, fun e => by cases e⟩
      by_cases hab : a = ba
      · subst hab
        have hbt : b = t := by simpa using h2 (Nat.le_refl _) (by omega)
        intro x hx
        rw [hv.1.lookup_putByte hc] at hx
        rw [hv.1.byteAt_putByte hc b hv.2.1 hx, if_pos rfl, hbt]
      · refine hother hab (h1 (by omega)).1 fun hfill hsb => ?_
        rcases hfill with hn | ho
        · exact (h1 (by omega)).2 hn
        · have := hsb.le_of_offset_zero ho
          omega
    · intro hle hlt
      have := h2 (by omega) (by omega)
      rwa [show a - ba = (a - (ba + 1)) + 1 by omega, List.getElem?_cons_succ] at this
    · intro hle
      exact ⟨hother (by omega) (h3 (by omega)).1 fun _ _ => (h3 (by omega)).2, (h3 (by omega)).2⟩

/-! Bus addresses (20_memory.md R43, R44). -/

theorem busAddr_lt (cfg : Config) (ea : Int) : busAddr cfg ea < 2 ^ cfg.bits := by
  have hp : (0 : Int) < 2 ^ cfg.bits := Int.pow_pos (by decide)
  have h1 := Int.emod_nonneg ea (Int.ne_of_gt hp)
  have h2 := Int.emod_lt_of_pos ea hp
  have h3 : ((2 ^ cfg.bits : Nat) : Int) = 2 ^ cfg.bits := by norm_cast
  unfold busAddr
  omega

theorem four_dvd_pow {cfg : Config} (hc : cfg.WellFormed) : 4 ∣ 2 ^ cfg.bits :=
  Nat.pow_dvd_pow 2 (show 2 ≤ cfg.bits by have := hc.1; omega)

theorem busAddr_aligned {cfg : Config} (hc : cfg.WellFormed) {ea : Int} (h : Aligned ea) : busAddr cfg ea % 4 = 0 := by
  have hp : (0 : Int) < 2 ^ cfg.bits := Int.pow_pos (by decide)
  have h1 := Int.emod_nonneg ea (Int.ne_of_gt hp)
  have h3 : ((2 ^ cfg.bits : Nat) : Int) = 2 ^ cfg.bits := by norm_cast
  obtain ⟨q, hq⟩ := four_dvd_pow hc
  have h4 : (4 : Int) ∣ 2 ^ cfg.bits := ⟨q, by rw [← h3, hq]; push_cast; rfl⟩
  have h5 : ea % 2 ^ cfg.bits % 4 = ea % 4 := Int.emod_emod_of_dvd ea h4
  unfold busAddr
  unfold Aligned at h
  omega

/-- An aligned dword does not cross the top of the address space (20_memory.md R41). -/
theorem aligned_dword_fits {cfg : Config} (hc : cfg.WellFormed) {ba : Nat} (hb : ba < 2 ^ cfg.bits)
    (ha : ba % 4 = 0) : ba + 4 ≤ 2 ^ cfg.bits := by
  obtain ⟨q, hq⟩ := four_dvd_pow hc
  omega

theorem busAddr_fits {cfg : Config} (hc : cfg.WellFormed) {ea : Int} (h : Aligned ea) :
    busAddr cfg ea + 4 ≤ 2 ^ cfg.bits :=
  aligned_dword_fits hc (busAddr_lt cfg ea) (busAddr_aligned hc h)

theorem onWay_none (cfg : Config) (c : Cache) (ba : Nat) : OnWay cfg c ba none := fun _ h => by cases h

/-! The state's accesses. -/

theorem block_four (m : Memory) (ba : Nat) : dwordOfBytes (m.block ba 4) = m.dword ba := rfl

/-- `CacheRead` answers Memory's dword where the lines agree with Memory (20_memory.md R52). -/
theorem State.cacheRead_dword {s : State} (h : s.Wf) {ba : Nat} (hb : ba + 4 ≤ 2 ^ s.cfg.bits)
    (hf : ∀ j, j < 4 → FoundIs s.cfg s.cache (ba + j) (s.mem.read (ba + j))) :
    (s.cacheRead ba).1 = s.mem.dword ba := by
  rw [State.cacheRead_fst, (h.2.2.1.readBytes h.1 s.mem 4 hb (onWay_none _ _ _)).2.2 hf, block_four]

/-- `CacheRead` keeps a state well formed. -/
theorem State.Wf.cacheRead {s : State} (h : s.Wf) {ba : Nat} (hb : ba + 4 ≤ 2 ^ s.cfg.bits) :
    (s.cacheRead ba).2.Wf :=
  ⟨h.1, h.2.1, (h.2.2.1.readBytes h.1 s.mem 4 hb (onWay_none _ _ _)).1, h.2.2.2⟩

/-- `CacheWrite` keeps a state well formed, write-through or not. -/
theorem State.Wf.cacheWrite {s : State} (h : s.Wf) {ba : Nat} (hb : ba + 4 ≤ 2 ^ s.cfg.bits) (v : Word) (mw : Bool) :
    (s.cacheWrite ba v mw).Wf := by
  refine ⟨h.1, ?_, h.2.2.1.writeBytes h.1 s.mem (wordBytes v) hb (onWay_none _ _ _), h.2.2.2⟩
  cases mw with
  | false => exact h.2.1
  | true =>
    refine ⟨Memory.writeBytes_wf ba _ h.2.1.1, fun c hc => ?_⟩
    rcases Memory.mem_writeBytes hc with hc | hc
    · exact h.2.1.2 c hc
    · have := hc.2
      rw [wordBytes_length] at this
      show c.1 < 2 ^ s.cfg.bits
      omega

theorem pow_k_pos (cfg : Config) : 0 < 2 ^ cfg.k := Nat.two_pow_pos _

/-- The parts of an address put together from a tag, an index and an offset. -/
theorem parts_of_blockAddr {cfg : Config} {tag i o : Nat} (hi : i < 2 ^ cfg.setBits) (ho : o < 2 ^ cfg.k) :
    cacheTag cfg (blockAddr cfg tag i + o) = tag ∧ cacheIndex cfg (blockAddr cfg tag i + o) = i ∧
      cacheOffset cfg (blockAddr cfg tag i + o) = o := by
  have hk := pow_k_pos cfg
  have e : blockAddr cfg tag i + o = o + 2 ^ cfg.k * (i + 2 ^ cfg.setBits * tag) := by
    simp only [blockAddr, Nat.pow_add, Nat.mul_add, Nat.mul_comm, Nat.mul_left_comm]
    omega
  have hd : (blockAddr cfg tag i + o) / 2 ^ cfg.k = i + 2 ^ cfg.setBits * tag := by
    rw [e, Nat.add_mul_div_left _ _ hk, Nat.div_eq_of_lt ho, Nat.zero_add]
  refine ⟨?_, ?_, ?_⟩
  · rw [cacheTag, Nat.pow_add, ← Nat.div_div_eq_div_mul, hd, Nat.add_mul_div_left _ _ (Nat.two_pow_pos _),
      Nat.div_eq_of_lt hi, Nat.zero_add]
  · rw [cacheIndex, hd, Nat.add_mul_mod_self_left, Nat.mod_eq_of_lt hi]
  · rw [cacheOffset, e, Nat.add_mul_mod_self_left, Nat.mod_eq_of_lt ho]

/-- A coherent state, address by address: every resident byte is Memory's (10_state.md R34(d)). -/
theorem State.coherent_iff {s : State} (h : s.Wf) :
    s.Coherent ↔ ∀ a, FoundIs s.cfg s.cache a (s.mem.read a) := by
  constructor
  · intro hco a x hx
    obtain ⟨ln, hln, ht⟩ := CacheSet.lookup_some hx
    have hg := h.2.2.1.getElem? (cacheIndex_lt h.1 a)
    have := hco (s.cache.setAt (cacheIndex s.cfg a), cacheIndex s.cfg a)
      (List.mem_zipIdx_iff_getElem?.2 hg) _ (List.mem_of_getElem? hln) ln rfl
    rw [Cache.byteAt_eq hln, this, ht]
    simp only [List.getD_eq_getElem?_getD, Memory.block_getElem?, cacheOffset_lt, if_true, Option.getD_some,
      blockAddr_add_offset]
  · intro hf p hp l hl ln hln
    have hg := List.mem_zipIdx_iff_getElem?.1 hp
    have hi : p.2 < s.cfg.size := by
      have := (List.getElem?_eq_some_iff.1 hg).1
      rwa [h.2.2.1.1] at this
    have hs := h.2.2.1.2 p.1 (List.mem_of_getElem? hg)
    obtain ⟨w, hw⟩ := List.mem_iff_getElem?.1 hl
    rw [Option.mem_def.1 hln] at hw
    have hlen := (hs.2.2.1 _ (List.mem_of_getElem? hw) ln rfl).1
    refine List.ext_getElem? fun o => ?_
    rw [Memory.block_getElem?]
    split
    · next ho =>
      have hpar := parts_of_blockAddr (cfg := s.cfg) (tag := ln.tag) (o := o) (by rw [← h.1.2.2.1]; exact hi) ho
      have hset : s.cache.setAt (cacheIndex s.cfg (blockAddr s.cfg ln.tag p.2 + o)) = p.1 := by
        rw [hpar.2.1, Cache.setAt_eq hg]
      have hlk : s.cache.lookup s.cfg (blockAddr s.cfg ln.tag p.2 + o) = some w := by
        unfold Cache.lookup
        rw [hset, hpar.1]
        exact hs.lookup_of hw rfl
      have := hf _ w hlk
      rw [Cache.byteAt_eq (by rw [hset]; exact hw), hpar.2.2] at this
      rw [← this]
      simp [hlen, ho]
    · next ho => exact List.getElem?_eq_none (by omega)

/-- `CacheRead` keeps a state coherent. -/
theorem State.Coherent.cacheRead {s : State} (h : s.Wf) (hco : s.Coherent) {ba : Nat} (hb : ba + 4 ≤ 2 ^ s.cfg.bits) :
    (s.cacheRead ba).2.Coherent := by
  rw [State.coherent_iff h] at hco
  rw [State.coherent_iff (h.cacheRead hb)]
  exact fun a => (h.2.2.1.readBytes h.1 s.mem 4 hb (onWay_none _ _ _)).2.1 a (hco a)

/-- After a write-through, every address of the dword that is resident agrees with Memory, and so does every other
address that did before. -/
theorem State.cacheWrite_found {s : State} (h : s.Wf) {ba : Nat} (hb : ba + 4 ≤ 2 ^ s.cfg.bits) (v : Word) {a : Nat}
    (ha : (ba ≤ a ∧ a < ba + 4) ∨ FoundIs s.cfg s.cache a (s.mem.read a)) :
    FoundIs s.cfg (s.cacheWrite ba v true).cache a ((s.cacheWrite ba v true).mem.read a) := by
  have hread : (s.cacheWrite ba v true).mem.read a =
      if ba ≤ a ∧ a < ba + 4 then (wordBytes v).getD (a - ba) 0 else s.mem.read a := by
    simp only [State.cacheWrite_mem, if_true]
    exact Memory.read_writeBytes ba (wordBytes v) a h.2.1.1
  rw [hread]
  refine h.2.2.1.writeBytes_found h.1 s.mem (wordBytes v) hb (onWay_none _ _ _) ?_ ?_ ?_
  · intro hlt
    have : ¬ (ba ≤ a ∧ a < ba + 4) := by omega
    rw [if_neg this]
    exact ⟨ha.resolve_left this, fun _ => rfl⟩
  · intro hle hlt
    rw [wordBytes_length] at hlt
    rw [if_pos ⟨hle, hlt⟩, List.getD_eq_getElem?_getD, List.getElem?_eq_getElem (by rw [wordBytes_length]; omega)]
    rfl
  · intro hle
    rw [wordBytes_length] at hle
    have : ¬ (ba ≤ a ∧ a < ba + 4) := by omega
    rw [if_neg this]
    exact ⟨ha.resolve_left this, rfl⟩

/-- After a write-through Memory holds the dword (20_memory.md R53). -/
theorem State.cacheWrite_dword {s : State} (h : s.mem.wf) (ba : Nat) (v : Word) :
    (s.cacheWrite ba v true).mem.dword ba = v := by
  simp only [Memory.dword, State.cacheWrite_mem, if_true, Memory.read_writeBytes _ _ _ h, wordBytes_length]
  simp [wordBytes, packWord_bytes]

/-- A read after a write-through of the same dword answers it, coherent or not (20_memory.md R56). -/
theorem State.cacheRead_cacheWrite {s : State} (h : s.Wf) {ba : Nat} (hb : ba + 4 ≤ 2 ^ s.cfg.bits) (v : Word) :
    ((s.cacheWrite ba v true).cacheRead ba).1 = v := by
  rw [State.cacheRead_dword (h.cacheWrite hb v true) hb fun j hj =>
    State.cacheWrite_found h hb v (.inl ⟨by omega, by omega⟩), State.cacheWrite_dword h.2.1.1]

/-- A write-through keeps a state coherent (20_memory.md R53). -/
theorem State.Coherent.cacheWrite {s : State} (h : s.Wf) (hco : s.Coherent) {ba : Nat} (hb : ba + 4 ≤ 2 ^ s.cfg.bits)
    (v : Word) : (s.cacheWrite ba v true).Coherent := by
  rw [State.coherent_iff h] at hco
  rw [State.coherent_iff (h.cacheWrite hb v true)]
  exact fun a => State.cacheWrite_found h hb v (.inr (hco a))

/-! What well-formedness and coherence depend on: not the registers, the flags or the run state. -/

theorem State.Wf.congr {s t : State} (h : s.Wf) (hcfg : t.cfg = s.cfg) (hmem : t.mem = s.mem)
    (hcache : t.cache = s.cache) (hstk : StackFits s.cfg t.stk) : t.Wf := by
  simp only [State.Wf, hcfg, hmem, hcache]
  exact ⟨h.1, h.2.1, h.2.2.1, hstk⟩

theorem State.Coherent.congr {s t : State} (h : s.Coherent) (hcfg : t.cfg = s.cfg) (hmem : t.mem = s.mem)
    (hcache : t.cache = s.cache) : t.Coherent := by
  simp only [State.Coherent, hcfg, hmem, hcache]
  exact h

end Sys2Proof.Machine
end

