-- ==== Sys2Proof/Laws/Decode.lean ====
section
/-! SUPPORT. Fields of packed words, register ids, and the masks of the opcode table. -/

namespace Sys2Proof

open Machine

@[simp] theorem Reg.ofId?_id (r : Reg) : Reg.ofId? r.id = some r := by cases r <;> rfl

@[simp] theorem Reg.ofId?_field (r : Reg) : Reg.ofId? r.field.toNat = some r := by cases r <;> rfl

theorem Reg.id_of_ofId? {n : Nat} {r : Reg} (h : Reg.ofId? n = some r) : r.id = n := by
  unfold Reg.ofId? at h
  split at h <;> first | cases h; rfl | cases h

/-- An id names a register exactly when it is at most 8 (30_encoding.md R73). -/
theorem Reg.ofId?_eq_none {n : Nat} : Reg.ofId? n = none ↔ 8 < n := by
  constructor
  · intro h
    unfold Reg.ofId? at h
    split at h <;> cases h
    next h0 h1 h2 h3 h4 h5 h6 h7 h8 => simp at *; omega
  · intro h
    unfold Reg.ofId?
    split <;> first | omega | rfl

/-- The word with a 16-bit immediate, byte by byte. -/
theorem imm_eq_packWord (b0 b1 : Byte) (z : BitVec 16) :
    (b0 ++ b1 ++ z : Word) = packWord b0 b1 (z.extractLsb' 8 8) (z.extractLsb' 0 8) := by
  have hz : z = (z.extractLsb' 8 8 ++ z.extractLsb' 0 8 : BitVec 16) := by
    apply BitVec.eq_of_getLsbD_eq
    intro i hi
    simp only [BitVec.getLsbD_append, BitVec.getLsbD_extractLsb']
    split
    · next h => simp [h]
    · next h => simp [show i - 8 < 8 by omega, show 8 + (i - 8) = i by omega]
  conv => lhs; rw [hz]
  apply BitVec.eq_of_getLsbD_eq
  intro i _
  simp only [packWord, BitVec.getLsbD_append]
  by_cases h1 : i < 8
  · simp [h1, show i < 16 by omega]
  · by_cases h2 : i < 16
    · simp [h1, h2, show i - 8 < 8 by omega]
    · simp [h1, h2, show ¬ i - 8 < 8 by omega, show i - 8 - 8 = i - 16 by omega]

/-- The word with a 24-bit target, byte by byte. -/
theorem target_eq_packWord (b0 : Byte) (j : BitVec 24) :
    (b0 ++ j : Word) = packWord b0 (j.extractLsb' 16 8) (j.extractLsb' 8 8) (j.extractLsb' 0 8) := by
  apply BitVec.eq_of_getLsbD_eq
  intro i _
  simp only [packWord, BitVec.getLsbD_append, BitVec.getLsbD_extractLsb']
  by_cases h1 : i < 8
  · simp [h1, show i < 24 by omega]
  · by_cases h2 : i < 16
    · simp [h1, show i < 24 by omega, show i - 8 < 8 by omega, show 8 + (i - 8) = i by omega]
    · by_cases h3 : i < 24
      · simp [h1, h3, show ¬ i - 8 < 8 by omega, show i - 8 - 8 < 8 by omega,
          show 16 + (i - 8 - 8) = i by omega]
      · simp [h1, h3, show ¬ i - 8 < 8 by omega, show ¬ i - 8 - 8 < 8 by omega,
          show i - 8 - 8 - 8 = i - 24 by omega]

theorem byte0_imm (b0 b1 : Byte) (z : BitVec 16) : byte0 (b0 ++ b1 ++ z : Word) = b0 := by
  rw [imm_eq_packWord, packWord_byte0]

theorem byte1_imm (b0 b1 : Byte) (z : BitVec 16) : byte1 (b0 ++ b1 ++ z : Word) = b1 := by
  rw [imm_eq_packWord, packWord_byte1]

theorem byte0_target (b0 : Byte) (j : BitVec 24) : byte0 (b0 ++ j : Word) = b0 := by
  rw [target_eq_packWord, packWord_byte0]

theorem byte1_target (b0 : Byte) (j : BitVec 24) : byte1 (b0 ++ j : Word) = j.extractLsb' 16 8 := by
  rw [target_eq_packWord, packWord_byte1]

/-- The immediate field of a word read back (30_encoding.md R74). -/
theorem immOf_imm (b0 b1 : Byte) (z : BitVec 16) : immOf (b0 ++ b1 ++ z : Word) = z.toInt := by
  unfold immOf
  congr 1
  apply BitVec.eq_of_getLsbD_eq
  intro i hi
  simp only [BitVec.getLsbD_append, BitVec.getLsbD_extractLsb']
  simp [hi]

/-- The target field of a word read back (30_encoding.md R74). -/
theorem targetOf_target (b0 : Byte) (j : BitVec 24) : targetOf (b0 ++ j : Word) = j.toInt := by
  unfold targetOf
  congr 1
  apply BitVec.eq_of_getLsbD_eq
  intro i hi
  simp only [BitVec.getLsbD_append, BitVec.getLsbD_extractLsb']
  simp [hi]

/-- The two nibbles of an arr operand's byte (30_encoding.md R76). -/
theorem arr_base (bs ix : BitVec 4) : ((bs ++ ix : Byte) >>> 4).toNat = bs.toNat := by
  revert bs ix
  decide

theorem arr_index (bs ix : BitVec 4) : ((bs ++ ix : Byte) &&& 0x0F).toNat = ix.toNat := by
  revert bs ix
  decide

theorem withReg_some (w : Word) {f : Byte} {r : Reg} (use : Reg → Except DecodeReject Instr)
    (h : Reg.ofId? f.toNat = some r) : withReg w f use = use r := by
  simp [withReg, h]

theorem withReg_bad (w : Word) {f : Byte} (use : Reg → Except DecodeReject Instr) (h : 8 < f.toNat) :
    withReg w f use = .error (.badRegister w) := by
  simp [withReg, Reg.ofId?_eq_none.2 h]

@[simp] theorem withReg_field (w : Word) (r : Reg) (use : Reg → Except DecodeReject Instr) :
    withReg w r.field use = use r := withReg_some w use (Reg.ofId?_field r)

theorem withArr_some (w : Word) {bs ix : BitVec 4} {rb ri : Reg} (use : Reg → Reg → Except DecodeReject Instr)
    (hb : Reg.ofId? bs.toNat = some rb) (hi : Reg.ofId? ix.toNat = some ri) :
    withArr w (bs ++ ix) use = use rb ri := by
  rw [withArr, withReg_some w _ (by rw [arr_base]; exact hb), withReg_some w _ (by rw [arr_index]; exact hi)]

theorem withArr_bad (w : Word) {bs ix : BitVec 4} (use : Reg → Reg → Except DecodeReject Instr)
    (h : 8 < bs.toNat ∨ 8 < ix.toNat) : withArr w (bs ++ ix) use = .error (.badRegister w) := by
  unfold withArr
  by_cases hb : 8 < bs.toNat
  · exact withReg_bad w _ (by rwa [arr_base])
  · obtain ⟨rb, hrb⟩ := Option.ne_none_iff_exists'.1 (mt Reg.ofId?_eq_none.1 hb)
    rw [withReg_some w _ (by rw [arr_base]; exact hrb)]
    exact withReg_bad w _ (by rw [arr_index]; exact h.resolve_left hb)

@[simp] theorem withArr_field (w : Word) (rb ri : Reg) (use : Reg → Reg → Except DecodeReject Instr) :
    withArr w (arrField rb ri) use = use rb ri :=
  withArr_some w use (by cases rb <;> rfl) (by cases ri <;> rfl)

/-- `sext_N(tc_N(v)) = v` in the three field widths (00_scope.md R9). -/
theorem dispField_toInt {d : Int} (h : DispFits d) : (dispField d).toInt = d := by
  rw [dispField, BitVec.toInt_ofInt, Int.bmod_def]
  simp only [DispFits] at h
  split <;> omega

theorem immField_toInt {v : Int} (h : ImmFits v) : (BitVec.ofInt 16 v).toInt = v := by
  rw [BitVec.toInt_ofInt, Int.bmod_def]
  simp only [ImmFits] at h
  split <;> omega

theorem targetField_toInt {t : Int} (h : TargetFits t) : (BitVec.ofInt 24 t).toInt = t := by
  rw [BitVec.toInt_ofInt, Int.bmod_def]
  simp only [TargetFits] at h
  split <;> omega

/-- Masking byte by byte. -/
theorem packWord_and (a b c d a' b' c' d' : Byte) :
    packWord a b c d &&& packWord a' b' c' d' = packWord (a &&& a') (b &&& b') (c &&& c') (d &&& d') := by
  apply BitVec.eq_of_getLsbD_eq
  intro i _
  simp only [packWord, BitVec.getLsbD_and, BitVec.getLsbD_append]
  by_cases h1 : i < 8
  · simp [h1]
  · by_cases h2 : i - 8 < 8
    · simp [h1, h2]
    · by_cases h3 : i - 8 - 8 < 8 <;> simp [h1, h2, h3]

/-- A row that fixes the first byte only. -/
theorem packWord_mask_first (a b c d : Byte) : packWord a b c d &&& 0xFF000000 = packWord a 0 0 0 := by
  rw [show (0xFF000000 : Word) = packWord 0xFF 0 0 0 from rfl, packWord_and]
  simp [show a &&& 255#8 = a from BitVec.and_allOnes]

/-- A row that fixes the first two bytes. -/
theorem packWord_mask_two (a b c d : Byte) : packWord a b c d &&& 0xFFFF0000 = packWord a b 0 0 := by
  rw [show (0xFFFF0000 : Word) = packWord 0xFF 0xFF 0 0 from rfl, packWord_and]
  simp [show ∀ x : Byte, x &&& 255#8 = x from fun _ => BitVec.and_allOnes]

/-- A row that fixes every byte but the second. -/
theorem packWord_mask_reg (a b c d : Byte) : packWord a b c d &&& 0xFF00FFFF = packWord a 0 c d := by
  rw [show (0xFF00FFFF : Word) = packWord 0xFF 0 0xFF 0xFF from rfl, packWord_and]
  simp [show ∀ x : Byte, x &&& 255#8 = x from fun _ => BitVec.and_allOnes]

end Sys2Proof
end

