-- ==== Sys2Proof/Laws/Ops.lean ====
section
/-! SUPPORT. What each shared operation can do: one lemma per case, and the cases of a whole step. -/

namespace Sys2Proof.Machine

theorem State.writeChecked_inRange (s : State) (r : Reg) {v : Int} (next : State → Outcome) (h : InRange v) :
    s.writeChecked r v next = next (s.setX r v) := if_pos h

theorem State.writeChecked_raises (s : State) (r : Reg) {v : Int} (next : State → Outcome) (h : ¬ InRange v) :
    s.writeChecked r v next = .next (s.raise (.rangeError v)) := if_neg h

theorem State.push_full (s : State) (v : Word) (next : State → Outcome)
    (h : s.cfg.stackDepth = some s.stk.length) : s.push v next = .next (s.raise .stackOverflow) := if_pos h

theorem State.push_room (s : State) (v : Word) (next : State → Outcome)
    (h : s.cfg.stackDepth ≠ some s.stk.length) : s.push v next = next { s with stk := s.stk ++ [v] } := if_neg h

theorem State.pop_empty (s : State) (next : Word → State → Outcome) (h : s.stk = []) :
    s.pop next = .next (s.raise .stackUnderflow) := by
  simp [State.pop, h]

theorem State.pop_concat (s : State) (next : Word → State → Outcome) {l : List Word} {v : Word}
    (h : s.stk = l ++ [v]) : s.pop next = next v { s with stk := l } := by
  simp [State.pop, h]

theorem State.memRead_aligned (s : State) {ea : Int} (next : Word → State → Outcome) (h : Aligned ea) :
    s.memRead ea next = next (s.cacheRead (busAddr s.cfg ea)).1 (s.cacheRead (busAddr s.cfg ea)).2 := if_pos h

theorem State.memRead_raises (s : State) {ea : Int} (next : Word → State → Outcome) (h : ¬ Aligned ea) :
    s.memRead ea next = .next (s.raise (.misalignedAccess ea)) := if_neg h

theorem State.memWrite_aligned (s : State) {ea : Int} (v : Word) (next : State → Outcome) (h : Aligned ea) :
    s.memWrite ea v next = next (s.cacheWrite (busAddr s.cfg ea) v true) := if_pos h

theorem State.memWrite_raises (s : State) {ea : Int} (v : Word) (next : State → Outcome) (h : ¬ Aligned ea) :
    s.memWrite ea v next = .next (s.raise (.misalignedAccess ea)) := if_neg h

theorem State.commit_ready (s : State) {t : State} (h : t.run = .ready) : s.commit t = t := by
  simp [State.commit, h]

theorem State.commit_halted (s : State) {t : State} {e : ErrorRecord} (h : t.run = .halted e) :
    s.commit t = s.haltedWith t.cache e := by
  simp [State.commit, h, State.haltedWith]

theorem commitOutcome_next (s t : State) : commitOutcome s (.next t) = .next (s.commit t) := rfl

/-! Each instruction's meaning over the shared operations. -/

theorem exec_lea (rd : Reg) (d : Int) (s : State) : exec (.lea rd d) s = s.writeChecked rd (s.memEA d) .next := rfl
theorem exec_push (r : Reg) (s : State) : exec (.push r) s = s.push (s.regs.get r) .next := rfl
theorem exec_pop (r : Reg) (s : State) : exec (.pop r) s = s.pop fun v s1 => .next (s1.setReg r v) := rfl
theorem exec_call (t : Int) (s : State) :
    exec (.call t) s = s.push (s.regs.get .pc) fun s1 => .next (s1.jumpTo t) := rfl
theorem exec_ret (s : State) : exec .ret s = s.pop fun v s1 => .next (s1.setReg .pc v) := rfl
theorem exec_movRegMem (rd : Reg) (d : Int) (s : State) :
    exec (.movRegMem rd d) s = s.memRead (s.memEA d) fun w s1 => .next (s1.setReg rd w) := rfl
theorem exec_movRegArr (rd rb ri : Reg) (s : State) :
    exec (.movRegArr rd rb ri) s = s.memRead (s.arrEA rb ri) fun w s1 => .next (s1.setReg rd w) := rfl
theorem exec_movMemImm (d v : Int) (s : State) :
    exec (.movMemImm d v) s = s.memWrite (s.memEA d) (BitVec.ofInt 32 v) .next := rfl
theorem exec_movMemReg (d : Int) (rs : Reg) (s : State) :
    exec (.movMemReg d rs) s = s.memWrite (s.memEA d) (s.regs.get rs) .next := rfl
theorem exec_cmpRegMem (ra : Reg) (d : Int) (s : State) :
    exec (.cmpRegMem ra d) s = s.memRead (s.memEA d) fun w s1 => .next (s1.compare (s1.x ra) w.toInt) := rfl
theorem exec_cmpRegArr (ra rb ri : Reg) (s : State) :
    exec (.cmpRegArr ra rb ri) s =
      s.memRead (s.arrEA rb ri) fun w s1 => .next (s1.compare (s1.x ra) w.toInt) := rfl

/-! The phases of a step (10_state.md R24). -/

theorem State.fetchDecode_misaligned (s : State) (k : Instr → State → Outcome) (h : ¬ Aligned (s.x .pc)) :
    s.fetchDecode k = .next (s.raise (.misalignedAccess (s.x .pc))) := s.memRead_raises _ h

theorem State.fetchDecode_illegal (s : State) (k : Instr → State → Outcome) {e : DecodeReject}
    (h : Aligned (s.x .pc)) (hd : decode s.fetchedWord = .error e) :
    s.fetchDecode k = .next (s.afterFetch.raise (.decodeError s.fetchedWord)) := by
  simp only [State.fetchedWord] at hd
  simp only [State.fetchDecode, s.memRead_aligned _ h, hd, State.afterFetch, State.fetchedWord]

theorem State.fetchDecode_legal (s : State) (k : Instr → State → Outcome) {i : Instr}
    (h : Aligned (s.x .pc)) (hd : decode s.fetchedWord = .ok i) :
    s.fetchDecode k = s.afterFetch.writeChecked .pc (s.x .pc + 4) (k i) := by
  simp only [State.fetchedWord] at hd
  simp only [State.fetchDecode, s.memRead_aligned _ h, hd, State.afterFetch]

theorem step_ready {s : State} (h : s.run = .ready) : step s = commitOutcome s (s.fetchDecode exec) := by
  simp only [step, State.stepWith, h]

/-- A step whose fetch, decode and pc advance raise nothing is the Execute phase, committed. -/
theorem State.Fetches.step_eq {s s1 : State} {i : Instr} (h : s.Fetches i s1) :
    step s = commitOutcome s (exec i s1) := by
  obtain ⟨hr, ha, hd, hi, rfl⟩ := h
  rw [step_ready hr, s.fetchDecode_legal _ ha hd, State.writeChecked_inRange _ _ _ hi]

end Sys2Proof.Machine
end

