-- ==== Sys2Proof/Laws/PerInstr.lean ====
section
/-! SUPPORT. Family TableRow: the word of an instruction lies in its row of opcode_table.json. -/

namespace Sys2Proof.Laws.TableRow

open Sys2Proof Sys2Proof.Machine

/-- The encoder's word has the row's fixed bits, whatever the operands. -/
def Statement (i : Instr) : Prop := encode i &&& i.opcodeRow.2 = i.opcodeRow.1

theorem lea (rd : Reg) (d : Int) : Statement (.lea rd d) := packWord_mask_two ..
theorem push (r : Reg) : Statement (.push r) := packWord_mask_reg ..
theorem pop (r : Reg) : Statement (.pop r) := packWord_mask_reg ..
theorem call (t : Int) : Statement (.call t) := by
  simp only [Statement, encode, wordOfTarget, target_eq_packWord, Instr.opcodeRow, packWord_mask_first]
  rfl
theorem ret : Statement .ret := rfl
theorem movRegReg (rd rs : Reg) : Statement (.movRegReg rd rs) := packWord_mask_two ..
theorem movRegImm (rd : Reg) (v : Int) : Statement (.movRegImm rd v) := by
  simp only [Statement, encode, wordOfImm, imm_eq_packWord, Instr.opcodeRow, packWord_mask_first]
  rfl
theorem movRegMem (rd : Reg) (d : Int) : Statement (.movRegMem rd d) := packWord_mask_two ..
theorem movRegArr (rd rb ri : Reg) : Statement (.movRegArr rd rb ri) := packWord_mask_two ..
theorem movMemImm (d v : Int) : Statement (.movMemImm d v) := by
  simp only [Statement, encode, wordOfImm, imm_eq_packWord, Instr.opcodeRow, packWord_mask_first]
  rfl
theorem movMemReg (d : Int) (rs : Reg) : Statement (.movMemReg d rs) := packWord_mask_two ..
theorem addRegImm (rd : Reg) (v : Int) : Statement (.addRegImm rd v) := by
  simp only [Statement, encode, wordOfImm, imm_eq_packWord, Instr.opcodeRow, packWord_mask_first]
  rfl
theorem addRegReg (rd rs : Reg) : Statement (.addRegReg rd rs) := packWord_mask_two ..
theorem subRegImm (rd : Reg) (v : Int) : Statement (.subRegImm rd v) := by
  simp only [Statement, encode, wordOfImm, imm_eq_packWord, Instr.opcodeRow, packWord_mask_first]
  rfl
theorem subRegReg (rd rs : Reg) : Statement (.subRegReg rd rs) := packWord_mask_two ..
theorem cmpRegReg (ra rb : Reg) : Statement (.cmpRegReg ra rb) := packWord_mask_two ..
theorem cmpRegMem (ra : Reg) (d : Int) : Statement (.cmpRegMem ra d) := packWord_mask_two ..
theorem cmpRegImm (ra : Reg) (v : Int) : Statement (.cmpRegImm ra v) := by
  simp only [Statement, encode, wordOfImm, imm_eq_packWord, Instr.opcodeRow, packWord_mask_first]
  rfl
theorem cmpRegArr (ra rb ri : Reg) : Statement (.cmpRegArr ra rb ri) := packWord_mask_two ..
theorem jmp (t : Int) : Statement (.jmp t) := by
  simp only [Statement, encode, wordOfTarget, target_eq_packWord, Instr.opcodeRow, packWord_mask_first]
  rfl
theorem je (t : Int) : Statement (.je t) := by
  simp only [Statement, encode, wordOfTarget, target_eq_packWord, Instr.opcodeRow, packWord_mask_first]
  rfl
theorem jne (t : Int) : Statement (.jne t) := by
  simp only [Statement, encode, wordOfTarget, target_eq_packWord, Instr.opcodeRow, packWord_mask_first]
  rfl
theorem jl (t : Int) : Statement (.jl t) := by
  simp only [Statement, encode, wordOfTarget, target_eq_packWord, Instr.opcodeRow, packWord_mask_first]
  rfl
theorem jge (t : Int) : Statement (.jge t) := by
  simp only [Statement, encode, wordOfTarget, target_eq_packWord, Instr.opcodeRow, packWord_mask_first]
  rfl
theorem jle (t : Int) : Statement (.jle t) := by
  simp only [Statement, encode, wordOfTarget, target_eq_packWord, Instr.opcodeRow, packWord_mask_first]
  rfl
theorem jg (t : Int) : Statement (.jg t) := by
  simp only [Statement, encode, wordOfTarget, target_eq_packWord, Instr.opcodeRow, packWord_mask_first]
  rfl

end Sys2Proof.Laws.TableRow
end

