-- ==== Sys2Proof/Laws/Residency.lean ====
section
/-! SUPPORT. Which bytes stay resident (20_memory.md R49 to R54): accesses to resident blocks and to other dwords leave
a resident byte as it is, and a dword just written is resident where the cache has room for one. -/

namespace Sys2Proof.Machine

theorem Cache.lookup_congr {cfg : Config} {c : Cache} {a b : Nat} (h : SameBlock cfg a b) :
    c.lookup cfg a = c.lookup cfg b := by
  unfold Cache.lookup
  rw [h.1, h.2]

/-- A visit of a resident block changes recency only, and answers its way. -/
theorem Cache.Wf.visit_hit {cfg : Config} {c : Cache} (hc : cfg.WellFormed) (h : Cache.Wf cfg c) (m : Memory)
    {ba x : Nat} {w : Option Nat} (hw : OnWay cfg c ba w) (hx : c.lookup cfg ba = some x) :
    (c.visit cfg m ba w).1 = x ∧
      ∀ a, (c.visit cfg m ba w).2.lookup cfg a = c.lookup cfg a ∧
        ∀ y, (c.visit cfg m ba w).2.byteAt cfg a y = c.byteAt cfg a y := by
  have hens : (c.ensure cfg m ba).1 = x ∧ ∀ a, (c.ensure cfg m ba).2.lookup cfg a = c.lookup cfg a ∧
      ∀ y, (c.ensure cfg m ba).2.byteAt cfg a y = c.byteAt cfg a y := by
    rcases Cache.ensure_cases cfg m c ba with ⟨w', hl, e⟩ | ⟨hl, -⟩
    · rw [e]
      refine ⟨Option.some.inj (hl.symm.trans hx), fun a => ?_⟩
      simp only [Cache.lookup, Cache.byteAt, h.setAt_set (cacheIndex_lt hc ba)]
      split
      · next ei => rw [← ei]; exact ⟨rfl, fun _ => rfl⟩
      · exact ⟨rfl, fun _ => rfl⟩
    · rw [hl] at hx
      cases hx
  cases w with
  | none => exact hens
  | some y =>
    by_cases ho : cacheOffset cfg ba = 0
    · simpa [Cache.visit, ho] using hens
    · have hy := hw y rfl ho
      simp only [Cache.visit, ho, if_false]
      exact ⟨Option.some.inj (hy.symm.trans hx), fun _ => ⟨trivial, fun _ => trivial⟩⟩

/-- The block of `a` is resident and its byte at `a` is `t`. -/
def Held (cfg : Config) (c : Cache) (a : Nat) (t : Byte) : Prop :=
  ∃ x, c.lookup cfg a = some x ∧ c.byteAt cfg a x = t

/-- `CacheRead`'s loop over resident bytes answers them, and changes recency only. -/
theorem Cache.Wf.readBytes_held {cfg : Config} (hc : cfg.WellFormed) (m : Memory) (n : Nat) {c : Cache}
    (h : Cache.Wf cfg c) {ba : Nat} {w : Option Nat} (hb : ba + n ≤ 2 ^ cfg.bits) (hw : OnWay cfg c ba w)
    (f : Nat → Byte) (hf : ∀ j, j < n → Held cfg c (ba + j) (f (ba + j))) :
    (Cache.readBytes cfg m n c ba w).1 = (List.range n).map (fun j => f (ba + j)) ∧
      ∀ a t, Held cfg c a t → Held cfg (Cache.readBytes cfg m n c ba w).2 a t := by
  induction n generalizing c ba w with
  | zero => exact ⟨rfl, fun _ _ h => h⟩
  | succ n ih =>
    obtain ⟨x, hx, hbx⟩ := hf 0 (by omega)
    obtain ⟨h1, h2⟩ := h.visit_hit hc m hw hx
    have hv := h.visit hc m (by omega) hw
    have hkeep : ∀ a t, Held cfg c a t → Held cfg (c.visit cfg m ba w).2 a t := fun a t ⟨y, hy, e⟩ =>
      ⟨y, (h2 a).1.trans hy, ((h2 a).2 y).trans e⟩
    have hr := ih hv.1 (ba := ba + 1) (by omega) (onWay_succ hv.2.1) fun j hj => by
      have := hkeep _ _ (hf (j + 1) (by omega))
      rwa [show ba + (j + 1) = ba + 1 + j by omega] at this
    refine ⟨?_, fun a t ha => hr.2 a t (hkeep a t ha)⟩
    simp only [Cache.readBytes]
    rw [hr.1, h1, (h2 ba).2 x]
    simp only [List.range_succ_eq_map, List.map_cons, List.map_map, Nat.add_zero, List.cons.injEq]
    exact ⟨hbx, List.map_congr_left fun j _ => by simp only [Function.comp_apply]; congr 1; omega⟩

/-- What a visit leaves of an address whose block, if it is the one visited, is resident. -/
theorem FoundIs.visit_of_ne {cfg : Config} {c : Cache} (hc : cfg.WellFormed) (h : Cache.Wf cfg c) {m : Memory}
    {ba a : Nat} {w : Option Nat} {t : Byte} (hb : ba < 2 ^ cfg.bits) (hw : OnWay cfg c ba w) (hf : FoundIs cfg c a t)
    (hh : (w = none ∨ cacheOffset cfg ba = 0) → SameBlock cfg a ba → c.lookup cfg a ≠ none) :
    FoundIs cfg (c.visit cfg m ba w).2 a t := by
  intro x hx
  rcases (h.visit hc m hb hw).2.2 a x hx with ⟨ho, e⟩ | ⟨hfill, hsb, -⟩
  · rw [e]
    exact hf x ho
  · obtain ⟨y, hy⟩ := Option.ne_none_iff_exists'.1 (hh hfill hsb)
    have hk := (h.visit_hit hc m hw ((Cache.lookup_congr hsb).symm.trans hy)).2 a
    rw [hk.2]
    exact hf x (hk.1 ▸ hx)

/-- `CacheRead`'s loop leaves an address as it is found, unless it fetches the address's own block. -/
theorem FoundIs.readBytes {cfg : Config} (hc : cfg.WellFormed) (m : Memory) (n : Nat) {c : Cache} (h : Cache.Wf cfg c)
    {ba a : Nat} {w : Option Nat} {t : Byte} (hb : ba + n ≤ 2 ^ cfg.bits) (hw : OnWay cfg c ba w)
    (hf : FoundIs cfg c a t)
    (hh : 0 < n → (w = none ∨ cacheOffset cfg ba = 0) → SameBlock cfg a ba → c.lookup cfg a ≠ none)
    (ht : ∀ j, 0 < j → j < n → cacheOffset cfg (ba + j) = 0 → ¬ SameBlock cfg a (ba + j)) :
    FoundIs cfg (Cache.readBytes cfg m n c ba w).2 a t := by
  induction n generalizing c ba w with
  | zero => exact hf
  | succ n ih =>
    have hv := h.visit hc m (by omega) hw
    refine ih hv.1 (by omega) (onWay_succ hv.2.1) (hf.visit_of_ne hc h (by omega) hw (hh (by omega))) ?_ ?_
    · rintro hn (hcon | ho) hsb
      · cases hcon
      · exact absurd hsb (ht 1 (by omega) (by omega) ho)
    · intro j hj hjn
      rw [show ba + 1 + j = ba + (j + 1) by omega]
      exact ht (j + 1) (by omega) (by omega)

/-- `CacheWrite`'s loop leaves an address that it does not write as it is found, unless it fetches its block. -/
theorem FoundIs.writeBytes {cfg : Config} (hc : cfg.WellFormed) (m : Memory) (bs : List Byte) {c : Cache}
    (h : Cache.Wf cfg c) {ba a : Nat} {w : Option Nat} {t : Byte} (hb : ba + bs.length ≤ 2 ^ cfg.bits)
    (hw : OnWay cfg c ba w) (hf : FoundIs cfg c a t) (ha : a < ba ∨ ba + bs.length ≤ a)
    (hh : 0 < bs.length → (w = none ∨ cacheOffset cfg ba = 0) → SameBlock cfg a ba → c.lookup cfg a ≠ none)
    (ht : ∀ j, 0 < j → j < bs.length → cacheOffset cfg (ba + j) = 0 → ¬ SameBlock cfg a (ba + j)) :
    FoundIs cfg (Cache.writeBytes cfg m bs c ba w) a t := by
  induction bs generalizing c ba w with
  | nil => exact hf
  | cons b bs ih =>
    simp only [List.length_cons] at hb ha hh ht
    have hv := h.visit hc m (by omega) hw
    have hlk := hv.1.lookup_putByte hc ba (c.visit cfg m ba w).1 b
    refine ih (hv.1.putByte ba _ b) (by omega) (onWay_succ ((hlk ba).trans hv.2.1)) ?_ (by omega) ?_ ?_
    · intro x hx
      rw [hlk] at hx
      rw [hv.1.byteAt_putByte hc b hv.2.1 hx, if_neg (by omega)]
      exact hf.visit_of_ne hc h (by omega) hw (hh (by omega)) x hx
    · rintro hn (hcon | ho) hsb
      · cases hcon
      · exact absurd hsb (ht 1 (by omega) (by omega) ho)
    · intro j hj hjn
      rw [show ba + 1 + j = ba + (j + 1) by omega]
      exact ht (j + 1) (by omega) (by omega)

/-- No block that begins inside an aligned dword holds a byte of another one. -/
theorem not_sameBlock_inside {cfg : Config} {a b i j : Nat} (ha : a % 4 = 0) (hb : b % 4 = 0) (hab : b ≠ a)
    (hi : i < 4) (hj : 0 < j) (hj4 : j < 4) (ho : cacheOffset cfg (b + j) = 0) : ¬ SameBlock cfg (a + i) (b + j) := by
  intro hsb
  have he := hsb.base_eq
  have h1 := cacheBase_add_offset cfg (a + i)
  have h2 := cacheBase_add_offset cfg (b + j)
  have h3 := cacheOffset_lt cfg (a + i)
  by_cases hk : 2 ≤ cfg.k
  · obtain ⟨q, hq⟩ : 4 ∣ 2 ^ cfg.k := Nat.pow_dvd_pow 2 hk
    have : 4 ∣ b + j := Nat.dvd_trans ⟨q, hq⟩ (Nat.dvd_of_mod_eq_zero ho)
    omega
  · obtain hk | hk : cfg.k = 0 ∨ cfg.k = 1 := by omega
    · rw [hk] at h3
      omega
    · have h4 : cacheOffset cfg (a + i) = (a + i) % 2 ^ cfg.k := rfl
      have h5 : cacheOffset cfg (b + j) = (b + j) % 2 ^ cfg.k := rfl
      rw [hk] at h4 h5
      omega

theorem State.isCacheHit_ne_iff (s : State) (a : Nat) : s.isCacheHit a ≠ -1 ↔ ∃ x, s.cache.lookup s.cfg a = some x := by
  unfold State.isCacheHit
  cases s.cache.lookup s.cfg a with
  | none => simp
  | some x => simp

theorem State.isCacheHit_eq_iff (s : State) (a : Nat) : s.isCacheHit a = -1 ↔ s.cache.lookup s.cfg a = none := by
  unfold State.isCacheHit
  cases s.cache.lookup s.cfg a with
  | none => simp
  | some x => simp

/-! Recency: the way of `a` is among the first `p + 1` of its set's order (20_memory.md R49, R50). -/

def Recent (cfg : Config) (c : Cache) (a p : Nat) : Prop :=
  ∃ x, c.lookup cfg a = some x ∧ (c.setAt (cacheIndex cfg a)).order.idxOf x ≤ p

theorem idxOf_erase_le {x y : Nat} (h : x ≠ y) (l : List Nat) : (l.erase y).idxOf x ≤ l.idxOf x := by
  induction l with
  | nil => simp
  | cons z l ih =>
    by_cases hz : z = y
    · subst hz
      simp [Ne.symm h]
    · rw [List.erase_cons_tail (by simpa using hz), List.idxOf_cons, List.idxOf_cons]
      cases z == x
      · exact Nat.succ_le_succ ih
      · exact Nat.le_refl _

theorem Recent.ensure_self {cfg : Config} {c : Cache} (hc : cfg.WellFormed) (h : Cache.Wf cfg c) (m : Memory) {ba : Nat}
    (hb : ba < 2 ^ cfg.bits) : Recent cfg (c.ensure cfg m ba).2 ba 0 := by
  refine ⟨_, h.lookup_ensure_self hc m hb, ?_⟩
  rcases Cache.ensure_cases cfg m c ba with ⟨w, -, e⟩ | ⟨-, e⟩ <;>
    simp [e, h.setAt_set (cacheIndex_lt hc ba), CacheSet.touch]

theorem Recent.ensure {cfg : Config} {c : Cache} (hc : cfg.WellFormed) (h : Cache.Wf cfg c) (m : Memory) {ba a p : Nat}
    (hb : ba < 2 ^ cfg.bits) (hr : Recent cfg c a p) (hp : cacheIndex cfg ba = cacheIndex cfg a → p + 1 < cfg.nway) :
    Recent cfg (c.ensure cfg m ba).2 a (if cacheIndex cfg ba = cacheIndex cfg a then p + 1 else p) := by
  obtain ⟨x, hx, hle⟩ := hr
  have hi := cacheIndex_lt hc ba
  have hwf := h.ensure hc m hb
  split
  · next ei =>
    have hp := hp ei
    have hs := h.setAt hi
    have hne : ∀ y, x ≠ y → ((c.setAt (cacheIndex cfg ba)).touch y).order.idxOf x ≤ p + 1 := by
      intro y hy
      have := idxOf_erase_le hy (c.setAt (cacheIndex cfg ba)).order
      rw [← ei] at hle
      simp only [CacheSet.touch, List.idxOf_cons]
      have : (y == x) = false := by simpa using Ne.symm hy
      simp [this]
      omega
    rcases Cache.ensure_cases cfg m c ba with ⟨w, hl, e⟩ | ⟨hl, e⟩
    · rw [e]
      refine ⟨x, ?_, ?_⟩
      · simp only [Cache.lookup, h.setAt_set hi, if_pos ei, CacheSet.lookup_touch]
        rw [ei]
        exact hx
      · simp only [h.setAt_set hi, if_pos ei]
        by_cases hxw : x = w
        · simp [CacheSet.touch, hxw]
        · exact hne w hxw
    · have hvic : x ≠ (c.setAt (cacheIndex cfg ba)).victim := by
        intro hxv
        have hnil : (c.setAt (cacheIndex cfg ba)).order ≠ [] := fun e => by
          have := hs.2.1.length_eq
          have := hc.2.2.2.1
          simp only [e, List.length_nil, List.length_range] at *
          omega
        have hlen : (c.setAt (cacheIndex cfg ba)).order.length = cfg.nway := by
          rw [hs.2.1.length_eq, List.length_range]
        have hnd : (c.setAt (cacheIndex cfg ba)).order.Nodup := hs.2.1.nodup_iff.2 List.nodup_range
        have hlast : (c.setAt (cacheIndex cfg ba)).victim =
            (c.setAt (cacheIndex cfg ba)).order[(c.setAt (cacheIndex cfg ba)).order.length - 1]'(by
              have := hc.2.2.2.1; omega) := by
          simp only [CacheSet.victim, List.getLast?_eq_some_getLast hnil, Option.getD_some, List.getLast_eq_getElem]
        rw [← ei] at hle
        rw [hxv, hlast, hnd.idxOf_getElem] at hle
        omega
      rw [e]
      obtain ⟨ln, hln, ht⟩ := CacheSet.lookup_some hx
      have hset : Cache.setAt (c.set (cacheIndex cfg ba) (((c.setAt (cacheIndex cfg ba)).fill
          (c.setAt (cacheIndex cfg ba)).victim { tag := cacheTag cfg ba, data := m.block (cacheBase cfg ba) (2 ^ cfg.k) }).touch
            (c.setAt (cacheIndex cfg ba)).victim)) (cacheIndex cfg a) = _ := (h.setAt_set hi _ _).trans (if_pos ei)
      refine ⟨x, ?_, ?_⟩
      · unfold Cache.lookup
        rw [e] at hwf
        refine (hwf.setAt (ei ▸ hi)).lookup_of (ln := ln) ?_ ht
        rw [hset]
        simp only [CacheSet.touch, CacheSet.fill, List.getElem?_set]
        rw [if_neg (Ne.symm hvic), ei]
        exact hln
      · rw [hset]
        exact hne _ hvic
  · next ei =>
    rcases Cache.ensure_cases cfg m c ba with ⟨w, -, e⟩ | ⟨-, e⟩ <;>
    · rw [e]
      refine ⟨x, ?_, ?_⟩
      · simp only [Cache.lookup, h.setAt_set hi, if_neg ei]
        exact hx
      · simp only [h.setAt_set hi, if_neg ei]
        exact hle

theorem Recent.putByte {cfg : Config} {c : Cache} (hc : cfg.WellFormed) (h : Cache.Wf cfg c) (ba w : Nat) (b : Byte)
    {a p : Nat} (hr : Recent cfg c a p) : Recent cfg (c.putByte cfg ba w b) a p := by
  obtain ⟨x, hx, hle⟩ := hr
  refine ⟨x, (h.lookup_putByte hc ba w b a).trans hx, ?_⟩
  rw [Cache.setAt_putByte]
  split
  · exact hle
  · exact hle

/-- How many blocks of a's set begin at the `n` addresses from `ba` on. -/
def blockStarts (cfg : Config) (a : Nat) : Nat → Nat → Nat
  | 0, _ => 0
  | n + 1, ba => (if cacheOffset cfg ba = 0 ∧ cacheIndex cfg ba = cacheIndex cfg a then 1 else 0) + blockStarts cfg a n (ba + 1)

theorem Recent.writeBytes {cfg : Config} (hc : cfg.WellFormed) (m : Memory) (bs : List Byte) {c : Cache}
    (h : Cache.Wf cfg c) {ba x a p : Nat} (hb : ba + bs.length ≤ 2 ^ cfg.bits) (hw : OnWay cfg c ba (some x))
    (hr : Recent cfg c a p) (hp : p + blockStarts cfg a bs.length ba < cfg.nway) :
    ∃ q, Recent cfg (Cache.writeBytes cfg m bs c ba (some x)) a q := by
  induction bs generalizing c ba x p with
  | nil => exact ⟨p, hr⟩
  | cons b bs ih =>
    simp only [List.length_cons, blockStarts] at hb hp
    have hv := h.visit hc m (by omega) hw
    have hlk := hv.1.lookup_putByte hc ba (c.visit cfg m ba (some x)).1 b
    have hr' : Recent cfg (c.visit cfg m ba (some x)).2 a
        (p + if cacheOffset cfg ba = 0 ∧ cacheIndex cfg ba = cacheIndex cfg a then 1 else 0) := by
      by_cases ho : cacheOffset cfg ba = 0
      · simp only [Cache.visit, ho, if_true]
        have := hr.ensure hc h m (ba := ba) (by omega) fun ei => by simp [ho, ei] at hp; omega
        by_cases ei : cacheIndex cfg ba = cacheIndex cfg a
        · simpa [ei] using this
        · simpa [ei] using this
      · simpa [Cache.visit, ho] using hr
    exact ih (hv.1.putByte ba _ b) (by omega) (onWay_succ ((hlk ba).trans hv.2.1)) (hr'.putByte hc hv.1 _ _ _) (by omega)

/-- Each byte written is resident afterwards if fewer than `nway` blocks of its set begin after it. -/
theorem Cache.Wf.lookup_writeBytes {cfg : Config} (hc : cfg.WellFormed) (m : Memory) (bs : List Byte) {c : Cache}
    (h : Cache.Wf cfg c) {ba : Nat} {w : Option Nat} (hb : ba + bs.length ≤ 2 ^ cfg.bits) (hw : OnWay cfg c ba w)
    (h0 : ∀ y, w = some y → cacheOffset cfg ba ≠ 0 → Recent cfg c ba 0)
    (hn : ∀ j, j < bs.length → blockStarts cfg (ba + j) (bs.length - 1 - j) (ba + j + 1) < cfg.nway) :
    ∀ j, j < bs.length → ∃ x, (Cache.writeBytes cfg m bs c ba w).lookup cfg (ba + j) = some x := by
  induction bs generalizing c ba w with
  | nil => intro j hj; simp at hj
  | cons b bs ih =>
    simp only [List.length_cons] at hb hn ⊢
    have hv := h.visit hc m (by omega) hw
    have hlk := hv.1.lookup_putByte hc ba (c.visit cfg m ba w).1 b
    have hself : Recent cfg (c.visit cfg m ba w).2 ba 0 := by
      cases w with
      | none => exact Recent.ensure_self hc h m (by omega)
      | some y =>
        by_cases ho : cacheOffset cfg ba = 0
        · simp only [Cache.visit, ho, if_true]
          exact Recent.ensure_self hc h m (by omega)
        · simpa [Cache.visit, ho] using h0 y rfl ho
    have hself' := hself.putByte hc hv.1 ba (c.visit cfg m ba w).1 b
    have hon := onWay_succ ((hlk ba).trans hv.2.1)
    intro j hj
    cases j with
    | zero =>
      have h00 := hn 0 (by omega)
      simp only [Nat.add_zero, Nat.sub_zero, Nat.add_sub_cancel] at h00
      obtain ⟨q, x, hx, -⟩ := hself'.writeBytes hc m bs (hv.1.putByte ba _ b) (ba := ba + 1) (by omega) hon (by omega)
      exact ⟨x, hx⟩
    | succ j =>
      have := ih (hv.1.putByte ba _ b) (ba := ba + 1) (by omega) hon (fun y _ ho => by
        obtain ⟨x, hx, hle⟩ := hself'
        have hs := sameBlock_succ ho
        exact ⟨x, (Cache.lookup_congr hs).trans hx, by rw [hs.2]; exact hle⟩) (fun i hi => by
        have := hn (i + 1) (by omega)
        rwa [show ba + (i + 1) = ba + 1 + i by omega, show bs.length + 1 - 1 - (i + 1) = bs.length - 1 - i by omega] at this) j (by omega)
      rwa [show ba + 1 + j = ba + (j + 1) by omega] at this

theorem State.cacheWrite_resident {s : State} (h : s.Wf) {ba : Nat} (ha : CacheAddress s.cfg ba) (v : Word) (mw : Bool)
    (hroom : 4 ≤ s.cfg.nway * s.cfg.size * 2 ^ s.cfg.k) : (s.cacheWrite ba v mw).DwordResident ba := by
  have hb := aligned_dword_fits h.1 ha.1 ha.2
  intro j hj
  rw [State.isCacheHit_ne_iff]
  refine h.2.2.1.lookup_writeBytes h.1 s.mem (wordBytes v) hb (onWay_none _ _ _) (fun y e => by cases e) ?_ j hj
  rw [wordBytes_length]
  have hnw := h.1.2.2.2.1
  have hsz := h.1.2.2.1
  have hmod := ha.2
  have hoff : ∀ n, cacheOffset s.cfg n = n % 2 ^ s.cfg.k := fun _ => rfl
  have hidx : ∀ n, cacheIndex s.cfg n = n / 2 ^ s.cfg.k % s.cfg.size := fun n => by rw [hsz]; simp [cacheIndex]
  intro i hi
  by_cases hk : 2 ≤ s.cfg.k
  · have hz : ∀ i, 0 < i → i < 4 → cacheOffset s.cfg (ba + i) ≠ 0 := by
      intro i h0 h4 ho
      obtain ⟨q, hq⟩ : 4 ∣ 2 ^ s.cfg.k := Nat.pow_dvd_pow 2 hk
      have : 4 ∣ ba + i := Nat.dvd_trans ⟨q, hq⟩ (Nat.dvd_of_mod_eq_zero ho)
      omega
    have h1 := hz 1 (by omega) (by omega)
    have h2 := hz 2 (by omega) (by omega)
    have h3 := hz 3 (by omega) (by omega)
    obtain rfl | rfl | rfl | rfl : i = 0 ∨ i = 1 ∨ i = 2 ∨ i = 3 := by omega
    all_goals simp [blockStarts, Nat.add_assoc, h1, h2, h3]; omega
  · have hcase : 4 ≤ s.cfg.nway ∨ s.cfg.k = 1 ∧ 2 ≤ s.cfg.nway ∨ (2 ≤ s.cfg.nway ∧ s.cfg.size % 2 = 0) ∨
        s.cfg.k = 1 ∧ s.cfg.size % 2 = 0 ∨ s.cfg.k = 0 ∧ s.cfg.size % 4 = 0 := by
      obtain ⟨t, ht⟩ : ∃ t, s.cfg.setBits = t := ⟨_, rfl⟩
      rw [ht] at hsz
      obtain hk | hk : s.cfg.k = 0 ∨ s.cfg.k = 1 := by omega
      all_goals
        rw [hk] at hroom
        rw [hsz] at hroom ⊢
        match t with
        | 0 => simp at hroom ⊢; omega
        | 1 => simp at hroom ⊢; omega
        | t + 2 =>
          have : 2 ^ (t + 2) = 4 * 2 ^ t := by rw [pow_add]; ring
          omega
    have heven : s.cfg.size % 2 = 0 → ∀ n, n % s.cfg.size % 2 = n % 2 := fun he n =>
      Nat.mod_mod_of_dvd n (Nat.dvd_of_mod_eq_zero he)
    have hfour : s.cfg.size % 4 = 0 → ∀ n, n % s.cfg.size % 4 = n % 4 := fun he n =>
      Nat.mod_mod_of_dvd n (Nat.dvd_of_mod_eq_zero he)
    have e2 : ∀ {x y}, s.cfg.size % 2 = 0 → x % s.cfg.size = y % s.cfg.size → x % 2 = y % 2 := fun {x y} he e => by
      rw [← heven he x, ← heven he y, e]
    have e4 : ∀ {x y}, s.cfg.size % 4 = 0 → x % s.cfg.size = y % s.cfg.size → x % 4 = y % 4 := fun {x y} he e => by
      rw [← hfour he x, ← hfour he y, e]
    have p2 : ∀ x y, x % 2 ≠ y % 2 → s.cfg.size % 2 = 0 → x % s.cfg.size ≠ y % s.cfg.size := fun x y hne he e =>
      hne (e2 he e)
    have p4 : ∀ x y, x % 4 ≠ y % 4 → s.cfg.size % 4 = 0 → x % s.cfg.size ≠ y % s.cfg.size := fun x y hne he e =>
      hne (e4 he e)
    obtain hk | hk : s.cfg.k = 0 ∨ s.cfg.k = 1 := by omega
    · have a1 := p2 (ba + 1) ba (by omega)
      have a2 := p2 (ba + 2) (ba + 1) (by omega)
      have a3 := p2 (ba + 3) (ba + 2) (by omega)
      have a4 := p2 (ba + 3) ba (by omega)
      have b1 := p4 (ba + 1) ba (by omega)
      have b2 := p4 (ba + 2) (ba + 1) (by omega)
      have b3 := p4 (ba + 3) (ba + 2) (by omega)
      have b4 := p4 (ba + 3) ba (by omega)
      have b5 := p4 (ba + 2) ba (by omega)
      have b6 := p4 (ba + 3) (ba + 1) (by omega)
      obtain rfl | rfl | rfl | rfl : i = 0 ∨ i = 1 ∨ i = 2 ∨ i = 3 := by omega
      all_goals
        simp only [blockStarts, hoff, hidx, Nat.add_assoc, Nat.reduceAdd, Nat.reduceSub, Nat.add_zero, hk, pow_zero,
          Nat.div_one, Nat.mod_one, true_and] at hcase ⊢
        repeat' split
        all_goals (rcases hcase with h | h | h | h | h <;> omega)
    · have a1 := p2 ((ba + 2) / 2) (ba / 2) (by omega)
      have a2 := p2 ((ba + 2) / 2) ((ba + 1) / 2) (by omega)
      have z1 : (ba + 1) % 2 ≠ 0 := by omega
      have z3 : (ba + 3) % 2 ≠ 0 := by omega
      obtain rfl | rfl | rfl | rfl : i = 0 ∨ i = 1 ∨ i = 2 ∨ i = 3 := by omega
      all_goals
        simp only [blockStarts, hoff, hidx, Nat.add_assoc, Nat.reduceAdd, Nat.reduceSub, Nat.add_zero, hk, pow_one, z1,
          z3, false_and, if_false] at hcase ⊢
        repeat' split
        all_goals (rcases hcase with h | h | h | h | h <;> omega)
end Sys2Proof.Machine
end

