-- ==== Sys2Proof/Tests/Slice0.lean ====
section
/-! SUPPORT. The model's own tests. Expected results are those of spec/95_test_vectors.md, whose section each group
names; then, for each statement with hypotheses, a witness that meets them, at the ends of their ranges. -/

namespace Sys2Proof.Tests

open Sys2Proof Sys2Proof.Machine

/-! Well-formedness (30_encoding.md R88, R91): each check refuses an ill-formed term and passes its ends. -/

theorem test_wf_displacement : (Instr.lea .eax (-129)).wellFormed = false ∧ (Instr.movMemImm 128 0).wellFormed = false ∧
    (Instr.lea .eax (-128)).wellFormed = true ∧ (Instr.cmpRegMem .eax 127).wellFormed = true := by decide

theorem test_wf_immediate : (Instr.movRegImm .eax 32768).wellFormed = false ∧
    (Instr.movRegImm .eax (-32769)).wellFormed = false ∧ (Instr.movMemImm 0 32768).wellFormed = false ∧
    (Instr.addRegImm .eax 32767).wellFormed = true ∧ (Instr.cmpRegImm .pc (-32768)).wellFormed = true := by decide

theorem test_wf_target : (Instr.jmp 8388608).wellFormed = false ∧ (Instr.call (-8388609)).wellFormed = false ∧
    (Instr.jmp 8388607).wellFormed = true ∧ (Instr.je (-8388608)).wellFormed = true := by decide

theorem test_wf_jge_read_as_lea : (Instr.jge 0x0F0000).wellFormed = false ∧ (Instr.jge 0x0FFFFF).wellFormed = false ∧
    (Instr.jge 0x0EFFFF).wellFormed = true ∧ (Instr.jge 0x100000).wellFormed = true ∧
    (Instr.jle 0x0F0000).wellFormed = true := by decide

/-! Words of section 2.1, both ways: bits, instruction. -/

theorem test_code_lea : decode 0b10001101000011110000010011111000 = .ok (.lea .esi (-8)) ∧
    encode (.lea .esi (-8)) = 0x8D0F04F8 ∧ decode 0x8D0F087F = .ok (.lea .pc 127) := by decide
theorem test_code_push : decode 0b00000110000000010000000000000000 = .ok (.push .ebx) ∧
    encode (.push .pc) = 0x06080000 := by decide
theorem test_code_pop : decode 0b00000111000001110000000000000000 = .ok (.pop .rbp) ∧
    encode (.pop .ebx) = 0x07010000 := by decide
theorem test_code_call : decode 0b11101000111111111111111111111100 = .ok (.call (-4)) ∧
    encode (.call 16) = 0xE8000010 := by decide
theorem test_code_ret : decode 0b11000010000000000000000000000000 = .ok .ret ∧ encode .ret = 0xC2000000 := by decide
theorem test_code_movRegReg : decode 0b10001001000000000000011100000110 = .ok (.movRegReg .rbp .rsp) ∧
    encode (.movRegReg .ebx .eax) = 0x89000100 := by decide
theorem test_code_movRegImm : decode 0b11000110000001011000000000000000 = .ok (.movRegImm .edi (-32768)) ∧
    encode (.movRegImm .edi 32767) = 0xC6057FFF := by decide
theorem test_code_movRegMem : decode 0b10001011000011110000001110000000 = .ok (.movRegMem .edx (-128)) ∧
    encode (.movRegMem .edx 127) = 0x8B0F037F := by decide
theorem test_code_movRegArr : decode 0b10001011000011100000100001111000 = .ok (.movRegArr .pc .rbp .pc) ∧
    encode (.movRegArr .eax .ebx .ecx) = 0x8B0E0012 := by decide
theorem test_code_movMemImm : decode 0b11000111000010001111111111100010 = .ok (.movMemImm 8 (-30)) ∧
    encode (.movMemImm (-128) (-32768)) = 0xC7808000 := by decide
theorem test_code_movMemReg : decode 0b10001001111100000000110000000100 = .ok (.movMemReg 12 .esi) ∧
    encode (.movMemReg (-4) .eax) = 0x89F0FC00 := by decide
theorem test_code_addRegImm : decode 0b00000101000000001111111111111111 = .ok (.addRegImm .eax (-1)) ∧
    encode (.addRegImm .eax 1) = 0x05000001 := by decide
theorem test_code_addRegReg : decode 0b00000001000000000000000000000010 = .ok (.addRegReg .eax .ecx) ∧
    encode (.addRegReg .eax .ecx) = 0x01000002 := by decide
theorem test_code_subRegImm : decode 0b00101101000000100000000000000001 = .ok (.subRegImm .ecx 1) ∧
    encode (.subRegImm .ecx 1) = 0x2D020001 := by decide
theorem test_code_subRegReg : decode 0b00101001000000000000000000000001 = .ok (.subRegReg .eax .ebx) ∧
    encode (.subRegReg .eax .ebx) = 0x29000001 := by decide
theorem test_code_cmpRegReg : decode 0b00111001000000000000000000000001 = .ok (.cmpRegReg .eax .ebx) ∧
    encode (.cmpRegReg .eax .ebx) = 0x39000001 := by decide
theorem test_code_cmpRegMem : decode 0b00111011000011110000000000000100 = .ok (.cmpRegMem .eax 4) ∧
    encode (.cmpRegMem .eax 4) = 0x3B0F0004 := by decide
theorem test_code_cmpRegImm : decode 0b00111101000000001111111111111111 = .ok (.cmpRegImm .eax (-1)) ∧
    encode (.cmpRegImm .ecx 0) = 0x3D020000 := by decide
theorem test_code_cmpRegArr : decode 0b00111011000011100000000000010010 = .ok (.cmpRegArr .eax .ebx .ecx) ∧
    encode (.cmpRegArr .eax .ebx .ecx) = 0x3B0E0012 := by decide
theorem test_code_jmp : decode 0b11101001100000000000000000000000 = .ok (.jmp (-8388608)) ∧
    encode (.jmp 8388607) = 0xE97FFFFF := by decide
theorem test_code_je : decode 0b10000100000000000000000000100000 = .ok (.je 32) ∧
    encode (.je 32) = 0x84000020 := by decide
theorem test_code_jne : decode 0b10000101000000000000000000000000 = .ok (.jne 0) ∧
    encode (.jne 0) = 0x85000000 := by decide
theorem test_code_jl : decode 0b10001100000000000000000000110000 = .ok (.jl 48) ∧
    encode (.jl 48) = 0x8C000030 := by decide
theorem test_code_jge : decode 0b10001101000100000000000000000000 = .ok (.jge 1048576) ∧
    encode (.jge 983036) = 0x8D0EFFFC := by decide
theorem test_code_jle : decode 0b10001110000011110000000000000000 = .ok (.jle 983040) ∧
    encode (.jle 8) = 0x8E000008 := by decide
theorem test_code_jg : decode 0b10001111000000000000000000001000 = .ok (.jg 8) ∧
    encode (.jg 8) = 0x8F000008 := by decide

/-! Raw words of section 2.2. -/

theorem test_raw_legal : decode 0x89F0FF08 = .ok (.movMemReg (-1) .pc) ∧ decode 0xC7FFFFFF = .ok (.movMemImm (-1) (-1)) ∧
    decode 0x8D0E0000 = .ok (.jge 917504) ∧ decode 0x8D0F0004 = .ok (.lea .eax 4) ∧
    decode 0xE8FFFFFF = .ok (.call (-1)) ∧ decode 0x84FFFFFC = .ok (.je (-4)) := by decide

theorem test_raw_no_pattern :
    ([0x00000000, 0x90000000, 0xFFFFFFFF, 0x89010000, 0x8B000000, 0x8B0D0000, 0x3B0D0000, 0x3B000000, 0x06000001,
      0x07010100, 0xC2000001, 0x01010000, 0x29FF0000, 0x80000000, 0x83000000, 0x86000000, 0x8A000000] : List Word).all
      (fun w => decide (decode w = .error (.noPattern w))) = true := by decide

theorem test_raw_bad_register :
    ([0x89F00009, 0x8B0E0099, 0x8B0E0089, 0x3B0E0918, 0x8D0F0900, 0x06090000, 0x39000009, 0xC6090000,
      0x05FF0001] : List Word).all (fun w => decide (decode w = .error (.badRegister w))) = true := by decide

theorem test_decodeTableWord : decodeTableWord 32 0xC6000001 = some (.movRegImm .eax 1) ∧
    decodeTableWord 32 0x90000000 = none ∧ decodeBytes [0xC6, 0x00, 0x00] = .error .truncated ∧
    decodeBytes [0xC6, 0x00, 0x00, 0x01, 0x55] = .ok (.movRegImm .eax 1, [0x55]) := by decide

/-! One step. `start` is the setting of section 2.3: a word at `a` = pc, registers, Stack and dwords as given, all else
as reset leaves it. -/

/-- The state of an outcome, if it is one. -/
def nextOf : Outcome → Option State
  | .next t => some t
  | .fault _ => none
  | .refused _ => none

theorem of_nextOf {o : Outcome} {t : State} (h : nextOf o = some t) : o = .next t := by
  cases o <;> simp [nextOf] at h
  rw [h]

def startAt (a : Int) (w : Word) (rs : List (Reg × Int)) (stk : List Int := []) (ms : List (Nat × Word) := [])
    (cfg : Config := Config.default) : State :=
  let s0 := (State.resetWith cfg).setX .pc a
  let s := rs.foldl (fun t p => t.setX p.1 p.2) s0
  { s with
    stk := stk.map (BitVec.ofInt 32)
    mem := ((busAddr cfg a, w) :: ms).foldl (fun m p => m.writeBytes p.1 (wordBytes p.2)) [] }

def start (w : Word) (rs : List (Reg × Int)) (stk : List Int := []) (ms : List (Nat × Word) := [])
    (cfg : Config := Config.default) : State := startAt 256 w rs stk ms cfg

/-- The state one step leaves, or the same state if there were none. -/
def ran (s : State) : State := (nextOf (step s)).getD s

def withFlags (s : State) (z n : Bool) : State := { s with flags := ⟨z, n⟩ }

def withStackDepth (n : Nat) : Config := { Config.default with stackDepth := some n }

/-! Section 2.3. -/

theorem test_lea : (ran (start 0x8D0F04F8 [(.rbp, 2048)])).x .esi = 2040 ∧
    (ran (start 0x8D0F04F8 [(.rbp, 2048)])).x .pc = 260 := by decide
theorem test_lea_overflow :
    (ran (start 0x8D0F0001 [(.rbp, 2147483647)])).run = .halted (.rangeError 2147483648) ∧
    (ran (start 0x8D0F0001 [(.rbp, 2147483647)])).x .pc = 256 := by decide
theorem test_push : (ran (start 0x06010000 [(.ebx, -5)] [8])).stk.map BitVec.toInt = [8, -5] := by decide
theorem test_push_full :
    (ran (start 0x06000000 [(.eax, 1)] [1, 2] [] (withStackDepth 2))).run = .halted .stackOverflow ∧
    (ran (start 0x06000000 [(.eax, 1)] [1, 2] [] (withStackDepth 2))).stk = [1, 2] := by decide
theorem test_pop : (ran (start 0x07010000 [] [8, 42])).x .ebx = 42 ∧
    (ran (start 0x07010000 [] [8, 42])).stk = [8] := by decide
theorem test_pop_into_pc : (ran (start 0x07080000 [] [64])).x .pc = 64 := by decide
theorem test_call : (ran (startAt 4 0xE8FFFFFC [])).x .pc = -4 ∧
    (ran (startAt 4 0xE8FFFFFC [])).stk = [8] := by decide
theorem test_call_full :
    (ran (startAt 4 0xE8000010 [] [1] [] (withStackDepth 1))).run = .halted .stackOverflow ∧
    (ran (startAt 4 0xE8000010 [] [1] [] (withStackDepth 1))).x .pc = 4 := by decide
theorem test_ret : (ran (start 0xC2000000 [] [6])).x .pc = 6 ∧ (ran (start 0xC2000000 [] [6])).stk = [] := by decide
theorem test_ret_empty : (ran (start 0xC2000000 [])).run = .halted .stackUnderflow ∧
    (ran (start 0xC2000000 [])).x .pc = 256 := by decide

/-! Section 2.4. -/

theorem test_movRegReg_from_pc : (ran (start 0x89000008 [])).x .eax = 260 := by decide
theorem test_movRegReg_to_pc : (ran (start 0x89000801 [(.ebx, 64)])).x .pc = 64 := by decide
theorem test_movRegImm : (ran (start 0xC6058000 [])).x .edi = -32768 := by decide
theorem test_movRegImm_to_pc : (ran (start 0xC6080006 [])).x .pc = 6 ∧ (ran (start 0xC6080006 [])).run = .ready := by
  decide
theorem test_movRegMem : (ran (start 0x8B0F00FC [(.rbp, 2048)] [] [(2044, 0x80000000)])).x .eax = -2147483648 := by
  decide
theorem test_movRegMem_wraps : (ran (start 0x8B0F00FC [] [] [(1020, 0x11223344)]
    { Config.default with bits := 10 })).x .eax = 287454020 := by decide
theorem test_movRegArr : (ran (start 0x8B0E0012 [(.ebx, 2048), (.ecx, -1)] [] [(2044, 5)])).x .eax = 5 := by decide
theorem test_movRegArr_misaligned : (ran (start 0x8B0E0012 [(.ebx, 2050), (.ecx, 1)])).run =
    .halted (.misalignedAccess 2054) := by decide
theorem test_movMemImm : (ran (start 0xC708FFE2 [(.rbp, 2048)])).mem =
    [(256, 0xC7), (257, 0x08), (258, 0xFF), (259, 0xE2), (2056, 0xFF), (2057, 0xFF), (2058, 0xFF), (2059, 0xE2)] := by
  decide
theorem test_movMemImm_misaligned : (ran (start 0xC7010000 [(.rbp, 2048)])).run = .halted (.misalignedAccess 2049) ∧
    (ran (start 0xC7010000 [(.rbp, 2048)])).mem = (start 0xC7010000 [(.rbp, 2048)]).mem := by decide
theorem test_movMemReg : (ran (start 0x89F00C04 [(.rbp, 2048), (.esi, 2040)])).mem.dword 2060 = 0x000007F8 := by decide
theorem test_movMemReg_pc : (ran (start 0x89F00008 [(.rbp, 2048)])).mem.dword 2048 = 0x00000104 := by decide

/-! Section 2.5. -/

theorem test_addRegImm : (ran (start 0x0500FFFF [])).x .eax = -1 := by decide
theorem test_addRegImm_overflow :
    (ran (start 0x05008000 [(.eax, -2147483648)])).run = .halted (.rangeError (-2147516416)) := by decide
theorem test_addRegReg : (ran (start 0x01000000 [(.eax, 21)])).x .eax = 42 := by decide
theorem test_addRegReg_overflow :
    (ran (start 0x01000001 [(.eax, -2147483648), (.ebx, -1)])).run = .halted (.rangeError (-2147483649)) := by decide
theorem test_subRegImm : (ran (start 0x2D008000 [])).x .eax = 32768 := by decide
theorem test_subRegImm_overflow :
    (ran (start 0x2D008000 [(.eax, 2147483647)])).run = .halted (.rangeError 2147516415) := by decide
theorem test_subRegReg : (ran (start 0x29000001 [(.eax, -1), (.ebx, -2147483648)])).x .eax = 2147483647 := by decide
theorem test_subRegReg_keeps_flags :
    (ran (withFlags (start 0x29000000 [(.eax, 12345)]) true false)).x .eax = 0 ∧
    (ran (withFlags (start 0x29000000 [(.eax, 12345)]) true false)).flags = ⟨true, false⟩ := by decide

/-! Section 2.6. -/

theorem test_cmpRegReg_less :
    (ran (start 0x39000001 [(.eax, -2147483648), (.ebx, 2147483647)])).flags = ⟨false, true⟩ := by decide
theorem test_cmpRegReg_greater :
    (ran (start 0x39000001 [(.eax, 2147483647), (.ebx, -2147483648)])).flags = ⟨false, false⟩ := by decide
theorem test_cmpRegMem :
    (ran (start 0x3B0F0004 [(.eax, 20), (.rbp, 2048)] [] [(2052, 20)])).flags = ⟨true, true⟩ := by decide
theorem test_cmpRegMem_misaligned :
    (ran (withFlags (start 0x3B0F0001 [(.rbp, 2048)]) true true)).run = .halted (.misalignedAccess 2049) ∧
    (ran (withFlags (start 0x3B0F0001 [(.rbp, 2048)]) true true)).flags = ⟨true, true⟩ := by decide
theorem test_cmpRegImm : (ran (start 0x3D00FFFF [(.eax, 65535)])).flags = ⟨false, false⟩ := by decide
theorem test_cmpRegImm_equal : (ran (start 0x3D00FFFF [(.eax, -1)])).flags = ⟨true, true⟩ := by decide
theorem test_cmpRegArr :
    (ran (start 0x3B0E0012 [(.ebx, 2048), (.ecx, 2)] [] [(2056, 0xFFFFFFE2)])).flags = ⟨false, false⟩ := by decide

/-! Section 2.7: pc after the step for the flag pairs (0,0), (0,1), (1,1), (1,0). -/

def pcAfter (w : Word) : List Int :=
  [(false, false), (false, true), (true, true), (true, false)].map fun p =>
    (ran (withFlags (start w []) p.1 p.2)).x .pc

theorem test_jmp : pcAfter 0xE9000040 = [64, 64, 64, 64] := by decide
theorem test_je : pcAfter 0x84000040 = [260, 260, 64, 64] := by decide
theorem test_jne : pcAfter 0x85000040 = [64, 64, 260, 260] := by decide
theorem test_jl : pcAfter 0x8C000040 = [260, 64, 260, 260] := by decide
theorem test_jge : pcAfter 0x8D000040 = [64, 260, 64, 64] := by decide
theorem test_jle : pcAfter 0x8E000040 = [260, 64, 64, 64] := by decide
theorem test_jg : pcAfter 0x8F000040 = [64, 260, 260, 260] := by decide

/-! Section 2.8. -/

theorem test_reset_step : (ran State.reset).run = .halted (.decodeError 0) ∧ (ran State.reset).x .pc = 0 ∧
    (ran State.reset).isCacheHit 0 = 0 ∧ (ran State.reset).isCacheHit 4 = -1 := by decide
theorem test_fetch_misaligned : (ran (startAt 258 0 [])).run = .halted (.misalignedAccess 258) ∧
    (ran (startAt 258 0 [])).x .pc = 258 := by decide
theorem test_advance_overflow : (ran (startAt 0x7FFFFFFC 0xE9000008 [])).run = .halted (.rangeError 2147483648) ∧
    (ran (startAt 0x7FFFFFFC 0 [])).run = .halted (.decodeError 0) := by decide
theorem test_fetch_negative_pc : (ran (startAt (-4) 0xC6000001 [])).x .eax = 1 ∧
    (ran (startAt (-4) 0xC6000001 [])).x .pc = 0 := by decide
theorem test_halted_stays : ran (ran (start 0x07000000 [(.eax, 9)])) = ran (start 0x07000000 [(.eax, 9)]) ∧
    (ran (start 0x07000000 [(.eax, 9)])).run = .halted .stackUnderflow := by decide

/-! Section 4: the first operations of traces A and B. -/

def smallCache : State := State.resetWith { Config.default with k := 1, size := 2, nway := 1 }

theorem test_trace_A_write : ((smallCache.cacheWrite 0x10 0x11223344 true).cacheRead 0x10).1 = 0x11223344 ∧
    [0x10, 0x12, 0x14, 0x16].map (smallCache.cacheWrite 0x10 0x11223344 true).isCacheHit = [0, 0, -1, -1] := by decide
theorem test_trace_A_evict : let t := (smallCache.cacheWrite 0x10 0x11223344 true).cacheWrite 0x14 0xAABBCCDD true
    [0x10, 0x12, 0x14, 0x16].map t.isCacheHit = [-1, -1, 0, 0] ∧ (t.cacheRead 0x10).1 = 0x11223344 := by decide

def twoWays : State := State.resetWith { Config.default with size := 2 }

def traceB4 : State :=
  (((twoWays.cacheWrite 0 1 true).cacheWrite 8 2 true).cacheRead 0).2.cacheWrite 0x10 3 true

theorem test_trace_B_lru : [0, 8, 0x10].map traceB4.isCacheHit = [0, -1, 1] ∧
    (traceB4.cache.setAt 0).order = [1, 0] := by decide
theorem test_trace_B_debug : let t := traceB4.cacheWrite 0x10 0xDEADBEEF false
    (t.cacheRead 0x10).1 = 0xDEADBEEF ∧ t.mem.dword 0x10 = 3 := by decide

/-! The encoder's refusals (section 2.1), images (sections 2.1, 2.9) and host operations (70_reset_and_hazards.md). -/

theorem test_assemble : assemble [("loop", 8)] ⟨.jg, [.label "loop"]⟩ = .ok 0x8F000008 ∧
    assemble [] ⟨.mov, [.reg .eax, .arr .ebx .ecx]⟩ = .ok 0x8B0E0012 := by decide
theorem test_assemble_no_layout : assemble [] ⟨.add, [.reg .eax, .mem 4]⟩ = .error .noLayout ∧
    assemble [] ⟨.mov, [.mem 0, .mem 4]⟩ = .error .noLayout ∧ assemble [] ⟨.cmp, [.mem 4, .reg .eax]⟩ = .error .noLayout ∧
    assemble [] ⟨.push, [.imm 5]⟩ = .error .noLayout ∧ assemble [] ⟨.ret, [.reg .eax]⟩ = .error .noLayout ∧
    assemble [] ⟨.lea, [.reg .eax, .reg .ebx]⟩ = .error .noLayout := by decide
theorem test_assemble_other_refusals : assemble [] ⟨.mov, [.reg .eax, .imm 32768]⟩ = .error .fieldRange ∧
    assemble [] ⟨.jmp, [.imm 8388608]⟩ = .error .fieldRange ∧
    assemble [] ⟨.jge, [.imm 983040]⟩ = .error .jgeTarget ∧
    assemble [] ⟨.jmp, [.label "nowhere"]⟩ = .error (.unknownLabel "nowhere") := by decide
theorem test_image : (match encodeProgram [] [⟨.mov, [.reg .eax, .imm 1]⟩] with
    | .ok bs => bs.take 6
    | .error _ => []) = [0xC6, 0, 0, 1, 0, 0] := by decide
theorem test_create : nextOf (create Config.default) = some State.reset ∧
    nextOf (create { Config.default with size := 3 }) = none ∧
    nextOf (create { Config.default with bits := 9 }) = none := by decide
theorem test_second_load_refused : { State.reset with loaded := true } ≠ State.reset ∧
    (State.reset.loadProgram []) = .refused .imageSize ∧
    ({ State.reset with loaded := true }).loadProgram [] = .refused .loadNotAfterReset := ⟨by decide, rfl, rfl⟩
theorem test_withFetchWord : (ran (State.reset.withFetchWord 32 0xC6000001)).x .eax = 1 := by decide

/-! Witnesses: the hypotheses of each statement that has any, met together by concrete values. -/

/-- Where the fetch of a step leads. -/
def fetched (s : State) : State := s.afterFetch.setX .pc (s.x .pc + 4)

theorem witness_DecodeOfEncode : (Instr.movMemImm (-128) 32767).wellFormed = true ∧
    (Instr.jge 0x0EFFFF).wellFormed = true ∧ (Instr.jge 0x100000).wellFormed = true := by decide
theorem witness_EncodeOfDecode : decode 0xC7808000 = .ok (.movMemImm (-128) (-32768)) := by decide
theorem witness_AssembledWords : assemble [("loop", 8388607)] ⟨.call, [.label "loop"]⟩ = .ok 0xE87FFFFF ∧
    decode 0x89F07F08 = .ok (.movMemReg 127 .pc) := by decide

/-- One word for each of (a) to (e) of R79. -/
theorem witness_IllegalWords : IllegalWord 0x00000000 ∧ IllegalWord 0x29FF0000 ∧ IllegalWord 0x8B0D0000 ∧
    IllegalWord 0x89010000 ∧ IllegalWord 0x06000001 ∧ IllegalWord 0xC2000001 ∧ IllegalWord 0x05090000 ∧
    IllegalWord 0x39000009 ∧ IllegalWord 0x89000900 ∧ IllegalWord 0x89F00009 ∧ IllegalWord 0x8D0F0900 ∧
    IllegalWord 0x8B0E0089 ∧ IllegalWord 0x3B0E0090 ∧ ¬ IllegalWord 0x8B0E0088 := by
  refine ⟨?_, ?_, ?_, ?_, ?_, ?_, ?_, ?_, ?_, ?_, ?_, ?_, ?_, ?_⟩ <;> unfold IllegalWord <;> decide
theorem witness_IllegalWords_fetched : (start 0x90000000 []).run = .ready ∧ Aligned ((start 0x90000000 []).x .pc) ∧
    IllegalWord (start 0x90000000 []).fetchedWord := by
  unfold IllegalWord
  decide
theorem witness_LeaWords : byte0 0x8D0F08FF = 0x8D ∧ byte1 0x8D0F08FF = 0x0F ∧ byte1 0x8D0F0900 = 0x0F ∧
    TargetFits (-8388608) ∧ TargetFits 0x0F0000 ∧ TargetFits 0x0FFFFF ∧ TargetFits 8388607 := by decide
theorem witness_DecodedWords : decode 0x06080000 = .ok (.push .pc) := by decide

def oneRet : List AbsInstr := [⟨.ret, []⟩]

theorem witness_Images : (∃ img, encodeProgram [] oneRet = .ok img) ∧ oneRet[0]? = some ⟨.ret, []⟩ ∧
    4 * oneRet.length ≤ 4 ∧ 4 * oneRet.length ≤ 1023 ∧ 256 < (List.replicate 257 (⟨.ret, []⟩ : AbsInstr)).length := by
  refine ⟨⟨_, rfl⟩, by decide, by decide, by decide, ?_⟩
  rw [List.length_replicate]
  decide
theorem witness_Reset : 0 < Config.default.size ∧ 3 < Config.default.size := by decide
theorem witness_Created : (⟨10, 8, 4, 1, some 0⟩ : Config).WellFormed ∧ (⟨32, 0, 1, 1, none⟩ : Config).WellFormed ∧
    ¬ (⟨10, 9, 4, 1, none⟩ : Config).WellFormed ∧ ¬ (⟨33, 2, 4, 2, none⟩ : Config).WellFormed ∧
    ¬ (⟨32, 2, 0, 2, none⟩ : Config).WellFormed ∧ ¬ (⟨32, 2, 4, 0, none⟩ : Config).WellFormed := by decide

def popOne : State := start 0x07010000 [] [42]
def popNone : State := start 0x07010000 []
def storeEsi : State := start 0x89F00C04 [(.rbp, 2048), (.esi, 2040)]
def cmpTwo : State := start 0x39000001 [(.eax, 5), (.ebx, 3)]

theorem witness_StepRuns : popOne.Fetches (.pop .ebx) (fetched popOne) ∧
    (∃ t, exec (.pop .ebx) (fetched popOne) = .next t ∧ t.run = .ready) ∧
    popNone.Fetches (.pop .ebx) (fetched popNone) ∧
    ∃ t, exec (.pop .ebx) (fetched popNone) = .next t ∧ t.run = .halted .stackUnderflow :=
  ⟨by decide, ⟨_, rfl, by decide⟩, by decide, ⟨_, rfl, by decide⟩⟩

def atTop (w : Word) : State := startAt 0x7FFFFFFC w []

theorem witness_StepErrors : (startAt 258 0 []).run = .ready ∧ ¬ Aligned ((startAt 258 0 []).x .pc) ∧
    Aligned ((atTop 0).x .pc) ∧ decode (atTop 0).fetchedWord = .error (.noPattern 0) ∧
    (atTop 0xE9000008).run = .ready ∧ (atTop 0xE9000008).x .pc = 0x7FFFFFFC ∧
    decode (atTop 0xE9000008).fetchedWord = .ok (.jmp 8) ∧
    popNone.Fetches (.pop .ebx) (fetched popNone) ∧ (Instr.pop .ebx).raises (fetched popNone) = some .stackUnderflow ∧
    popOne.Fetches (.pop .ebx) (fetched popOne) ∧ (Instr.pop .ebx).raises (fetched popOne) = none := by decide
theorem witness_FatalErrors : popNone.run = .ready ∧
    ∃ t, step popNone = .next t ∧ t.run = .halted .stackUnderflow :=
  ⟨by decide, _, of_nextOf (t := ran popNone) (by decide), by decide⟩
theorem witness_Halted : (ran popNone).run = .halted .stackUnderflow := by decide
theorem witness_ExecuteRaises : (Instr.lea .eax 1).raises (start 0 [(.rbp, 2147483647)]) = some (.rangeError 2147483648) ∧
    (Instr.lea .eax 0).raises (start 0 [(.rbp, 2147483647)]) = none ∧
    (Instr.movRegMem .eax 2).raises (start 0 []) = some (.misalignedAccess 2) ∧
    (Instr.push .eax).raises (start 0 [] [1] [] (withStackDepth 1)) = some .stackOverflow ∧
    (Instr.ret).raises (start 0 []) = some .stackUnderflow := by decide

/-- A state with lines resident, well formed and coherent, that steps. -/
theorem witness_EveryStep : (ran storeEsi).cache ≠ storeEsi.cache ∧ (ran storeEsi).Wf ∧ (ran storeEsi).Coherent ∧
    nextOf (step (ran storeEsi)) = some (ran (ran storeEsi)) := by decide
theorem witness_FlagPair : cmpTwo.flags.Reachable ∧ nextOf (step cmpTwo) = some (ran cmpTwo) := by decide
theorem witness_Parameters : nextOf (step popOne) = some (ran popOne) := by decide
theorem witness_OnlyCmp : (ran (withFlags cmpTwo true true)).flags ≠ (withFlags cmpTwo true true).flags ∧
    (∃ t, exec (.subRegReg .eax .ebx) cmpTwo = .next t) ∧ (Instr.subRegReg .eax .ebx).isCmp = false :=
  ⟨by decide, ⟨_, rfl⟩, by decide⟩
theorem witness_OnlyConditionalJumps : (Instr.cmpRegReg .eax .ebx).isConditionalJump = false ∧
    (∃ t, exec (.cmpRegReg .eax .ebx) cmpTwo = .next t) ∧ (Instr.cmpRegReg .eax .ebx).isCmp = true ∧
    (Instr.cmpRegReg .eax .ebx).raises cmpTwo = none ∧ (Instr.cmpRegMem .eax 1).isCmp = true ∧
    (Instr.cmpRegMem .eax 1).raises cmpTwo ≠ none ∧ (∃ t, exec (.cmpRegMem .eax 1) cmpTwo = .next t) :=
  ⟨by decide, ⟨_, rfl⟩, by decide, by decide, by decide, by decide, ⟨_, rfl⟩⟩
theorem witness_OnlyStack : (∃ t, exec (.push .ebx) popOne = .next t ∧ t.run = popOne.run) ∧
    (Instr.push .ebx).pushes = true ∧ (Instr.push .ebx).raises popOne = none ∧
    (∃ t, exec .ret popOne = .next t ∧ t.run = popOne.run) ∧ (Instr.ret).pops = true ∧ (Instr.ret).raises popOne = none ∧
    (∃ t, exec (.jmp 8) popOne = .next t ∧ t.run = popOne.run) ∧ (Instr.jmp 8).pushes = false ∧
    (Instr.jmp 8).pops = false ∧ (Instr.call (-4)).raises popOne = none ∧
    ∃ t, exec (.call (-4)) popOne = .next t :=
  ⟨⟨_, rfl, by decide⟩, by decide, by decide, ⟨_, rfl, by decide⟩, by decide, by decide, ⟨_, rfl, by decide⟩, by decide,
    by decide, by decide, ⟨_, rfl⟩⟩
theorem witness_MemoryChanges : (∃ t, exec (.movMemReg 12 .esi) storeEsi = .next t) ∧
    (Instr.movMemReg 12 .esi).storesAt storeEsi = some 2060 ∧ busAddr storeEsi.cfg 2060 = 2060 ∧
    (∃ t, exec (.movRegMem .eax 12) storeEsi = .next t) ∧ (Instr.movRegMem .eax 12).storesAt storeEsi = none :=
  ⟨⟨_, rfl⟩, by decide, by decide, ⟨_, rfl⟩, by decide⟩
theorem witness_OnlyNamed : (∃ t, exec (.pop .ebx) popOne = .next t) ∧ Reg.eax ∉ (Instr.pop .ebx).writes :=
  ⟨⟨_, rfl⟩, by decide⟩

/-- The ends of a register field: 8 is a register, 9 is none. -/
theorem witness_register_fields : Reg.ofId? (0#8).toNat = some .eax ∧ Reg.ofId? (8#8).toNat = some .pc ∧ 8 < (9#8).toNat ∧
    8 < (255#8).toNat ∧ Reg.ofId? (8#4).toNat = some .pc ∧ 8 < (9#4).toNat ∧ 8 < (15#4).toNat := by decide

theorem witness_Lea : InRange ((start 0 [(.rbp, 2147483646)]).x .rbp + 1) ∧
    ¬ InRange ((start 0 [(.rbp, 2147483647)]).x .rbp + 1) ∧ InRange ((start 0 [(.rbp, -2147483648)]).x .rbp + 0) ∧
    ¬ InRange ((start 0 [(.rbp, -2147483648)]).x .rbp + -1) := by decide
theorem witness_Push : (start 0 [] [1] [] (withStackDepth 2)).cfg.stackDepth ≠
      some (start 0 [] [1] [] (withStackDepth 2)).stk.length ∧
    (start 0 [] [1, 2] [] (withStackDepth 2)).cfg.stackDepth =
      some (start 0 [] [1, 2] [] (withStackDepth 2)).stk.length ∧
    (start 0 [] [1]).cfg.stackDepth ≠ some (start 0 [] [1]).stk.length := by decide
theorem witness_Pop : popOne.stk = [] ++ [42] ∧ popNone.stk = [] ∧ popNone.Fetches (.pop .ebx) (fetched popNone) := by
  decide
theorem witness_Call : TargetFits (-8388608) ∧ TargetFits 8388607 ∧
    (startAt 4 0xE8FFFFFC []).cfg.stackDepth ≠ some (startAt 4 0xE8FFFFFC []).stk.length ∧
    (startAt 4 0xE8000010 [] [1] [] (withStackDepth 1)).cfg.stackDepth =
      some (startAt 4 0xE8000010 [] [1] [] (withStackDepth 1)).stk.length ∧
    (startAt 4 0xE8FFFFFC []).Fetches (.call (-4)) (fetched (startAt 4 0xE8FFFFFC [])) := by decide
theorem witness_Ret : popOne.stk = [] ++ [42] ∧ (start 0xC2000000 []).stk = [] ∧
    (start 0xC2000000 []).Fetches .ret (fetched (start 0xC2000000 [])) := by decide
theorem witness_immediates : ImmFits (-32768) ∧ ImmFits 32767 := by decide

/-- Aligned and misaligned frame and array addresses, in a well-formed, coherent state. -/
theorem witness_loads : storeEsi.Wf ∧ storeEsi.Coherent ∧ Aligned (storeEsi.x .rbp + -128) ∧
    Aligned (storeEsi.x .rbp + 124) ∧ ¬ Aligned (storeEsi.x .rbp + 127) ∧ Aligned (storeEsi.x .rbp + 4 * storeEsi.x .pc) ∧
    ¬ Aligned ((start 0 [(.ebx, 2050)]).x .ebx) := by decide
theorem witness_stores : storeEsi.mem.wf ∧ storeEsi.Wf ∧ ImmFits (-32768) ∧ Aligned (storeEsi.x .rbp + 124) ∧
    ¬ Aligned (storeEsi.x .rbp + -127) := by decide
theorem witness_AddSub : InRange ((start 0 [(.eax, 2147483646)]).x .eax + 1) ∧
    ¬ InRange ((start 0 [(.eax, 2147483647)]).x .eax + 1) ∧ InRange ((start 0 [(.eax, -2147483647)]).x .eax - 1) ∧
    ¬ InRange ((start 0 [(.eax, -2147483648)]).x .eax - 1) ∧
    ¬ InRange ((start 0 [(.eax, 1073741824)]).x .eax + (start 0 [(.eax, 1073741824)]).x .eax) ∧
    InRange ((start 0 [(.eax, 1073741823)]).x .eax + (start 0 [(.eax, 1073741823)]).x .eax) ∧
    ¬ InRange ((start 0 [(.ebx, -2147483648)]).x .eax - (start 0 [(.ebx, -2147483648)]).x .ebx) ∧
    InRange ((start 0 [(.ebx, -2147483647)]).x .eax - (start 0 [(.ebx, -2147483647)]).x .ebx) := by decide
theorem witness_ConditionalJumps : (0xEFFFF#24).extractLsb' 16 8 ≠ 0x0F ∧ (0x100000#24).extractLsb' 16 8 ≠ 0x0F ∧
    TargetFits (-8388608) ∧ TargetFits 8388607 ∧ (withFlags State.reset true true).flags.zero = true ∧
    (withFlags State.reset false true).flags.sign = true ∧ (withFlags State.reset false false).flags.sign = false := by
  decide
theorem witness_JumpsAfterCmp : TargetFits 8388607 ∧ ComparedFlags (withFlags State.reset false true) (-30) 20 ∧
    ComparedFlags (withFlags State.reset true true) 4 4 ∧ ComparedFlags (withFlags State.reset false false) 5 3 := by
  unfold ComparedFlags
  decide

def jumpAt : State := start 0xE9000040 []
def jgAt : State := withFlags (start 0x8F000040 []) true true

def jleAt : State := withFlags (start 0x8E000040 []) true true
def callAt : State := startAt 4 0xE8FFFFFC [] [1] [] (withStackDepth 2)
def retAt : State := start 0xC2000000 [] [64]

theorem witness_NextFetch : jumpAt.Fetches (.jmp 64) (fetched jumpAt) ∧ TargetFits 64 ∧
    (Instr.jmp 64).target = some 64 ∧ (Instr.jmp 64).taken jumpAt.flags = true ∧ (Instr.jmp 64).raises jumpAt = none ∧
    callAt.Fetches (.call (-4)) (fetched callAt) ∧ (Instr.call (-4)).target = some (-4) ∧ TargetFits (-4) ∧
    (Instr.call (-4)).taken callAt.flags = true ∧ (Instr.call (-4)).raises callAt = none ∧
    jleAt.Fetches (.jle 64) (fetched jleAt) ∧ (Instr.jle 64).target = some 64 ∧
    (Instr.jle 64).taken jleAt.flags = true ∧ (Instr.jle 64).raises jleAt = none ∧
    retAt.Fetches .ret (fetched retAt) ∧ retAt.stk = [] ++ [64] ∧
    jgAt.Fetches (.jg 64) (fetched jgAt) ∧ (Instr.jg 64).isConditionalJump = true ∧
    (Instr.jg 64).taken jgAt.flags = false := by decide

theorem witness_CacheParts : Config.default.WellFormed ∧ (⟨32, 30, 4, 1, none⟩ : Config).WellFormed := by decide
theorem witness_Lookup : traceB4.Wf ∧ 0x10 < 2 ^ traceB4.cfg.bits ∧ 8 < 2 ^ traceB4.cfg.bits ∧ traceB4.isCacheHit 0x10 = 1 ∧ traceB4.isCacheHit 8 = -1 := by decide
theorem witness_Ensure : traceB4.cfg.WellFormed ∧ Cache.Wf traceB4.cfg traceB4.cache ∧ 0x10 < 2 ^ traceB4.cfg.bits ∧
    traceB4.cache.lookup traceB4.cfg 0x10 = some 1 ∧ traceB4.cache.lookup traceB4.cfg 0xFFFFFFFF = none ∧
    0xFFFFFFFF < 2 ^ traceB4.cfg.bits := by decide
theorem witness_WriteThrough : (traceB4.cacheWrite 0x10 0xDEADBEEF false).Wf ∧ CacheAddress traceB4.cfg 0 ∧
    CacheAddress traceB4.cfg 0xFFFFFFFC ∧ ¬ CacheAddress traceB4.cfg 0x100000000 ∧
    4 ≤ traceB4.cfg.nway * traceB4.cfg.size * 2 ^ traceB4.cfg.k := by decide

/-- The geometry of doc00's S2 (section 1). -/
theorem witness_WriteThrough_small : smallCache.Wf ∧ CacheAddress smallCache.cfg 0x10 ∧
    4 ≤ smallCache.cfg.nway * smallCache.cfg.size * 2 ^ smallCache.cfg.k := by decide
theorem witness_Transparent : traceB4.Wf ∧ traceB4.Coherent ∧ CacheAddress traceB4.cfg 0xFFFFFFFC := by decide
theorem witness_Debug : traceB4.Wf ∧ CacheAddress traceB4.cfg 0x10 ∧
    4 ≤ traceB4.cfg.nway * traceB4.cfg.size * 2 ^ traceB4.cfg.k ∧ CacheAddress traceB4.cfg 8 ∧
    traceB4.DwordAbsent 8 := by decide

/-- After a debug write at 0x10: a read of it, then a write to 0, which stays in the other way, keep it resident. -/
def debugged : State := traceB4.cacheWrite 0x10 0xDEADBEEF false

theorem witness_Debug_resident : State.KeepsResident 0x10 debugged
    ((debugged.access (.read 0x10)).access (.write 0 7 true)) :=
  .access _ (.access _ (.refl (by decide)) (by decide) (.inl rfl) (by decide)) (by decide) (.inr (by decide)) (by decide)

/-- A wrapped address: x[ebx] + 4 * x[ecx] = 2048 + 2^32 is the bus address of x[rbp] + 0 = 2048. -/
def wrapped : State := start 0 [(.rbp, 2048), (.ebx, 2048), (.ecx, 1073741824), (.esi, -7)]

theorem witness_Wrap : wrapped.cfg.WellFormed ∧ wrapped.Wf ∧ Aligned (wrapped.x .rbp + 0) ∧
    nextOf (exec (.movMemReg 0 .esi) wrapped) ≠ none ∧
    (wrapped.x .ebx + 4 * wrapped.x .ecx - (wrapped.x .rbp + 0)) % 2 ^ wrapped.cfg.bits = 0 ∧
    wrapped.x .ebx + 4 * wrapped.x .ecx ≠ wrapped.x .rbp + 0 := by decide

/-- `storeEsi` in another geometry. -/
def storeEsiSmall : State :=
  start 0x89F00C04 [(.rbp, 2048), (.esi, 2040)] [] [] { Config.default with k := 1, size := 2, nway := 1 }

theorem witness_Geometry : storeEsi.Wf ∧ storeEsi.Coherent ∧ storeEsiSmall.Wf ∧ storeEsiSmall.Coherent ∧
    SameToProgram storeEsi storeEsiSmall ∧ nextOf (step storeEsi) = some (ran storeEsi) :=
  ⟨by decide, by decide, by decide, by decide, by unfold SameToProgram; decide, by decide⟩

def storeNext : State := start 0x89F00400 [(.rbp, 256)]

theorem witness_AStore : storeNext.Wf ∧ storeNext.Fetches (.movMemReg 4 .eax) (fetched storeNext) ∧
    Aligned (storeNext.x .rbp + 4) ∧
    busAddr storeNext.cfg (storeNext.x .rbp + 4) = busAddr storeNext.cfg (storeNext.x .pc + 4) := by decide

def storeNextImm : State := start 0xC7048000 [(.rbp, 256)]

theorem witness_AStore_imm : storeNextImm.Wf ∧ storeNextImm.Fetches (.movMemImm 4 (-32768)) (fetched storeNextImm) ∧
    Aligned (storeNextImm.x .rbp + 4) ∧
    busAddr storeNextImm.cfg (storeNextImm.x .rbp + 4) = busAddr storeNextImm.cfg (storeNextImm.x .pc + 4) := by decide
theorem witness_LoadProgram : (List.replicate 1024 (0#8)).length = 1024 ∧ (List.replicate 1023 (0#8)).length ≠ 1024 ∧
    Config.default.WellFormed ∧ nextOf (step (State.resetWith Config.default)) = some (ran State.reset) ∧
    popOne ≠ State.resetWith popOne.cfg := by
  refine ⟨List.length_replicate, by rw [List.length_replicate]; decide, by decide, by decide, by decide⟩
theorem witness_Unloaded : (⟨10, 0, 1, 1, some 0⟩ : Config).WellFormed := by decide
theorem witness_APlacedWord : (ran storeEsi).Wf ∧ Aligned ((ran storeEsi).x .pc) := by decide

end Sys2Proof.Tests
end

section
/-! SUPPORT. What each instruction does to the hardware Stack (10_state.md R27, R28). -/

namespace Sys2Proof.Machine

/-! When an instruction that uses the Stack raises nothing (10_state.md R27, 60_exceptions.md R150). -/

/-- push and call raise nothing exactly when there is room. -/
theorem raises_eq_none_iff_of_pushes {i : Instr} (s : State) (hi : i.pushes = true) :
    i.raises s = none ↔ s.cfg.stackDepth ≠ some s.stk.length := by
  cases i with
  | push | call => simp [Instr.raises]
  | _ => cases hi

/-- pop and ret raise nothing exactly when there is an entry to take. -/
theorem raises_eq_none_iff_of_pops {i : Instr} (s : State) (hi : i.pops = true) :
    i.raises s = none ↔ s.stk ≠ [] := by
  cases i with
  | pop | ret => simp [Instr.raises]
  | _ => cases hi

/-! The four instructions that use the Stack, where they complete. -/

theorem exec_push_room (r : Reg) {s : State} (h : s.cfg.stackDepth ≠ some s.stk.length) :
    exec (.push r) s = .next { s with stk := s.stk ++ [s.regs.get r] } := by
  rw [exec_push, s.push_room _ _ h]

theorem exec_call_room (p : Int) {s : State} (h : s.cfg.stackDepth ≠ some s.stk.length) :
    exec (.call p) s = .next (State.jumpTo { s with stk := s.stk ++ [s.regs.get .pc] } p) := by
  rw [exec_call, s.push_room _ _ h]

theorem exec_pop_concat (r : Reg) {s : State} {l : List Word} {v : Word} (h : s.stk = l ++ [v]) :
    exec (.pop r) s = .next (State.setReg { s with stk := l } r v) := by
  rw [exec_pop, s.pop_concat _ h]

theorem exec_ret_concat {s : State} {l : List Word} {v : Word} (h : s.stk = l ++ [v]) :
    exec .ret s = .next (State.setReg { s with stk := l } .pc v) := by
  rw [exec_ret, s.pop_concat _ h]

/-- push and call, where they complete, put one entry on top. -/
theorem exec_stk_of_pushes {i : Instr} {s t : State} (hi : i.pushes = true) (hr : i.raises s = none)
    (h : exec i s = .next t) : ∃ v, t.stk = s.stk ++ [v] := by
  have room := (raises_eq_none_iff_of_pushes s hi).1 hr
  cases i with
  | push r =>
    cases (exec_push_room r room).symm.trans h
    exact ⟨_, rfl⟩
  | call p =>
    cases (exec_call_room p room).symm.trans h
    exact ⟨_, rfl⟩
  | _ => cases hi

/-- pop and ret, where they complete, take the top entry. -/
theorem exec_stk_of_pops {i : Instr} {s t : State} (hi : i.pops = true) (hr : i.raises s = none)
    (h : exec i s = .next t) : ∃ v, s.stk = t.stk ++ [v] := by
  obtain ⟨l, v, hs⟩ := (List.eq_nil_or_concat' s.stk).resolve_left ((raises_eq_none_iff_of_pops s hi).1 hr)
  cases i with
  | pop r =>
    cases (exec_pop_concat r hs).symm.trans h
    exact ⟨v, hs⟩
  | ret =>
    cases (exec_ret_concat hs).symm.trans h
    exact ⟨v, hs⟩
  | _ => cases hi

/-! The shared operations other than Push and Pop leave the Stack as it was, whether they raise or not. -/

theorem State.writeChecked_stk {s t : State} {r : Reg} {v : Int} (h : s.writeChecked r v .next = .next t) :
    t.stk = s.stk := by
  by_cases hv : InRange v
  · cases (s.writeChecked_inRange r .next hv).symm.trans h
    rfl
  · cases (s.writeChecked_raises r .next hv).symm.trans h
    rfl

/-- A load leaves the Stack as it was if what is done with the dword does. -/
theorem State.memRead_stk {s t : State} {ea : Int} {f : Word → State → State}
    (h : s.memRead ea (fun w s1 => .next (f w s1)) = .next t) (hf : ∀ w s1, (f w s1).stk = s1.stk) :
    t.stk = s.stk := by
  by_cases ha : Aligned ea
  · cases (s.memRead_aligned _ ha).symm.trans h
    exact hf _ _
  · cases (s.memRead_raises _ ha).symm.trans h
    rfl

theorem State.memWrite_stk {s t : State} {ea : Int} {v : Word} (h : s.memWrite ea v .next = .next t) :
    t.stk = s.stk := by
  by_cases ha : Aligned ea
  · cases (s.memWrite_aligned v .next ha).symm.trans h
    rfl
  · cases (s.memWrite_raises v .next ha).symm.trans h
    rfl

/-- Every instruction but push, call, pop and ret leaves the Stack as it was, completed or not. -/
theorem exec_stk_of_not_pushes_of_not_pops {i : Instr} {s t : State} (hpush : i.pushes = false)
    (hpop : i.pops = false) (h : exec i s = .next t) : t.stk = s.stk := by
  cases i with
  | push | call => cases hpush
  | pop | ret => cases hpop
  | lea | addRegImm | addRegReg | subRegImm | subRegReg => exact State.writeChecked_stk h
  | movRegMem rd d => exact State.memRead_stk ((exec_movRegMem rd d s).symm.trans h) fun _ _ => rfl
  | movRegArr rd rb ri => exact State.memRead_stk ((exec_movRegArr rd rb ri s).symm.trans h) fun _ _ => rfl
  | cmpRegMem ra d => exact State.memRead_stk ((exec_cmpRegMem ra d s).symm.trans h) fun _ _ => rfl
  | cmpRegArr ra rb ri => exact State.memRead_stk ((exec_cmpRegArr ra rb ri s).symm.trans h) fun _ _ => rfl
  | movMemImm | movMemReg => exact State.memWrite_stk h
  | movRegReg | movRegImm | cmpRegReg | cmpRegImm | jmp =>
    cases h
    rfl
  | je | jne | jl | jge | jle | jg =>
    cases h
    exact s.jumpIf_stk _ _

/-- Settles O24: the Stack effect of each instruction, and a pushing and a taking instruction in a row, both ways
across the pairs push/pop and call/ret. -/
theorem onlyStackInstructionsUseTheStack : Obligations.OnlyStackInstructionsUseTheStack := by
  refine ⟨fun i s t h _ => ?_, fun s t r hr h => ?_, fun s t p r hr h => ?_⟩
  · exact ⟨fun hi hr => exec_stk_of_pushes hi hr h, fun hi hr => exec_stk_of_pops hi hr h,
      fun hpush hpop => exec_stk_of_not_pushes_of_not_pops hpush hpop h⟩
  · have room := (raises_eq_none_iff_of_pushes s rfl).1 hr
    cases (exec_push_room r room).symm.trans h
    exact ⟨_, exec_ret_concat rfl, State.x_setReg_self _ _ _, rfl⟩
  · have room := (raises_eq_none_iff_of_pushes s rfl).1 hr
    cases (exec_call_room p room).symm.trans h
    exact ⟨_, exec_pop_concat r rfl, State.x_setReg_self _ _ _, rfl⟩

end Sys2Proof.Machine
end

section
/-! SUPPORT. The address parts as bit slices, and Lookup both ways (20_memory.md R47, R48). -/

namespace Sys2Proof.Machine

/-! The parts of a bus address as slices of its bits (20_memory.md R47). -/

theorem cacheOffset_toNat (cfg : Config) (ba : BitVec cfg.bits) :
    cacheOffset cfg ba.toNat = (ba.extractLsb' 0 cfg.k).toNat := by
  rw [BitVec.extractLsb'_toNat, Nat.shiftRight_zero]
  rfl

theorem cacheIndex_toNat (cfg : Config) (ba : BitVec cfg.bits) :
    cacheIndex cfg ba.toNat = (ba.extractLsb' cfg.k cfg.setBits).toNat := by
  rw [BitVec.extractLsb'_toNat, Nat.shiftRight_eq_div_pow]
  rfl

/-- The tag has `tagBits` bits, so the slice of that width cuts nothing off. -/
theorem cacheTag_toNat {cfg : Config} (h : cfg.WellFormed) (ba : BitVec cfg.bits) :
    cacheTag cfg ba.toNat = (ba.extractLsb' (cfg.k + cfg.setBits) cfg.tagBits).toNat := by
  rw [BitVec.extractLsb'_toNat, Nat.shiftRight_eq_div_pow]
  exact (Nat.mod_eq_of_lt (cacheTag_lt h ba.isLt)).symm

/-- Settles O49: each part is the slice of R47; the base is so by definition. -/
theorem cacheAddressPartsAreBitSlices : Obligations.CacheAddressPartsAreBitSlices := fun cfg ba h =>
  ⟨cacheOffset_toNat cfg ba, cacheIndex_toNat cfg ba, cacheTag_toNat h ba, rfl⟩

/-! Lookup as equivalences (20_memory.md R48). -/

theorem CacheSet.Wf.lookup_eq_some_iff {cfg : Config} {cs : CacheSet} (h : cs.Wf cfg) {tag w : Nat} :
    cs.lookup tag = some w ↔ ∃ ln, cs.lines[w]? = some (some ln) ∧ ln.tag = tag :=
  ⟨CacheSet.lookup_some, fun ⟨_, hl, ht⟩ => h.lookup_of hl ht⟩

theorem CacheSet.lookup_eq_none_iff {cs : CacheSet} {tag : Nat} :
    cs.lookup tag = none ↔ ∀ (w : Nat) (ln : Line), cs.lines[w]? = some (some ln) → ln.tag ≠ tag := by
  refine ⟨fun h _ _ => CacheSet.lookup_none h, fun h => Option.eq_none_iff_forall_ne_some.2 fun w hw => ?_⟩
  obtain ⟨ln, hl, ht⟩ := CacheSet.lookup_some hw
  exact h w ln hl ht

theorem State.isCacheHit_eq_natCast_iff (s : State) (a w : Nat) :
    s.isCacheHit a = w ↔ s.cache.lookup s.cfg a = some w := by
  unfold State.isCacheHit
  cases s.cache.lookup s.cfg a with
  | none => simp
  | some x => simp

/-- Settles O50: both answers through Lookup in the indexed set, whose tags are unique as the set is well formed. -/
theorem lookupAnswersTheMatchingWay : Obligations.LookupAnswersTheMatchingWay := by
  intro s ba ⟨hcfg, _, hcache, _⟩ _
  have hset := hcache.setAt (cacheIndex_lt hcfg ba)
  exact ⟨fun w => (s.isCacheHit_eq_natCast_iff ba w).trans hset.lookup_eq_some_iff,
    (s.isCacheHit_eq_iff ba).trans CacheSet.lookup_eq_none_iff⟩

end Sys2Proof.Machine
end

section
/-! SUPPORT. Which words the decoder rejects (30_encoding.md R73, R77 to R79). -/

namespace Sys2Proof.Machine

/-! When a `reg()` check fails (30_encoding.md R73, R76). -/

/-- A pattern rejects a word for the selector above 8, or for what its other fields reject whatever the register. -/
theorem withReg_rejects_iff (w : Word) (f : Byte) {use : Reg → Except DecodeReject Instr} {p : Prop}
    (h : ∀ r, (∃ e, use r = .error e) ↔ p) : (∃ e, withReg w f use = .error e) ↔ 8 < f.toNat ∨ p := by
  by_cases hf : 8 < f.toNat
  · simp [withReg_bad w use hf, hf]
  · obtain ⟨r, hr⟩ := Option.ne_none_iff_exists'.1 (mt Reg.ofId?_eq_none.1 hf)
    simp [withReg_some w use hr, h r, hf]

@[simp] theorem withReg_ok_rejects_iff (w : Word) (f : Byte) (use : Reg → Instr) :
    (∃ e, withReg w f (fun r => .ok (use r)) = .error e) ↔ 8 < f.toNat :=
  (withReg_rejects_iff w f (p := False) fun _ => by simp).trans (iff_of_eq (or_false _))

@[simp] theorem withReg_withReg_ok_rejects_iff (w : Word) (f g : Byte) (use : Reg → Reg → Instr) :
    (∃ e, withReg w f (fun r => withReg w g fun q => .ok (use r q)) = .error e) ↔ 8 < f.toNat ∨ 8 < g.toNat :=
  withReg_rejects_iff w f fun r => withReg_ok_rejects_iff w g (use r)

theorem byte_low_nibble_toNat (b : Byte) : (b &&& 0x0F).toNat = b.toNat % 16 :=
  (BitVec.toNat_and ..).trans (Nat.and_two_pow_sub_one_eq_mod b.toNat 4)

theorem withArr_ok_rejects_iff (w : Word) (f : Byte) (use : Reg → Reg → Instr) :
    (∃ e, withArr w f (fun rb ri => .ok (use rb ri)) = .error e) ↔ 8 < f.toNat / 16 ∨ 8 < f.toNat % 16 := by
  unfold withArr
  rw [withReg_withReg_ok_rejects_iff, byte_low_nibble_toNat, BitVec.toNat_ushiftRight, Nat.shiftRight_eq_div_pow]

@[simp] theorem withReg_withArr_ok_rejects_iff (w : Word) (f g : Byte) (use : Reg → Reg → Reg → Instr) :
    (∃ e, withReg w f (fun r => withArr w g fun rb ri => .ok (use r rb ri)) = .error e) ↔
      8 < f.toNat ∨ 8 < g.toNat / 16 ∨ 8 < g.toNat % 16 :=
  withReg_rejects_iff w f fun r => withArr_ok_rejects_iff w g (use r)

/-- A line of R77 that does not match passes the word on to the next one. -/
@[simp] theorem ite_rejects_iff (c : Prop) [Decidable c] (x y : Except DecodeReject Instr) :
    (∃ e, (if c then x else y) = .error e) ↔ if c then ∃ e, x = .error e else ∃ e, y = .error e := by
  split <;> rfl

/-! The opcode bytes by what is checked after them (30_encoding.md R78, R79). With the opcode byte fixed, R77 is down
to the few lines of that opcode, and R79 to its items for it. -/

/-- Every opcode byte is of one of these kinds; the last is R79 (a). -/
theorem opcode_cases (b : Byte) :
    (b = 0x01 ∨ b = 0x29 ∨ b = 0x39) ∨ (b = 0x3B ∨ b = 0x8B) ∨ b = 0x89 ∨ (b = 0x06 ∨ b = 0x07) ∨ b = 0xC2 ∨
    (b = 0x05 ∨ b = 0x2D ∨ b = 0x3D ∨ b = 0xC6) ∨ b = 0x8D ∨
    (b = 0x84 ∨ b = 0x85 ∨ b = 0x8C ∨ b = 0x8E ∨ b = 0x8F ∨ b = 0xC7 ∨ b = 0xE8 ∨ b = 0xE9) ∨
    b.toNat ∉ [0x01, 0x05, 0x06, 0x07, 0x29, 0x2D, 0x39, 0x3B, 0x3D, 0x84, 0x85, 0x89, 0x8B, 0x8C, 0x8D, 0x8E, 0x8F,
      0xC2, 0xC6, 0xC7, 0xE8, 0xE9] := by
  revert b
  decide

/-- add, sub and cmp of two registers: selector 0x00 and two register fields. -/
theorem decode_rejects_iff_of_regReg {w : Word} (h : byte0 w = 0x01 ∨ byte0 w = 0x29 ∨ byte0 w = 0x39) :
    (∃ e, decode w = .error e) ↔ IllegalWord w := by
  rcases h with h | h | h <;> simp [decode, IllegalWord, h, imp_iff_not_or]

/-- cmp and mov from memory: selector 0x0F and one register field, or 0x0E and three. -/
theorem decode_rejects_iff_of_regMem_or_regArr {w : Word} (h : byte0 w = 0x3B ∨ byte0 w = 0x8B) :
    (∃ e, decode w = .error e) ↔ IllegalWord w := by
  by_cases hmem : byte1 w = 0x0F#8
  · rcases h with h | h <;> simp [decode, IllegalWord, h, hmem]
  · rcases h with h | h <;> simp [decode, IllegalWord, h, hmem, imp_iff_not_or, or_and_left, em']

/-- mov from a register: selector 0x00 and two register fields, or 0xF0 and one. -/
theorem decode_rejects_iff_of_movFromReg {w : Word} (h : byte0 w = 0x89) :
    (∃ e, decode w = .error e) ↔ IllegalWord w := by
  by_cases hreg : byte1 w = 0x00#8
  · simp [decode, IllegalWord, h, hreg]
  · simp [decode, IllegalWord, h, hreg, imp_iff_not_or, or_and_left, em']

/-- push and pop: a register field and two zero bytes. -/
theorem decode_rejects_iff_of_push_or_pop {w : Word} (h : byte0 w = 0x06 ∨ byte0 w = 0x07) :
    (∃ e, decode w = .error e) ↔ IllegalWord w := by
  rcases h with h | h <;> simp [decode, IllegalWord, h, imp_iff_not_or, or_assoc]

/-- ret: three zero bytes. -/
theorem decode_rejects_iff_of_ret {w : Word} (h : byte0 w = 0xC2) : (∃ e, decode w = .error e) ↔ IllegalWord w := by
  simp [decode, IllegalWord, h, imp_iff_not_or]

/-- add, sub, cmp and mov with an immediate: a register field in the second byte. -/
theorem decode_rejects_iff_of_regImm {w : Word}
    (h : byte0 w = 0x05 ∨ byte0 w = 0x2D ∨ byte0 w = 0x3D ∨ byte0 w = 0xC6) :
    (∃ e, decode w = .error e) ↔ IllegalWord w := by
  rcases h with h | h | h | h <;> simp [decode, IllegalWord, h]

/-- lea and jge: a register field if the second byte is 0x0F, nothing otherwise (30_encoding.md R80). -/
theorem decode_rejects_iff_of_lea_or_jge {w : Word} (h : byte0 w = 0x8D) :
    (∃ e, decode w = .error e) ↔ IllegalWord w := by
  simp [decode, IllegalWord, h]

/-- mov of an immediate to memory, call and the jumps but jge: nothing to check. -/
theorem decode_rejects_iff_of_unchecked {w : Word}
    (h : byte0 w = 0x84 ∨ byte0 w = 0x85 ∨ byte0 w = 0x8C ∨ byte0 w = 0x8E ∨ byte0 w = 0x8F ∨ byte0 w = 0xC7 ∨
      byte0 w = 0xE8 ∨ byte0 w = 0xE9) : (∃ e, decode w = .error e) ↔ IllegalWord w := by
  rcases h with h | h | h | h | h | h | h | h <;> simp [decode, IllegalWord, h]

/-- An opcode byte of no instruction matches no line before 22. -/
theorem decode_eq_noPattern {w : Word}
    (h : (byte0 w).toNat ∉ [0x01, 0x05, 0x06, 0x07, 0x29, 0x2D, 0x39, 0x3B, 0x3D, 0x84, 0x85, 0x89, 0x8B, 0x8C, 0x8D,
      0x8E, 0x8F, 0xC2, 0xC6, 0xC7, 0xE8, 0xE9]) : decode w = .error (.noPattern w) := by
  simp only [List.mem_cons, List.not_mem_nil, or_false, not_or] at h
  simp [decode, ← BitVec.toNat_inj, h]

/-- R77 rejects exactly the words of R79. -/
theorem decode_rejects_iff (w : Word) : (∃ e, decode w = .error e) ↔ IllegalWord w := by
  rcases opcode_cases (byte0 w) with h | h | h | h | h | h | h | h | h
  · exact decode_rejects_iff_of_regReg h
  · exact decode_rejects_iff_of_regMem_or_regArr h
  · exact decode_rejects_iff_of_movFromReg h
  · exact decode_rejects_iff_of_push_or_pop h
  · exact decode_rejects_iff_of_ret h
  · exact decode_rejects_iff_of_regImm h
  · exact decode_rejects_iff_of_lea_or_jge h
  · exact decode_rejects_iff_of_unchecked h
  · exact iff_of_true ⟨_, decode_eq_noPattern h⟩ (.inl h)

/-- A Ready machine that fetches a word the decoder rejects halts with DecodeError, only the cache changed
(60_exceptions.md R151, R156). -/
theorem step_rejected {s : State} {e : DecodeReject} (hr : s.run = .ready) (ha : Aligned (s.x .pc))
    (hd : decode s.fetchedWord = .error e) :
    step s = .next (s.haltedWith s.afterFetch.cache (.decodeError s.fetchedWord)) := by
  rw [step_ready hr, s.fetchDecode_illegal exec ha hd, commitOutcome_next, s.commit_halted rfl]
  rfl

/-- Settles O5: the decoder rejects the words of R79, opcode by opcode, and the step halts on a rejected word. -/
theorem illegalWordsAreExactlyThoseListed : Obligations.IllegalWordsAreExactlyThoseListed := by
  refine ⟨decode_rejects_iff, fun s hr ha hw => ?_⟩
  obtain ⟨e, hd⟩ := (decode_rejects_iff _).2 hw
  exact step_rejected hr ha hd

end Sys2Proof.Machine
end

section
/-! SUPPORT. lea, push, pop and ret: their words, results, frames and errors (40_lea_stack_call.md R100 to R102,
R104). -/

namespace Sys2Proof.Machine

/-! The words (30_encoding.md R77, R79). -/

theorem packWord_fields (b0 b1 b2 b3 : Byte) :
    byte0 (packWord b0 b1 b2 b3) = b0 ∧ byte1 (packWord b0 b1 b2 b3) = b1 ∧ byte2 (packWord b0 b1 b2 b3) = b2 ∧
      byte3 (packWord b0 b1 b2 b3) = b3 :=
  ⟨packWord_byte0 .., packWord_byte1 .., packWord_byte2 .., packWord_byte3 ..⟩

theorem decode_lea_word {b2 : Byte} (b3 : Byte) {rd : Reg} (h : Reg.ofId? b2.toNat = some rd) :
    decode (packWord 0x8D 0x0F b2 b3) = .ok (.lea rd b3.toInt) := by
  simp [decode, packWord_fields, withReg_some _ _ h, dispOf]

theorem decode_push_word {b1 : Byte} {r : Reg} (h : Reg.ofId? b1.toNat = some r) :
    decode (packWord 0x06 b1 0 0) = .ok (.push r) := by
  simp [decode, packWord_fields, withReg_some _ _ h]

theorem decode_pop_word {b1 : Byte} {r : Reg} (h : Reg.ofId? b1.toNat = some r) :
    decode (packWord 0x07 b1 0 0) = .ok (.pop r) := by
  simp [decode, packWord_fields, withReg_some _ _ h]

theorem lea_word_rejected {b2 : Byte} (b3 : Byte) (h : 8 < b2.toNat) :
    ∃ e, decode (packWord 0x8D 0x0F b2 b3) = .error e := by
  rw [decode_rejects_iff]
  simp [IllegalWord, packWord_fields, h]

/-- push and pop have the same fields, and are rejected for the same values of them. -/
theorem push_or_pop_word_rejected {b0 b1 b2 b3 : Byte} (h0 : b0 = 0x06 ∨ b0 = 0x07)
    (h : 8 < b1.toNat ∨ b2 ≠ 0 ∨ b3 ≠ 0) : ∃ e, decode (packWord b0 b1 b2 b3) = .error e := by
  rw [decode_rejects_iff]
  rcases h0 with rfl | rfl <;> simpa [IllegalWord, packWord_fields, or_comm, or_assoc] using h

theorem ret_word_rejected {b1 b2 b3 : Byte} (h : b1 ≠ 0 ∨ b2 ≠ 0 ∨ b3 ≠ 0) :
    ∃ e, decode (packWord 0xC2 b1 b2 b3) = .error e := by
  rw [decode_rejects_iff]
  simpa [IllegalWord, packWord_fields] using h

/-! Writing one register (10_state.md R20). -/

theorem onlyReg_setReg (s : State) (r : Reg) (v : Word) : OnlyReg s (s.setReg r v) r v.toInt :=
  ⟨s.x_setReg_self r v, fun _ h => s.x_setReg_of_ne v h⟩

theorem onlyReg_setX (s : State) (r : Reg) {v : Int} (h : InRange v) : OnlyReg s (s.setX r v) r v :=
  ⟨s.x_setX_self r h, fun _ hq => s.x_setX_of_ne v hq⟩

theorem sameButRegsAndCache_setX (s : State) (r : Reg) (v : Int) : SameButRegsAndCache s (s.setX r v) :=
  ⟨rfl, rfl, rfl, rfl, rfl, fun _ => rfl⟩

/-! What raises StackOverflow and StackUnderflow (10_state.md R27, 60_exceptions.md R156). -/

theorem exec_full_of_pushes {i : Instr} {s : State} (hi : i.pushes = true)
    (h : s.cfg.stackDepth = some s.stk.length) : exec i s = .next (s.raise .stackOverflow) := by
  cases i with
  | push r => rw [exec_push, s.push_full _ _ h]
  | call p => rw [exec_call, s.push_full _ _ h]
  | _ => cases hi

theorem exec_empty_of_pops {i : Instr} {s : State} (hi : i.pops = true) (h : s.stk = []) :
    exec i s = .next (s.raise .stackUnderflow) := by
  cases i with
  | pop r => rw [exec_pop, s.pop_empty _ h]
  | ret => rw [exec_ret, s.pop_empty _ h]
  | _ => cases hi

/-- An error raised in the Execute phase leaves the state the step began with, Halted, and the cache of the phase. -/
theorem State.Fetches.step_raised {s s1 : State} {i : Instr} {e : ErrorRecord} (h : s.Fetches i s1)
    (he : exec i s1 = .next (s1.raise e)) : step s = .next (s.haltedWith s1.cache e) := by
  rw [h.step_eq, he, commitOutcome_next, s.commit_halted (s1.raise_run e), State.raise_cache]

/-- Fetch, decode and the advance of pc do not touch the Stack. -/
theorem State.Fetches.stk_eq {s s1 : State} {i : Instr} (h : s.Fetches i s1) : s1.stk = s.stk := by
  obtain ⟨-, -, -, -, rfl⟩ := h
  rfl

theorem step_empty_of_pops {s s1 : State} {i : Instr} (hi : i.pops = true) (h : s.Fetches i s1) (hs : s.stk = []) :
    step s = .next (s.haltedWith s1.cache .stackUnderflow) :=
  h.step_raised (exec_empty_of_pops hi (h.stk_eq.trans hs))

/-! The statements. -/

/-- Settles O27: lea is a checked register write of the effective address. -/
theorem leaWritesTheAddressOnly : Obligations.LeaWritesTheAddressOnly := by
  refine ⟨fun _ b3 _ => decode_lea_word b3, fun _ b3 => lea_word_rejected b3, fun s rd d h => ?_,
    fun s rd _ => s.writeChecked_raises rd .next⟩
  exact ⟨_, s.writeChecked_inRange rd .next h, onlyReg_setX s rd h, sameButRegsAndCache_setX s rd _, rfl⟩

/-- Settles O28: where there is room push changes the Stack field only, where there is none it raises. -/
theorem pushAddsTheRegisterToTheStack : Obligations.PushAddsTheRegisterToTheStack := by
  refine ⟨fun _ _ => decode_push_word, fun _ _ _ => push_or_pop_word_rejected (.inl rfl), fun s r h => ?_,
    fun _ _ => exec_full_of_pushes rfl⟩
  exact ⟨_, exec_push_room r h, rfl, fun _ => rfl, rfl, rfl, rfl, rfl, fun _ => rfl, rfl⟩

/-- Settles O29: pop is a register write of the top entry on the state without that entry. -/
theorem popTakesTheTopOfTheStack : Obligations.PopTakesTheTopOfTheStack := by
  refine ⟨fun _ _ => decode_pop_word, fun _ _ _ => push_or_pop_word_rejected (.inr rfl), fun s r l v h => ?_,
    fun _ _ => exec_empty_of_pops rfl, fun _ _ _ => step_empty_of_pops rfl⟩
  exact ⟨_, exec_pop_concat r h, rfl, onlyReg_setReg { s with stk := l } r v, rfl, rfl, rfl, rfl, fun _ => rfl, rfl⟩

/-- Settles O31: ret does to pc what pop does to a register. -/
theorem retPopsTheProgramCounter : Obligations.RetPopsTheProgramCounter := by
  refine ⟨by decide, fun _ _ _ => ret_word_rejected, fun s l v h => ?_, fun _ => exec_empty_of_pops rfl,
    fun _ _ => step_empty_of_pops rfl⟩
  exact ⟨_, exec_ret_concat h, rfl, onlyReg_setReg { s with stk := l } .pc v, rfl, rfl, rfl, rfl, fun _ => rfl, rfl⟩

end Sys2Proof.Machine
end

section
/-! SUPPORT. The mov forms with an immediate or with a memory destination: their words, results, frames and errors
(41_mov.md R111, R114, R115). -/

namespace Sys2Proof.Machine

/-! The words (30_encoding.md R77, R79). -/

theorem decode_movRegImm_word {b1 : Byte} (z : BitVec 16) {rd : Reg} (h : Reg.ofId? b1.toNat = some rd) :
    decode (0xC6#8 ++ b1 ++ z) = .ok (.movRegImm rd z.toInt) := by
  simp [decode, byte0_imm, byte1_imm, immOf_imm, withReg_some _ _ h]

theorem movRegImm_word_rejected {b1 : Byte} (z : BitVec 16) (h : 8 < b1.toNat) :
    ∃ e, decode (0xC6#8 ++ b1 ++ z) = .error e := by
  rw [decode_rejects_iff]
  simp [IllegalWord, byte0_imm, byte1_imm, h]

theorem decode_movMemImm_word (b1 : Byte) (z : BitVec 16) :
    decode (0xC7#8 ++ b1 ++ z) = .ok (.movMemImm b1.toInt z.toInt) := by
  simp [decode, byte0_imm, byte1_imm, immOf_imm, dispOf]

theorem decode_movMemReg_word (b2 : Byte) {b3 : Byte} {rs : Reg} (h : Reg.ofId? b3.toNat = some rs) :
    decode (packWord 0x89 0xF0 b2 b3) = .ok (.movMemReg b2.toInt rs) := by
  simp [decode, packWord_fields, withReg_some _ _ h, dispOf]

theorem movMemReg_word_rejected (b2 : Byte) {b3 : Byte} (h : 8 < b3.toNat) :
    ∃ e, decode (packWord 0x89 0xF0 b2 b3) = .error e := by
  rw [decode_rejects_iff]
  simp [IllegalWord, packWord_fields, h]

/-! Immediates and stored dwords. -/

/-- An encodable immediate is a value a register can hold (00_scope.md R7, 30_encoding.md R88). -/
theorem inRange_of_immFits {v : Int} (h : ImmFits v) : InRange v := ⟨by omega, by omega⟩

/-- A write-through stores the dword and no other byte of Memory (20_memory.md R53). -/
theorem State.cacheWrite_storedDword {s : State} (h : s.mem.wf) (ba : Nat) (w : Word) :
    StoredDword s (s.cacheWrite ba w true) ba w := by
  have hin : ∀ j, j < 4 → (s.cacheWrite ba w true).mem.read (ba + j) = (wordBytes w).getD j 0 := fun j hj => by
    have hrange : ba ≤ ba + j ∧ ba + j < ba + (wordBytes w).length := ⟨by omega, Nat.add_lt_add_left hj ba⟩
    rw [State.cacheWrite_mem, if_pos rfl, Memory.read_writeBytes _ _ _ h, if_pos hrange, Nat.add_sub_cancel_left]
  exact ⟨hin 0 (by decide), hin 1 (by decide), hin 2 (by decide), hin 3 (by decide),
    fun _ ha => Memory.read_writeBytes_outside ha⟩

/-- A load from the effective address just stored to goes on with the dword stored (20_memory.md R56). -/
theorem State.memRead_cacheWrite {s : State} (h : s.Wf) {ea : Int} (ha : Aligned ea) (w : Word)
    (next : Word → State → Outcome) :
    (s.cacheWrite (busAddr s.cfg ea) w true).memRead ea next =
      next w ((s.cacheWrite (busAddr s.cfg ea) w true).cacheRead (busAddr s.cfg ea)).2 := by
  rw [State.memRead_aligned _ next ha, State.cacheWrite_cfg, State.cacheRead_cacheWrite h (busAddr_fits h.1 ha)]

/-! The statements. -/

/-- Settles O33: mov reg,imm is a register write of a value in range. -/
theorem movRegImmLoadsTheImmediate : Obligations.MovRegImmLoadsTheImmediate := by
  refine ⟨fun _ z _ => decode_movRegImm_word z, fun _ z => movRegImm_word_rejected z, fun s rd v h => ?_⟩
  exact ⟨_, rfl, onlyReg_setX s rd (inRange_of_immFits h), sameButRegsAndCache_setX s rd v, rfl⟩

/-- Settles O36: mov mem,imm is a write-through of the immediate's word. -/
theorem movMemImmStoresTheImmediate : Obligations.MovMemImmStoresTheImmediate := by
  refine ⟨decode_movMemImm_word, fun s d v hm hv ha => ?_, fun s _ _ => s.memWrite_raises _ .next⟩
  exact ⟨_, _, s.memWrite_aligned _ .next ha, toInt_ofInt_of_inRange (inRange_of_immFits hv),
    State.cacheWrite_storedDword hm _ _, fun _ => rfl, rfl, rfl, rfl, rfl, rfl, rfl⟩

/-- Settles O37: mov mem,reg is a write-through of the register's word, and a load finds what a write-through stored. -/
theorem movMemRegStoresTheRegister : Obligations.MovMemRegStoresTheRegister := by
  refine ⟨fun b2 _ _ => decode_movMemReg_word b2, fun b2 _ => movMemReg_word_rejected b2, fun s d rs hm ha => ?_,
    fun s d rs rd hs ha => ?_, fun s _ _ => s.memWrite_raises _ .next⟩
  · exact ⟨_, _, s.memWrite_aligned _ .next ha, rfl, State.cacheWrite_storedDword hm _ _, fun _ => rfl, rfl, rfl, rfl,
      rfl, rfl, rfl⟩
  · exact ⟨_, _, s.memWrite_aligned _ .next ha, (exec_movRegMem rd d _).trans (State.memRead_cacheWrite hs ha _ _),
      State.x_setReg_self _ rd _⟩

end Sys2Proof.Machine
end

section
/-! SUPPORT. add and sub: their words, results, frames and errors (42_add_sub.md R120 to R124). -/

namespace Sys2Proof.Machine

/-! The words (30_encoding.md R77, R79). -/

theorem decode_addRegImm_word {b1 : Byte} (z : BitVec 16) {rd : Reg} (h : Reg.ofId? b1.toNat = some rd) :
    decode (0x05#8 ++ b1 ++ z) = .ok (.addRegImm rd z.toInt) := by
  simp [decode, byte0_imm, byte1_imm, immOf_imm, withReg_some _ _ h]

theorem decode_subRegImm_word {b1 : Byte} (z : BitVec 16) {rd : Reg} (h : Reg.ofId? b1.toNat = some rd) :
    decode (0x2D#8 ++ b1 ++ z) = .ok (.subRegImm rd z.toInt) := by
  simp [decode, byte0_imm, byte1_imm, immOf_imm, withReg_some _ _ h]

theorem decode_addRegReg_word {b2 b3 : Byte} {rd rs : Reg} (hd : Reg.ofId? b2.toNat = some rd)
    (hs : Reg.ofId? b3.toNat = some rs) : decode (packWord 0x01 0x00 b2 b3) = .ok (.addRegReg rd rs) := by
  simp [decode, packWord_fields, withReg_some _ _ hd, withReg_some _ _ hs]

theorem decode_subRegReg_word {b2 b3 : Byte} {rd rs : Reg} (hd : Reg.ofId? b2.toNat = some rd)
    (hs : Reg.ofId? b3.toNat = some rs) : decode (packWord 0x29 0x00 b2 b3) = .ok (.subRegReg rd rs) := by
  simp [decode, packWord_fields, withReg_some _ _ hd, withReg_some _ _ hs]

/-- add, sub and cmp with an immediate have the same register field, and are rejected for the same values of it. -/
theorem arithRegImm_word_rejected {b0 b1 : Byte} (z : BitVec 16) (h0 : b0 = 0x05 ∨ b0 = 0x2D ∨ b0 = 0x3D)
    (h : 8 < b1.toNat) : ∃ e, decode (b0 ++ b1 ++ z) = .error e := by
  rw [decode_rejects_iff]
  rcases h0 with rfl | rfl | rfl <;> simp [IllegalWord, byte0_imm, byte1_imm, h]

/-- add, sub and cmp of two registers have the same register fields, and are rejected for the same values of them. -/
theorem arithRegReg_word_rejected {b0 b2 b3 : Byte} (h0 : b0 = 0x01 ∨ b0 = 0x29 ∨ b0 = 0x39)
    (h : 8 < b2.toNat ∨ 8 < b3.toNat) : ∃ e, decode (packWord b0 0x00 b2 b3) = .error e := by
  rw [decode_rejects_iff]
  rcases h0 with rfl | rfl | rfl <;> simp [IllegalWord, packWord_fields, h]

/-! The four meanings are one checked register write (42_add_sub.md R120). -/

theorem exec_addRegImm (rd : Reg) (v : Int) (s : State) :
    exec (.addRegImm rd v) s = s.writeChecked rd (s.x rd + v) .next := rfl
theorem exec_subRegImm (rd : Reg) (v : Int) (s : State) :
    exec (.subRegImm rd v) s = s.writeChecked rd (s.x rd - v) .next := rfl
theorem exec_addRegReg (rd rs : Reg) (s : State) :
    exec (.addRegReg rd rs) s = s.writeChecked rd (s.x rd + s.x rs) .next := rfl
theorem exec_subRegReg (rd rs : Reg) (s : State) :
    exec (.subRegReg rd rs) s = s.writeChecked rd (s.x rd - s.x rs) .next := rfl

/-- An instruction that ends in a checked write of a value in range changes that register only. -/
theorem writes_onlyReg_of_exec_eq {i : Instr} {s : State} {r : Reg} {v : Int}
    (hi : exec i s = s.writeChecked r v .next) (hv : InRange v) :
    ∃ t, exec i s = .next t ∧ OnlyReg s t r v ∧ SameButRegsAndCache s t ∧ t.cache = s.cache :=
  ⟨s.setX r v, hi.trans (s.writeChecked_inRange r .next hv), onlyReg_setX s r hv, sameButRegsAndCache_setX s r v, rfl⟩

/-- An instruction that ends in a checked write of a value out of range raises RangeError of that value. -/
theorem raises_rangeError_of_exec_eq {i : Instr} {s : State} {r : Reg} {v : Int}
    (hi : exec i s = s.writeChecked r v .next) (hv : ¬ InRange v) :
    exec i s = .next (s.raise (.rangeError v)) :=
  hi.trans (s.writeChecked_raises r .next hv)

/-! The statements. -/

/-- Settles O38: add and sub of an immediate are checked writes of the exact sum and difference. -/
theorem addAndSubOfAnImmediateAreExact : Obligations.AddAndSubOfAnImmediateAreExact := by
  refine ⟨fun _ z _ h => ⟨decode_addRegImm_word z h, decode_subRegImm_word z h⟩, fun _ z h =>
    ⟨arithRegImm_word_rejected z (.inl rfl) h, arithRegImm_word_rejected z (.inr (.inl rfl)) h⟩, ?_, ?_, ?_, ?_⟩
  · exact fun s rd v => writes_onlyReg_of_exec_eq (exec_addRegImm rd v s)
  · exact fun s rd v => raises_rangeError_of_exec_eq (exec_addRegImm rd v s)
  · exact fun s rd v => writes_onlyReg_of_exec_eq (exec_subRegImm rd v s)
  · exact fun s rd v => raises_rangeError_of_exec_eq (exec_subRegImm rd v s)

/-- Settles O39: add and sub of two registers are checked writes of the exact sum and difference. -/
theorem addAndSubOfRegistersAreExact : Obligations.AddAndSubOfRegistersAreExact := by
  refine ⟨fun _ _ _ _ hd hs => ⟨decode_addRegReg_word hd hs, decode_subRegReg_word hd hs⟩, fun _ _ h =>
    ⟨arithRegReg_word_rejected (.inl rfl) h, arithRegReg_word_rejected (.inr (.inl rfl)) h⟩, ?_, ?_, ?_, ?_⟩
  · exact fun s rd rs => writes_onlyReg_of_exec_eq (exec_addRegReg rd rs s)
  · exact fun s rd rs => raises_rangeError_of_exec_eq (exec_addRegReg rd rs s)
  · exact fun s rd rs => writes_onlyReg_of_exec_eq (exec_subRegReg rd rs s)
  · exact fun s rd rs => raises_rangeError_of_exec_eq (exec_subRegReg rd rs s)

end Sys2Proof.Machine
end

section
/-! SUPPORT. cmp with an immediate or with a frame dword: their words, flags, frames and errors (43_cmp.md R130, R132,
R133). -/

namespace Sys2Proof.Machine

/-! The words (30_encoding.md R77, R79). -/

theorem decode_cmpRegImm_word {b1 : Byte} (z : BitVec 16) {ra : Reg} (h : Reg.ofId? b1.toNat = some ra) :
    decode (0x3D#8 ++ b1 ++ z) = .ok (.cmpRegImm ra z.toInt) := by
  simp [decode, byte0_imm, byte1_imm, immOf_imm, withReg_some _ _ h]

theorem decode_cmpRegMem_word {b2 : Byte} (b3 : Byte) {ra : Reg} (h : Reg.ofId? b2.toNat = some ra) :
    decode (packWord 0x3B 0x0F b2 b3) = .ok (.cmpRegMem ra b3.toInt) := by
  simp [decode, packWord_fields, withReg_some _ _ h, dispOf]

/-- cmp and mov from a frame dword have the same register field, and are rejected for the same values of it. -/
theorem regMem_word_rejected {b0 b2 : Byte} (b3 : Byte) (h0 : b0 = 0x3B ∨ b0 = 0x8B) (h : 8 < b2.toNat) :
    ∃ e, decode (packWord b0 0x0F b2 b3) = .error e := by
  rw [decode_rejects_iff]
  rcases h0 with rfl | rfl <;> simp [IllegalWord, packWord_fields, h]

/-! The compare law, and the dword a load finds. -/

/-- The two flags are the two relations, whatever the integers (43_cmp.md R130). -/
theorem comparedFlags_compare (s : State) (a b : Int) : ComparedFlags (s.compare a b) a b := by
  simp [ComparedFlags, compareFlags]

/-- In a well-formed coherent state the cache answers Memory's dword at an aligned address (20_memory.md R52, R58). -/
theorem State.Coherent.cacheRead_busAddr {s : State} (hco : s.Coherent) (h : s.Wf) {ea : Int} (ha : Aligned ea) :
    (s.cacheRead (busAddr s.cfg ea)).1 = s.mem.dword (busAddr s.cfg ea) :=
  State.cacheRead_dword h (busAddr_fits h.1 ha) fun j _ => (State.coherent_iff h).1 hco (busAddr s.cfg ea + j)

/-- An instruction that ends in a compare with the dword at an aligned address writes the flags by that dword, and
changes nothing else but the cache. -/
theorem compares_of_exec_eq_memRead {i : Instr} {s : State} {ra : Reg} {ea : Int}
    (hi : exec i s = s.memRead ea fun w s1 => .next (s1.compare (s1.x ra) w.toInt)) (ha : Aligned ea) :
    ∃ t, exec i s = .next t ∧ ComparedFlags t (s.x ra) (s.cacheRead (busAddr s.cfg ea)).1.toInt ∧ SameRegs s t ∧
      SameStackRunMemory s t ∧ t.cache = (s.cacheRead (busAddr s.cfg ea)).2.cache ∧
      (s.Wf → s.Coherent → ComparedFlags t (s.x ra) (s.mem.dword (busAddr s.cfg ea)).toInt) := by
  have hflags := comparedFlags_compare (s.cacheRead (busAddr s.cfg ea)).2 (s.x ra)
    (s.cacheRead (busAddr s.cfg ea)).1.toInt
  refine ⟨_, hi.trans (s.memRead_aligned _ ha), hflags, fun _ => rfl, ⟨rfl, rfl, rfl, rfl, fun _ => rfl⟩, rfl,
    fun hs hco => ?_⟩
  rw [← hco.cacheRead_busAddr hs ha]
  exact hflags

/-! The statements. -/

/-- Settles O40: cmp reg,imm is a compare, with no access and nothing to raise. -/
theorem cmpRegImmComparesExactly : Obligations.CmpRegImmComparesExactly := by
  refine ⟨fun _ z _ => decode_cmpRegImm_word z, fun _ z => arithRegImm_word_rejected z (.inr (.inr rfl)),
    fun s ra v => ?_⟩
  exact ⟨_, rfl, comparedFlags_compare s (s.x ra) v, fun _ => rfl, ⟨rfl, rfl, rfl, rfl, fun _ => rfl⟩, rfl⟩

/-- Settles O42: cmp reg,mem is a compare after a load, and a load at a misaligned address raises before any flag is
written. -/
theorem cmpRegMemComparesWithTheFrameDword : Obligations.CmpRegMemComparesWithTheFrameDword :=
  ⟨fun _ b3 _ => decode_cmpRegMem_word b3, fun _ b3 => regMem_word_rejected b3 (.inl rfl),
    fun s ra d => compares_of_exec_eq_memRead (exec_cmpRegMem ra d s),
    fun s ra d h => (exec_cmpRegMem ra d s).trans (s.memRead_raises _ h)⟩

end Sys2Proof.Machine
end

section
/-! SUPPORT. jmp and the six conditional jumps: their words, the condition of each, and what a jump leaves unchanged
(44_jumps.md R140 to R147). -/

namespace Sys2Proof.Machine

/-! The words (30_encoding.md R77). -/

theorem decode_jmp_word (j : BitVec 24) : decode (0xE9#8 ++ j) = .ok (.jmp j.toInt) := by
  simp [decode, byte0_target, targetOf_target]
theorem decode_je_word (j : BitVec 24) : decode (0x84#8 ++ j) = .ok (.je j.toInt) := by
  simp [decode, byte0_target, targetOf_target]
theorem decode_jne_word (j : BitVec 24) : decode (0x85#8 ++ j) = .ok (.jne j.toInt) := by
  simp [decode, byte0_target, targetOf_target]
theorem decode_jl_word (j : BitVec 24) : decode (0x8C#8 ++ j) = .ok (.jl j.toInt) := by
  simp [decode, byte0_target, targetOf_target]
theorem decode_jle_word (j : BitVec 24) : decode (0x8E#8 ++ j) = .ok (.jle j.toInt) := by
  simp [decode, byte0_target, targetOf_target]
theorem decode_jg_word (j : BitVec 24) : decode (0x8F#8 ++ j) = .ok (.jg j.toInt) := by
  simp [decode, byte0_target, targetOf_target]

/-- jge shares its opcode byte with lea, which is tried first and takes every word with 0x0F next
(30_encoding.md R80). -/
theorem decode_jge_word {j : BitVec 24} (h : j.extractLsb' 16 8 ≠ 0x0F) :
    decode (0x8D#8 ++ j) = .ok (.jge j.toInt) := by
  have hlea : byte1 (0x8D#8 ++ j : Word) ≠ 0x0F#8 := by rwa [byte1_target]
  simp [decode, byte0_target, targetOf_target, hlea]

/-! What a jump changes. -/

/-- Every target fits a register: 24 bits against 32 (44_jumps.md R140). -/
theorem inRange_of_targetFits {p : Int} (h : TargetFits p) : InRange p := ⟨by omega, by omega⟩

/-- An instruction that ends in a jump sets pc to the target and changes nothing else. -/
theorem jumps_of_exec_eq {i : Instr} {s : State} {p : Int} (hi : exec i s = .next (s.jumpTo p)) (hp : TargetFits p) :
    ∃ t, exec i s = .next t ∧ OnlyReg s t .pc p ∧ SameButRegsAndCache s t ∧ t.cache = s.cache :=
  ⟨s.jumpTo p, hi, onlyReg_setX s .pc (inRange_of_targetFits hp), sameButRegsAndCache_setX s .pc p, s.jumpTo_cache p⟩

/-- An instruction that ends in a jump on a predicate of the flags, where `c` says what that predicate is. -/
theorem jumpsIf_of_exec_eq {mk : Int → Instr} {b : Flags → Bool} {c : Flags → Prop}
    (he : ∀ p s, exec (mk p) s = .next (s.jumpIf (b s.flags) p)) (hb : ∀ f, b f = true ↔ c f) : JumpsIf mk c := by
  intro s p hp
  constructor
  · intro hc
    have htaken : b s.flags = true := (hb s.flags).2 hc
    exact jumps_of_exec_eq (by rw [he, htaken, State.jumpIf_true]) hp
  · intro hc
    have huntaken : b s.flags = false := Bool.eq_false_iff.2 (mt (hb s.flags).1 hc)
    rw [he, huntaken, State.jumpIf_false]

/-! The conditions, in the flag values they test (44_jumps.md R141). -/

theorem Flags.ne_iff (f : Flags) : f.ne = true ↔ f.zero = false := by
  simp [Flags.ne]
theorem Flags.l_iff (f : Flags) : f.l = true ↔ f.zero = false ∧ f.sign = true := by
  simp [Flags.l]
theorem Flags.ge_iff (f : Flags) : f.ge = true ↔ f.zero = true ∨ f.sign = false := by
  simp [Flags.ge]
theorem Flags.le_iff (f : Flags) : f.le = true ↔ f.zero = true ∨ f.sign = true := by
  simp [Flags.le]
theorem Flags.g_iff (f : Flags) : f.g = true ↔ f.zero = false ∧ f.sign = false := by
  simp [Flags.g]

/-! The statements. -/

/-- Settles O44: jmp is a jump to its sign-extended target. -/
theorem jmpSetsTheProgramCounter : Obligations.JmpSetsTheProgramCounter :=
  ⟨decode_jmp_word, fun _ _ => jumps_of_exec_eq rfl⟩

/-- Settles O45: each conditional jump is a jump where its predicate of the flags is true. -/
theorem conditionalJumpsTestTheFlags : Obligations.ConditionalJumpsTestTheFlags := by
  refine ⟨fun j => ⟨decode_je_word j, decode_jne_word j, decode_jl_word j, decode_jle_word j, decode_jg_word j,
    decode_jge_word⟩, ?je, ?jne, ?jl, ?jge, ?jle, ?jg⟩
  case je => exact jumpsIf_of_exec_eq (b := Flags.e) (fun _ _ => rfl) fun _ => Iff.rfl
  case jne => exact jumpsIf_of_exec_eq (fun _ _ => rfl) Flags.ne_iff
  case jl => exact jumpsIf_of_exec_eq (fun _ _ => rfl) Flags.l_iff
  case jge => exact jumpsIf_of_exec_eq (fun _ _ => rfl) Flags.ge_iff
  case jle => exact jumpsIf_of_exec_eq (fun _ _ => rfl) Flags.le_iff
  case jg => exact jumpsIf_of_exec_eq (fun _ _ => rfl) Flags.g_iff

end Sys2Proof.Machine
end

section
/-! SUPPORT. What each instruction does, said once: the errors of 60_exceptions.md R150 and, where none is raised, the
state it leaves. The rules about the whole instruction set are read off it. -/

namespace Sys2Proof

open Machine

/-- What is done with the dword at an effective address after it was loaded, the cache being as the load left it. -/
def Machine.State.load (s : State) (ea : Int) (f : Word → State → State) : State :=
  f (s.cacheRead (busAddr s.cfg ea)).1 (s.cacheRead (busAddr s.cfg ea)).2

/-- The state without the top entry of the Stack. -/
def Machine.State.popped (s : State) : State := { s with stk := s.stk.dropLast }

/-- The state with one more entry on the Stack. -/
def Machine.State.pushed (s : State) (v : Word) : State := { s with stk := s.stk ++ [v] }

/-- The state an instruction that raises nothing leaves; tied to `exec` by `exec_eq`. -/
def Instr.completed (s : State) : Instr → State
  | .lea rd d => s.setX rd (s.memEA d)
  | .push r => s.pushed (s.regs.get r)
  | .pop r => s.popped.setReg r (s.stk.getLastD 0)
  | .call t => (s.pushed (s.regs.get .pc)).jumpTo t
  | .ret => s.popped.setReg .pc (s.stk.getLastD 0)
  | .movRegReg rd rs => s.setReg rd (s.regs.get rs)
  | .movRegImm rd v => s.setX rd v
  | .movRegMem rd d => s.load (s.memEA d) fun w s1 => s1.setReg rd w
  | .movRegArr rd rb ri => s.load (s.arrEA rb ri) fun w s1 => s1.setReg rd w
  | .movMemImm d v => s.cacheWrite (busAddr s.cfg (s.memEA d)) (BitVec.ofInt 32 v) true
  | .movMemReg d rs => s.cacheWrite (busAddr s.cfg (s.memEA d)) (s.regs.get rs) true
  | .addRegImm rd v => s.setX rd (s.x rd + v)
  | .addRegReg rd rs => s.setX rd (s.x rd + s.x rs)
  | .subRegImm rd v => s.setX rd (s.x rd - v)
  | .subRegReg rd rs => s.setX rd (s.x rd - s.x rs)
  | .cmpRegReg ra rb => s.compare (s.x ra) (s.x rb)
  | .cmpRegMem ra d => s.load (s.memEA d) fun w s1 => s1.compare (s1.x ra) w.toInt
  | .cmpRegImm ra v => s.compare (s.x ra) v
  | .cmpRegArr ra rb ri => s.load (s.arrEA rb ri) fun w s1 => s1.compare (s1.x ra) w.toInt
  | .jmp t => s.jumpTo t
  | .je t => s.jumpIf s.flags.e t
  | .jne t => s.jumpIf s.flags.ne t
  | .jl t => s.jumpIf s.flags.l t
  | .jge t => s.jumpIf s.flags.ge t
  | .jle t => s.jumpIf s.flags.le t
  | .jg t => s.jumpIf s.flags.g t

end Sys2Proof

namespace Sys2Proof.Machine

open Instr.raises (rangeCheck alignCheck)

/-! The checks of R150, and each shared operation as its check and what it does when that passes. -/

theorem rangeCheck_of_inRange {v : Int} (h : InRange v) : rangeCheck v = none := if_neg (by omega)

theorem rangeCheck_of_not_inRange {v : Int} (h : ¬ InRange v) : rangeCheck v = some (.rangeError v) := if_pos (by omega)

theorem alignCheck_of_aligned {ea : Int} (h : Aligned ea) : alignCheck ea = none := if_neg (not_not.2 h)

theorem alignCheck_of_not_aligned {ea : Int} (h : ¬ Aligned ea) : alignCheck ea = some (.misalignedAccess ea) :=
  if_pos h

theorem aligned_of_alignCheck {ea : Int} (h : alignCheck ea = none) : Aligned ea := by
  by_contra ha
  cases (alignCheck_of_not_aligned ha).symm.trans h

theorem State.writeChecked_eq (s : State) (r : Reg) (v : Int) :
    s.writeChecked r v .next = .next ((rangeCheck v).elim (s.setX r v) s.raise) := by
  by_cases h : InRange v
  · rw [s.writeChecked_inRange r .next h, rangeCheck_of_inRange h]
    rfl
  · rw [s.writeChecked_raises r .next h, rangeCheck_of_not_inRange h]
    rfl

theorem State.memRead_eq (s : State) (ea : Int) (f : Word → State → State) :
    s.memRead ea (fun w s1 => .next (f w s1)) = .next ((alignCheck ea).elim (s.load ea f) s.raise) := by
  by_cases h : Aligned ea
  · rw [s.memRead_aligned _ h, alignCheck_of_aligned h]
    rfl
  · rw [s.memRead_raises _ h, alignCheck_of_not_aligned h]
    rfl

theorem State.memWrite_eq (s : State) (ea : Int) (v : Word) :
    s.memWrite ea v .next = .next ((alignCheck ea).elim (s.cacheWrite (busAddr s.cfg ea) v true) s.raise) := by
  by_cases h : Aligned ea
  · rw [s.memWrite_aligned v .next h, alignCheck_of_aligned h]
    rfl
  · rw [s.memWrite_raises v .next h, alignCheck_of_not_aligned h]
    rfl

theorem State.push_eq (s : State) (v : Word) (f : State → State) :
    s.push v (fun s1 => .next (f s1)) =
      .next ((if s.cfg.stackDepth = some s.stk.length then some .stackOverflow else none).elim (f (s.pushed v))
        s.raise) := by
  by_cases h : s.cfg.stackDepth = some s.stk.length
  · rw [s.push_full v _ h, if_pos h]
    rfl
  · rw [s.push_room v _ h, if_neg h]
    rfl

theorem State.pop_eq (s : State) (r : Reg) :
    s.pop (fun v s1 => .next (s1.setReg r v)) =
      .next ((if s.stk = [] then some .stackUnderflow else none).elim (s.popped.setReg r (s.stk.getLastD 0))
        s.raise) := by
  rcases List.eq_nil_or_concat' s.stk with h | ⟨l, v, h⟩
  · rw [s.pop_empty _ h, if_pos h]
    rfl
  · rw [s.pop_concat _ h, if_neg (by simp [h])]
    simp [State.popped, h]

/-- `exec` is the error of R150 if there is one, and the completed instruction otherwise. -/
theorem exec_eq (i : Instr) (s : State) : exec i s = .next ((i.raises s).elim (i.completed s) s.raise) := by
  cases i with
  | lea | addRegImm | addRegReg | subRegImm | subRegReg => exact s.writeChecked_eq _ _
  | movRegMem rd | movRegArr rd => exact s.memRead_eq _ fun w s1 => s1.setReg rd w
  | cmpRegMem ra | cmpRegArr ra => exact s.memRead_eq _ fun w s1 => s1.compare (s1.x ra) w.toInt
  | movMemImm | movMemReg => exact s.memWrite_eq _ _
  | push r => exact s.push_eq _ fun s1 => s1
  | call t => exact s.push_eq _ fun s1 => s1.jumpTo t
  | pop | ret => exact s.pop_eq _
  | movRegReg | movRegImm | cmpRegReg | cmpRegImm | jmp | je | jne | jl | jge | jle | jg => rfl

theorem exec_of_raises {i : Instr} {s : State} {e : ErrorRecord} (h : i.raises s = some e) :
    exec i s = .next (s.raise e) := by
  rw [exec_eq, h]
  rfl

theorem exec_of_not_raises {i : Instr} {s : State} (h : i.raises s = none) : exec i s = .next (i.completed s) := by
  rw [exec_eq, h]
  rfl

theorem exec_cases {i : Instr} {s t : State} (h : exec i s = .next t) :
    (∃ e, i.raises s = some e ∧ t = s.raise e) ∨ (i.raises s = none ∧ t = i.completed s) := by
  cases hr : i.raises s with
  | some e =>
    cases (exec_of_raises hr).symm.trans h
    exact .inl ⟨e, rfl, rfl⟩
  | none =>
    cases (exec_of_not_raises hr).symm.trans h
    exact .inr ⟨rfl, rfl⟩

/-! What every completed instruction leaves unchanged. -/

@[simp] theorem completed_cfg (i : Instr) (s : State) : (i.completed s).cfg = s.cfg := by
  cases i with
  | je | jne | jl | jge | jle | jg => exact s.jumpIf_cfg _ _
  | _ => rfl

@[simp] theorem completed_loaded (i : Instr) (s : State) : (i.completed s).loaded = s.loaded := by
  cases i with
  | je | jne | jl | jge | jle | jg => exact s.jumpIf_loaded _ _
  | _ => rfl

@[simp] theorem completed_run (i : Instr) (s : State) : (i.completed s).run = s.run := by
  cases i with
  | je | jne | jl | jge | jle | jg => exact s.jumpIf_run _ _
  | _ => rfl

theorem completed_flags_of_not_isCmp {i : Instr} (s : State) (h : i.isCmp = false) :
    (i.completed s).flags = s.flags := by
  cases i with
  | cmpRegReg | cmpRegMem | cmpRegImm | cmpRegArr => cases h
  | je | jne | jl | jge | jle | jg => exact s.jumpIf_flags _ _
  | _ => rfl

theorem completed_flags_of_isCmp {i : Instr} (s : State) (h : i.isCmp = true) :
    ∃ a b, (i.completed s).flags = compareFlags a b := by
  cases i with
  | cmpRegReg | cmpRegMem | cmpRegImm | cmpRegArr => exact ⟨_, _, rfl⟩
  | _ => cases h

theorem completed_mem_of_storesAt_none {i : Instr} {s : State} (h : i.storesAt s = none) :
    (i.completed s).mem = s.mem := by
  cases i with
  | movMemImm | movMemReg => cases h
  | je | jne | jl | jge | jle | jg => exact s.jumpIf_mem _ _
  | _ => rfl

/-- A storing instruction that completes is a write-through at the address `storesAt` names. -/
theorem completed_of_storesAt {i : Instr} {s : State} {ea : Int} (h : i.storesAt s = some ea) :
    ∃ w, i.completed s = s.cacheWrite (busAddr s.cfg ea) w true := by
  cases i with
  | movMemImm | movMemReg =>
    cases h
    exact ⟨_, rfl⟩
  | _ => cases h

theorem State.x_jumpIf_of_ne (s : State) (c : Bool) (p : Int) {q : Reg} (h : q ≠ .pc) : (s.jumpIf c p).x q = s.x q := by
  cases c with
  | false => rfl
  | true => exact s.x_setX_of_ne p h

theorem completed_x_of_not_writes {i : Instr} {s : State} {q : Reg} (h : q ∉ i.writes) :
    (i.completed s).x q = s.x q := by
  cases i with
  | push | movMemImm | movMemReg | cmpRegReg | cmpRegMem | cmpRegImm | cmpRegArr => rfl
  | lea | pop | call | ret | movRegReg | movRegImm | movRegMem | movRegArr | addRegImm | addRegReg | subRegImm
  | subRegReg | jmp => exact State.x_setReg_of_ne _ _ (List.ne_of_not_mem_cons h)
  | je | jne | jl | jge | jle | jg => exact s.x_jumpIf_of_ne _ _ (List.ne_of_not_mem_cons h)

/-! The statements. -/

/-- Settles O17: `exec` is the check of the instruction's row, then what it does. -/
theorem executeRaisesExactlyTheListedErrors : Obligations.ExecuteRaisesExactlyTheListedErrors := fun i s =>
  ⟨fun _ => exec_of_raises, fun hr => ⟨_, exec_of_not_raises hr, completed_run i s⟩⟩

/-- Settles O25: only a storing instruction changes Memory, by a write of four bytes. -/
theorem memoryChangesOnlyWhereMovStores : Obligations.MemoryChangesOnlyWhereMovStores := by
  intro i s t h
  rcases exec_cases h with ⟨e, -, rfl⟩ | ⟨-, rfl⟩
  · exact ⟨fun _ _ => rfl, fun _ _ _ _ => rfl⟩
  · refine ⟨fun hs a => by rw [completed_mem_of_storesAt_none hs], fun ea hs a ha => ?_⟩
    obtain ⟨w, hw⟩ := completed_of_storesAt hs
    rw [hw]
    exact Memory.read_writeBytes_outside ha

/-- Settles O26: a register outside `writes` is kept, completed or not. -/
theorem onlyNamedRegistersAreWritten : Obligations.OnlyNamedRegistersAreWritten := by
  intro i s t h r hr
  rcases exec_cases h with ⟨e, -, rfl⟩ | ⟨-, rfl⟩
  · rfl
  · exact completed_x_of_not_writes hr

/-! Dependence on the flags (10_state.md R25, R26). -/

theorem raises_withFlags (i : Instr) (s : State) (f : Flags) : i.raises { s with flags := f } = i.raises s := by
  cases i <;> rfl

theorem completed_withFlags_of_isCmp {i : Instr} (s : State) (f : Flags) (h : i.isCmp = true) :
    i.completed { s with flags := f } = i.completed s := by
  cases i with
  | cmpRegReg | cmpRegMem | cmpRegImm | cmpRegArr => rfl
  | _ => cases h

theorem completed_withFlags_of_not_isCmp {i : Instr} (s : State) (f : Flags) (hj : i.isConditionalJump = false)
    (h : i.isCmp = false) : i.completed { s with flags := f } = { i.completed s with flags := f } := by
  cases i with
  | cmpRegReg | cmpRegMem | cmpRegImm | cmpRegArr => cases h
  | je | jne | jl | jge | jle | jg => cases hj
  | _ => rfl

/-- Settles O23: the checks and the completed state with other flags, cmp apart. -/
theorem onlyConditionalJumpsReadTheFlags : Obligations.OnlyConditionalJumpsReadTheFlags := by
  intro i s t f hj h
  rcases exec_cases h with ⟨e, hr, rfl⟩ | ⟨hr, rfl⟩
  · refine ⟨fun _ hn => by simp [hr] at hn, fun _ => ?_⟩
    rw [exec_of_raises ((raises_withFlags i s f).trans hr)]
    rfl
  · have hf := exec_of_not_raises ((raises_withFlags i s f).trans hr)
    refine ⟨fun hc _ => by rw [hf, completed_withFlags_of_isCmp s f hc], fun hc => ?_⟩
    rw [hf, completed_withFlags_of_not_isCmp s f hj (hc.resolve_right (not_not.2 hr))]

end Sys2Proof.Machine
end

section
/-! SUPPORT. What a step does, said once: the phases of 10_state.md R24 with the errors of 60_exceptions.md R160, and
what every step keeps. -/

namespace Sys2Proof.Machine

/-! How far a step comes, and the state it then leaves. -/

/-- A Ready machine has a misaligned pc, or fetches an illegal word, or cannot advance pc, or comes to Execute. -/
theorem State.phases {s : State} (hr : s.run = .ready) :
    ¬ Aligned (s.x .pc) ∨ (Aligned (s.x .pc) ∧ ∃ e, decode s.fetchedWord = .error e) ∨
    (Aligned (s.x .pc) ∧ ¬ InRange (s.x .pc + 4) ∧ ∃ i, decode s.fetchedWord = .ok i) ∨ ∃ i s1, s.Fetches i s1 := by
  by_cases ha : Aligned (s.x .pc)
  · cases hd : decode s.fetchedWord with
    | error e => exact .inr (.inl ⟨ha, e, rfl⟩)
    | ok i =>
      by_cases hp : InRange (s.x .pc + 4)
      · exact .inr (.inr (.inr ⟨i, _, hr, ha, hd, hp, rfl⟩))
      · exact .inr (.inr (.inl ⟨ha, hp, i, rfl⟩))
  · exact .inl ha

theorem step_halted {s : State} {e : ErrorRecord} (h : s.run = .halted e) : step s = .next s := by
  simp only [step, State.stepWith, h]

theorem step_misaligned {s : State} (hr : s.run = .ready) (ha : ¬ Aligned (s.x .pc)) :
    step s = .next (s.haltedWith s.cache (.misalignedAccess (s.x .pc))) := by
  rw [step_ready hr, s.fetchDecode_misaligned exec ha, commitOutcome_next, s.commit_halted rfl]
  rfl

theorem step_pc_overflow {s : State} {i : Instr} (hr : s.run = .ready) (ha : Aligned (s.x .pc))
    (hp : ¬ InRange (s.x .pc + 4)) (hd : decode s.fetchedWord = .ok i) :
    step s = .next (s.haltedWith s.afterFetch.cache (.rangeError (s.x .pc + 4))) := by
  rw [step_ready hr, s.fetchDecode_legal exec ha hd, s.afterFetch.writeChecked_raises .pc (exec i) hp,
    commitOutcome_next, s.commit_halted rfl]
  rfl

theorem State.Fetches.run_eq {s s1 : State} {i : Instr} (h : s.Fetches i s1) : s1.run = .ready := by
  obtain ⟨hr, -, -, -, rfl⟩ := h
  exact hr

theorem State.Fetches.step_completed {s s1 : State} {i : Instr} (h : s.Fetches i s1) (hr : i.raises s1 = none) :
    step s = .next (i.completed s1) := by
  rw [h.step_eq, exec_of_not_raises hr, commitOutcome_next,
    s.commit_ready ((completed_run i s1).trans h.run_eq)]

/-- What a step can leave: the Halted state it was given; the state as it was, Halted, before or after the fetch; the
completed instruction. -/
theorem step_cases {s t : State} (h : step s = .next t) :
    (∃ e, s.run = .halted e ∧ t = s) ∨ (∃ e, t = s.haltedWith s.cache e) ∨
    (Aligned (s.x .pc) ∧ ∃ e, t = s.haltedWith s.afterFetch.cache e) ∨
    ∃ i s1, s.Fetches i s1 ∧ i.raises s1 = none ∧ t = i.completed s1 := by
  cases hr : s.run with
  | halted e =>
    cases (step_halted hr).symm.trans h
    exact .inl ⟨e, rfl, rfl⟩
  | ready =>
    rcases State.phases hr with ha | ⟨ha, e, hd⟩ | ⟨ha, hp, i, hd⟩ | ⟨i, s1, hf⟩
    · cases (step_misaligned hr ha).symm.trans h
      exact .inr (.inl ⟨_, rfl⟩)
    · cases (step_rejected hr ha hd).symm.trans h
      exact .inr (.inr (.inl ⟨ha, _, rfl⟩))
    · cases (step_pc_overflow hr ha hp hd).symm.trans h
      exact .inr (.inr (.inl ⟨ha, _, rfl⟩))
    · cases he : i.raises s1 with
      | none =>
        cases (hf.step_completed he).symm.trans h
        exact .inr (.inr (.inr ⟨i, s1, hf, he, rfl⟩))
      | some e =>
        cases (hf.step_raised (exec_of_raises he)).symm.trans h
        obtain ⟨-, ha, -, -, rfl⟩ := hf
        exact .inr (.inr (.inl ⟨ha, e, rfl⟩))

/-- The advance of pc leaves the range at one aligned address only (60_exceptions.md R160). -/
theorem not_inRange_pc_advance_iff {s : State} (ha : Aligned (s.x .pc)) :
    ¬ InRange (s.x .pc + 4) ↔ s.x .pc = 0x7FFFFFFC := by
  have := s.x_inRange .pc
  omega

/-- Fetch, decode and the advance of pc change pc and the cache only. -/
theorem State.Fetches.onlyReg_pc {s s1 : State} {i : Instr} (h : s.Fetches i s1) :
    OnlyReg s s1 .pc (s.x .pc + 4) := by
  obtain ⟨-, -, -, hp, rfl⟩ := h
  exact onlyReg_setX s.afterFetch .pc hp

theorem State.Fetches.sameButRegsAndCache {s s1 : State} {i : Instr} (h : s.Fetches i s1) :
    SameButRegsAndCache s s1 := by
  obtain ⟨-, -, -, -, rfl⟩ := h
  exact ⟨rfl, rfl, rfl, rfl, rfl, fun _ => rfl⟩

/-! The statements about one step. -/

/-- Settles O15: a Halted machine is given back. -/
theorem haltedMachinesStayAsTheyAre : Obligations.HaltedMachinesStayAsTheyAre := fun _ _ => step_halted

/-- Settles O12: the fetch's frame, and `commit` of what the Execute phase answers. -/
theorem stepRunsTheDecodedInstruction : Obligations.StepRunsTheDecodedInstruction := by
  refine fun s i s1 h => ⟨h.onlyReg_pc, h.sameButRegsAndCache, fun t ht => ⟨fun hr => ?_, fun e he => ?_⟩⟩
  · rw [h.step_eq, ht, commitOutcome_next, s.commit_ready hr]
  · rw [h.step_eq, ht, commitOutcome_next, s.commit_halted he]

/-- Settles O13: phase by phase. -/
theorem stepErrorsFollowThePriority : Obligations.StepErrorsFollowThePriority := by
  refine fun s hr => ⟨step_misaligned hr, fun ha _ => step_rejected hr ha, not_inRange_pc_advance_iff, ?_, ?_⟩
  · intro ha hpc i hd
    rw [step_pc_overflow hr ha ((not_inRange_pc_advance_iff ha).2 hpc) hd, hpc]
    rfl
  · exact fun i s1 hf => ⟨fun e he => hf.step_raised (exec_of_raises he),
      fun hn => ⟨_, hf.step_completed hn, (completed_run i s1).trans hf.run_eq⟩⟩

/-- Settles O14: a step from Ready that ends Halted ended before the instruction completed. -/
theorem fatalErrorsArePrecise : Obligations.FatalErrorsArePrecise := by
  intro s t e hr h ht
  rcases step_cases h with ⟨e', hh, -⟩ | ⟨_, rfl⟩ | ⟨-, _, rfl⟩ | ⟨i, s1, hf, -, rfl⟩
  · cases hr.symm.trans hh
  · exact ⟨fun _ => rfl, rfl, rfl, rfl, rfl, fun _ => rfl⟩
  · exact ⟨fun _ => rfl, rfl, rfl, rfl, rfl, fun _ => rfl⟩
  · cases (hf.run_eq.symm.trans (completed_run i s1).symm).trans ht

/-- Settles O16: each phase a step can end in has a next state, and so has each instruction. -/
theorem everyStepHasASuccessor : Obligations.EveryStepHasASuccessor := by
  refine ⟨fun s => ?_, fun i s => ⟨_, exec_eq i s⟩⟩
  cases hr : s.run with
  | halted e => exact ⟨s, step_halted hr⟩
  | ready =>
    rcases State.phases hr with ha | ⟨ha, e, hd⟩ | ⟨ha, hp, i, hd⟩ | ⟨i, s1, hf⟩
    · exact ⟨_, step_misaligned hr ha⟩
    · exact ⟨_, step_rejected hr ha hd⟩
    · exact ⟨_, step_pc_overflow hr ha hp hd⟩
    · exact ⟨_, hf.step_eq.trans (by rw [exec_eq, commitOutcome_next])⟩

/-- Settles O21: neither a fetch nor an instruction writes the two fields. -/
theorem noStepChangesTheParameters : Obligations.NoStepChangesTheParameters := by
  intro s t h
  rcases step_cases h with ⟨_, -, rfl⟩ | ⟨_, rfl⟩ | ⟨-, _, rfl⟩ | ⟨i, s1, ⟨-, -, -, -, rfl⟩, -, rfl⟩
  · exact ⟨rfl, rfl⟩
  · exact ⟨rfl, rfl⟩
  · exact ⟨rfl, rfl⟩
  · exact ⟨completed_cfg i _, completed_loaded i _⟩

/-- A step keeps the flags, or completes a cmp. -/
theorem step_flags_cases {s t : State} (h : step s = .next t) :
    t.flags = s.flags ∨ ∃ i s1, s.Fetches i s1 ∧ i.isCmp = true ∧ t = i.completed s1 := by
  rcases step_cases h with ⟨_, -, rfl⟩ | ⟨_, rfl⟩ | ⟨-, _, rfl⟩ | ⟨i, s1, hf, -, rfl⟩
  · exact .inl rfl
  · exact .inl rfl
  · exact .inl rfl
  · cases hc : i.isCmp with
    | true => exact .inr ⟨i, s1, hf, hc, rfl⟩
    | false => exact .inl ((completed_flags_of_not_isCmp s1 hc).trans hf.sameButRegsAndCache.1)

theorem compareFlags_reachable (a b : Int) : (compareFlags a b).Reachable := by
  simp only [compareFlags, Flags.Reachable, decide_eq_true_eq, Bool.not_eq_false']
  omega

/-- Settles O20: a step keeps the flags or sets those of a compare. -/
theorem noStepMakesTheUnreachableFlagPair : Obligations.NoStepMakesTheUnreachableFlagPair := by
  intro s t hs h
  rcases step_flags_cases h with hf | ⟨i, s1, -, hc, rfl⟩
  · rwa [hf]
  · obtain ⟨a, b, hab⟩ := completed_flags_of_isCmp s1 hc
    rw [hab]
    exact compareFlags_reachable a b

/-- Settles O22: a step that changes the flags is not the one that keeps them; and `exec` of any other instruction keeps
them, completed or not. -/
theorem onlyCmpWritesTheFlags : Obligations.OnlyCmpWritesTheFlags := by
  refine ⟨fun s t h hne => ?_, fun i s t h hc => ?_⟩
  · obtain ⟨i, s1, hf, hc, -⟩ := (step_flags_cases h).resolve_left hne
    exact ⟨i, s1, hf, hc⟩
  · rcases exec_cases h with ⟨e, -, rfl⟩ | ⟨-, rfl⟩
    · rfl
    · exact completed_flags_of_not_isCmp s hc

end Sys2Proof.Machine
end

section
/-! SUPPORT. The invariants of every step: well-formed states stay so, and coherent ones (10_state.md R34). -/

namespace Sys2Proof.Machine

/-! Well-formedness. -/

theorem StackFits.pushed {s : State} (h : StackFits s.cfg s.stk) (hroom : s.cfg.stackDepth ≠ some s.stk.length)
    (v : Word) : StackFits s.cfg (s.pushed v).stk := by
  intro n hn
  have hle := h n hn
  have hne : s.stk.length ≠ n := fun he => hroom (he ▸ hn)
  simp only [State.pushed, List.length_append, List.length_singleton]
  omega

theorem StackFits.popped {s : State} (h : StackFits s.cfg s.stk) : StackFits s.cfg s.popped.stk := fun n hn =>
  (List.dropLast_prefix s.stk).length_le.trans (h n hn)

/-- Well-formedness depends on the parameters, Memory, the cache and the Stack only. -/
theorem State.Wf.of_same {s t : State} (h : s.Wf) (hcfg : t.cfg = s.cfg) (hmem : t.mem = s.mem)
    (hcache : t.cache = s.cache) (hstk : t.stk = s.stk) : t.Wf := by
  obtain ⟨-, -, -, hfits⟩ := id h
  exact h.congr hcfg hmem hcache (hstk ▸ hfits)

/-- A load keeps a state well formed if what is done with the dword leaves all that well-formedness depends on. -/
theorem State.Wf.load {s : State} (h : s.Wf) {ea : Int} (ha : Aligned ea) {f : Word → State → State}
    (hf : ∀ w s1, (f w s1).cfg = s1.cfg ∧ (f w s1).mem = s1.mem ∧ (f w s1).cache = s1.cache ∧ (f w s1).stk = s1.stk) :
    (s.load ea f).Wf := by
  obtain ⟨hcfg, hmem, hcache, hstk⟩ := hf (s.cacheRead (busAddr s.cfg ea)).1 (s.cacheRead (busAddr s.cfg ea)).2
  exact (h.cacheRead (busAddr_fits h.1 ha)).of_same hcfg hmem hcache hstk

/-- An instruction that completes keeps a state well formed. -/
theorem State.Wf.completed {s : State} (h : s.Wf) {i : Instr} (hr : i.raises s = none) : (i.completed s).Wf := by
  obtain ⟨hcfg, -, -, hstk⟩ := id h
  cases i with
  | push r => exact h.congr rfl rfl rfl (hstk.pushed ((raises_eq_none_iff_of_pushes s rfl).1 hr) _)
  | call t => exact h.congr rfl rfl rfl (hstk.pushed ((raises_eq_none_iff_of_pushes s rfl).1 hr) _)
  | pop | ret => exact h.congr rfl rfl rfl hstk.popped
  | movRegMem | movRegArr | cmpRegMem | cmpRegArr =>
    exact h.load (aligned_of_alignCheck hr) fun _ _ => ⟨rfl, rfl, rfl, rfl⟩
  | movMemImm | movMemReg => exact h.cacheWrite (busAddr_fits hcfg (aligned_of_alignCheck hr)) _ true
  | je | jne | jl | jge | jle | jg =>
    exact h.of_same (s.jumpIf_cfg _ _) (s.jumpIf_mem _ _) (s.jumpIf_cache _ _) (s.jumpIf_stk _ _)
  | lea | addRegImm | addRegReg | subRegImm | subRegReg | movRegReg | movRegImm | cmpRegReg | cmpRegImm | jmp =>
    exact h.of_same rfl rfl rfl rfl

/-- The fetch at an aligned pc keeps a state well formed. -/
theorem State.Wf.afterFetch {s : State} (h : s.Wf) (ha : Aligned (s.x .pc)) : s.afterFetch.Wf :=
  h.cacheRead (busAddr_fits h.1 ha)

theorem State.Fetches.wf {s s1 : State} {i : Instr} (hf : s.Fetches i s1) (h : s.Wf) : s1.Wf := by
  obtain ⟨-, ha, -, -, rfl⟩ := hf
  exact (h.afterFetch ha).of_same rfl rfl rfl rfl

/-- Settles O18: each state a step can leave. -/
theorem everyStepKeepsStatesWellFormed : Obligations.EveryStepKeepsStatesWellFormed := by
  intro s t hs h
  rcases step_cases h with ⟨_, -, rfl⟩ | ⟨_, rfl⟩ | ⟨ha, _, rfl⟩ | ⟨i, s1, hf, hr, rfl⟩
  · exact hs
  · exact hs.of_same rfl rfl rfl rfl
  · exact (hs.afterFetch ha).of_same rfl rfl rfl rfl
  · exact (hf.wf hs).completed hr

/-! Coherence. -/

/-- An instruction that completes keeps a well-formed state coherent. -/
theorem State.Coherent.completed {s : State} (h : s.Wf) (hco : s.Coherent) {i : Instr} (hr : i.raises s = none) :
    (i.completed s).Coherent := by
  cases i with
  | movRegMem | movRegArr | cmpRegMem | cmpRegArr =>
    exact (hco.cacheRead h (busAddr_fits h.1 (aligned_of_alignCheck hr))).congr rfl rfl rfl
  | movMemImm | movMemReg => exact hco.cacheWrite h (busAddr_fits h.1 (aligned_of_alignCheck hr)) _
  | je | jne | jl | jge | jle | jg => exact hco.congr (s.jumpIf_cfg _ _) (s.jumpIf_mem _ _) (s.jumpIf_cache _ _)
  | push | pop | call | ret | lea | addRegImm | addRegReg | subRegImm | subRegReg | movRegReg | movRegImm | cmpRegReg
  | cmpRegImm | jmp => exact hco.congr rfl rfl rfl

theorem State.Coherent.afterFetch {s : State} (h : s.Wf) (hco : s.Coherent) (ha : Aligned (s.x .pc)) :
    s.afterFetch.Coherent :=
  hco.cacheRead h (busAddr_fits h.1 ha)

theorem State.Fetches.coherent {s s1 : State} {i : Instr} (hf : s.Fetches i s1) (h : s.Wf) (hco : s.Coherent) :
    s1.Coherent := by
  obtain ⟨-, ha, -, -, rfl⟩ := hf
  exact (hco.afterFetch h ha).congr rfl rfl rfl

/-- Settles O19: each state a step can leave; a halted step gives Memory back, which the fetch left as it was. -/
theorem everyStepKeepsTheCacheCoherent : Obligations.EveryStepKeepsTheCacheCoherent := by
  intro s t hs hco h
  rcases step_cases h with ⟨_, -, rfl⟩ | ⟨_, rfl⟩ | ⟨ha, _, rfl⟩ | ⟨i, s1, hf, hr, rfl⟩
  · exact hco
  · exact hco.congr rfl rfl rfl
  · exact (hco.afterFetch hs ha).congr rfl rfl rfl
  · exact (hf.coherent hs hco).completed (hf.wf hs) hr

end Sys2Proof.Machine
end

section
/-! SUPPORT. Two coherent machines that differ in their cache and its geometry only stay the same to the program
(10_state.md R35, 20_memory.md R58). -/

namespace Sys2Proof.Machine

theorem SameToProgram.x_eq {s u : State} (h : SameToProgram s u) (r : Reg) : u.x r = s.x r := by
  obtain ⟨-, -, hregs, -⟩ := h
  simp only [State.x, hregs]

theorem SameToProgram.busAddr_eq {s u : State} (h : SameToProgram s u) (ea : Int) :
    busAddr u.cfg ea = busAddr s.cfg ea := by
  simp only [busAddr, h.1]

/-- Both answer Memory's dword. -/
theorem SameToProgram.cacheRead_fst_eq {s u : State} (h : SameToProgram s u) (hs : s.Wf) (hcs : s.Coherent) (hu : u.Wf)
    (hcu : u.Coherent) {ea : Int} (ha : Aligned ea) :
    (u.cacheRead (busAddr u.cfg ea)).1 = (s.cacheRead (busAddr s.cfg ea)).1 := by
  obtain ⟨-, -, -, -, -, -, hmem⟩ := id h
  rw [hcu.cacheRead_busAddr hu ha, hcs.cacheRead_busAddr hs ha, h.busAddr_eq, hmem]

/-! What a state update keeps the same. -/

theorem SameToProgram.cacheRead {s u : State} (h : SameToProgram s u) (a b : Nat) :
    SameToProgram (s.cacheRead a).2 (u.cacheRead b).2 := h

theorem SameToProgram.haltedWith {s u : State} (h : SameToProgram s u) (c d : Cache) (e : ErrorRecord) :
    SameToProgram (s.haltedWith c e) (u.haltedWith d e) := by
  obtain ⟨hbits, hdepth, hregs, hflags, hstk, -, hmem⟩ := h
  exact ⟨hbits, hdepth, hregs, hflags, hstk, rfl, hmem⟩

theorem SameToProgram.setReg {s u : State} (h : SameToProgram s u) (r : Reg) (v : Word) :
    SameToProgram (s.setReg r v) (u.setReg r v) := by
  obtain ⟨hbits, hdepth, hregs, hflags, hstk, hrun, hmem⟩ := h
  exact ⟨hbits, hdepth, congrArg (·.set r v) hregs, hflags, hstk, hrun, hmem⟩

theorem SameToProgram.setX {s u : State} (h : SameToProgram s u) (r : Reg) (v : Int) :
    SameToProgram (s.setX r v) (u.setX r v) := h.setReg r _

theorem SameToProgram.compare {s u : State} (h : SameToProgram s u) (a b : Int) :
    SameToProgram (s.compare a b) (u.compare a b) := by
  obtain ⟨hbits, hdepth, hregs, -, hstk, hrun, hmem⟩ := h
  exact ⟨hbits, hdepth, hregs, rfl, hstk, hrun, hmem⟩

theorem SameToProgram.jumpIf {s u : State} (h : SameToProgram s u) (c : Bool) (p : Int) :
    SameToProgram (s.jumpIf c p) (u.jumpIf c p) := by
  cases c with
  | false => exact h
  | true => exact h.setX .pc p

theorem SameToProgram.pushed {s u : State} (h : SameToProgram s u) (v : Word) :
    SameToProgram (s.pushed v) (u.pushed v) := by
  obtain ⟨hbits, hdepth, hregs, hflags, hstk, hrun, hmem⟩ := h
  exact ⟨hbits, hdepth, hregs, hflags, congrArg (· ++ [v]) hstk, hrun, hmem⟩

theorem SameToProgram.popped {s u : State} (h : SameToProgram s u) : SameToProgram s.popped u.popped := by
  obtain ⟨hbits, hdepth, hregs, hflags, hstk, hrun, hmem⟩ := h
  exact ⟨hbits, hdepth, hregs, hflags, congrArg List.dropLast hstk, hrun, hmem⟩

theorem SameToProgram.cacheWrite {s u : State} (h : SameToProgram s u) (ba : Nat) (v : Word) :
    SameToProgram (s.cacheWrite ba v true) (u.cacheWrite ba v true) := by
  obtain ⟨hbits, hdepth, hregs, hflags, hstk, hrun, hmem⟩ := h
  exact ⟨hbits, hdepth, hregs, hflags, hstk, hrun, congrArg (·.writeBytes ba (wordBytes v)) hmem⟩

/-- Two loads from one effective address answer the same dword, and what is done with it keeps the two the same. -/
theorem SameToProgram.load {s u : State} (h : SameToProgram s u) (hs : s.Wf) (hcs : s.Coherent) (hu : u.Wf)
    (hcu : u.Coherent) {ea : Int} (ha : Aligned ea) {f : Word → State → State}
    (hf : ∀ {s1 u1}, SameToProgram s1 u1 → ∀ w, SameToProgram (f w s1) (f w u1)) :
    SameToProgram (s.load ea f) (u.load ea f) := by
  unfold State.load
  rw [h.cacheRead_fst_eq hs hcs hu hcu ha]
  exact hf (h.cacheRead _ _) _

/-! The two machines in the Execute phase. -/

theorem SameToProgram.raises_eq {s u : State} (h : SameToProgram s u) (i : Instr) : i.raises u = i.raises s := by
  have hx := h.x_eq
  obtain ⟨-, hdepth, -, -, hstk, -⟩ := h
  cases i <;> simp only [Instr.raises, hx, hdepth, hstk]

/-- Both complete an instruction to states that are the same to the program. -/
theorem SameToProgram.completed {s u : State} (h : SameToProgram s u) (hs : s.Wf) (hcs : s.Coherent) (hu : u.Wf)
    (hcu : u.Coherent) {i : Instr} (hr : i.raises s = none) : SameToProgram (i.completed s) (i.completed u) := by
  have hx := h.x_eq
  have hba := h.busAddr_eq
  obtain ⟨-, -, hregs, hflags, hstk, -⟩ := id h
  have hget : ∀ r, u.regs.get r = s.regs.get r := fun r => by rw [hregs]
  cases i with
  | movRegMem | movRegArr =>
    simp only [Instr.completed, State.memEA, State.arrEA, hx]
    exact h.load hs hcs hu hcu (aligned_of_alignCheck hr) fun h1 w => h1.setReg _ w
  | cmpRegMem ra | cmpRegArr ra =>
    simp only [Instr.completed, State.memEA, State.arrEA, hx]
    exact h.load hs hcs hu hcu (aligned_of_alignCheck hr) fun h1 w => h1.x_eq ra ▸ h1.compare _ w.toInt
  | movMemImm | movMemReg =>
    simp only [Instr.completed, State.memEA, hx, hba, hget]
    exact h.cacheWrite _ _
  | push =>
    simp only [Instr.completed, hget]
    exact h.pushed _
  | call t =>
    simp only [Instr.completed, hget]
    exact (h.pushed _).setX .pc t
  | pop | ret =>
    simp only [Instr.completed, hstk]
    exact h.popped.setReg _ _
  | movRegReg =>
    simp only [Instr.completed, hget]
    exact h.setReg _ _
  | lea | addRegImm | addRegReg | subRegImm | subRegReg =>
    simp only [Instr.completed, State.memEA, hx]
    exact h.setX _ _
  | movRegImm | jmp => exact h.setX _ _
  | cmpRegReg | cmpRegImm =>
    simp only [Instr.completed, hx]
    exact h.compare _ _
  | je | jne | jl | jge | jle | jg =>
    simp only [Instr.completed, hflags]
    exact h.jumpIf _ _

/-! The two machines in one step. -/

theorem SameToProgram.fetchedWord_eq {s u : State} (h : SameToProgram s u) (hs : s.Wf) (hcs : s.Coherent) (hu : u.Wf)
    (hcu : u.Coherent) (ha : Aligned (s.x .pc)) : u.fetchedWord = s.fetchedWord := by
  unfold State.fetchedWord
  rw [h.x_eq, h.cacheRead_fst_eq hs hcs hu hcu ha]

theorem SameToProgram.fetches {s u s1 : State} (h : SameToProgram s u) (hs : s.Wf) (hcs : s.Coherent) (hu : u.Wf)
    (hcu : u.Coherent) {i : Instr} (hf : s.Fetches i s1) : ∃ u1, u.Fetches i u1 ∧ SameToProgram s1 u1 := by
  obtain ⟨hr, ha, hd, hp, rfl⟩ := hf
  obtain ⟨-, -, -, -, -, hrun, -⟩ := id h
  refine ⟨u.afterFetch.setX .pc (s.x .pc + 4), ?_, (h.cacheRead _ _).setX .pc _⟩
  unfold State.Fetches
  rw [hrun, h.x_eq, h.fetchedWord_eq hs hcs hu hcu ha]
  exact ⟨hr, ha, hd, hp, rfl⟩

/-- Settles O55: both machines end the step in the same phase, since pc, the fetched word and the causes of errors are
the same, and there do the same. -/
theorem geometryIsInvisibleToPrograms : Obligations.GeometryIsInvisibleToPrograms := by
  intro s u s' hs hcs hu hcu h hstep
  obtain ⟨-, -, -, -, -, hrun, -⟩ := id h
  cases hr : s.run with
  | halted e =>
    cases (step_halted hr).symm.trans hstep
    exact ⟨u, step_halted (hrun.trans hr), h⟩
  | ready =>
    have hur := hrun.trans hr
    have hx := h.x_eq .pc
    rcases State.phases hr with ha | ⟨ha, e, hd⟩ | ⟨ha, hp, i, hd⟩ | ⟨i, s1, hf⟩
    · cases (step_misaligned hr ha).symm.trans hstep
      have hustep := step_misaligned hur (by rwa [hx])
      rw [hx] at hustep
      exact ⟨_, hustep, h.haltedWith _ _ _⟩
    · cases (step_rejected hr ha hd).symm.trans hstep
      have hw := h.fetchedWord_eq hs hcs hu hcu ha
      have hustep := step_rejected hur (by rwa [hx]) ((congrArg decode hw).trans hd)
      rw [hw] at hustep
      exact ⟨_, hustep, h.haltedWith _ _ _⟩
    · cases (step_pc_overflow hr ha hp hd).symm.trans hstep
      have hw := h.fetchedWord_eq hs hcs hu hcu ha
      have hustep := step_pc_overflow hur (by rwa [hx]) (by rwa [hx]) ((congrArg decode hw).trans hd)
      rw [hx] at hustep
      exact ⟨_, hustep, h.haltedWith _ _ _⟩
    · obtain ⟨u1, huf, h1⟩ := h.fetches hs hcs hu hcu hf
      cases he : i.raises s1 with
      | some e =>
        cases (hf.step_raised (exec_of_raises he)).symm.trans hstep
        exact ⟨_, huf.step_raised (exec_of_raises ((h1.raises_eq i).trans he)), h.haltedWith _ _ _⟩
      | none =>
        cases (hf.step_completed he).symm.trans hstep
        exact ⟨_, huf.step_completed ((h1.raises_eq i).trans he),
          h1.completed (hf.wf hs) (hf.coherent hs hcs) (huf.wf hu) (huf.coherent hu hcu) he⟩

end Sys2Proof.Machine
end

section
/-! SUPPORT. call, and the mov and cmp forms with a register or an array element as source: their words, results, frames
and errors (40_lea_stack_call.md R103; 41_mov.md R110, R112, R113; 43_cmp.md R131, R134). -/

namespace Sys2Proof.Machine

/-! The words (30_encoding.md R77, R79). -/

theorem decode_call_word (j : BitVec 24) : decode (0xE8#8 ++ j) = .ok (.call j.toInt) := by
  simp [decode, byte0_target, targetOf_target]

theorem decode_movRegReg_word {b2 b3 : Byte} {rd rs : Reg} (hd : Reg.ofId? b2.toNat = some rd)
    (hs : Reg.ofId? b3.toNat = some rs) : decode (packWord 0x89 0x00 b2 b3) = .ok (.movRegReg rd rs) := by
  simp [decode, packWord_fields, withReg_some _ _ hd, withReg_some _ _ hs]

theorem decode_cmpRegReg_word {b2 b3 : Byte} {ra rb : Reg} (ha : Reg.ofId? b2.toNat = some ra)
    (hb : Reg.ofId? b3.toNat = some rb) : decode (packWord 0x39 0x00 b2 b3) = .ok (.cmpRegReg ra rb) := by
  simp [decode, packWord_fields, withReg_some _ _ ha, withReg_some _ _ hb]

theorem decode_movRegMem_word {b2 : Byte} (b3 : Byte) {rd : Reg} (h : Reg.ofId? b2.toNat = some rd) :
    decode (packWord 0x8B 0x0F b2 b3) = .ok (.movRegMem rd b3.toInt) := by
  simp [decode, packWord_fields, withReg_some _ _ h, dispOf]

theorem decode_movRegArr_word {b2 : Byte} {bs ix : BitVec 4} {rd rb ri : Reg} (hd : Reg.ofId? b2.toNat = some rd)
    (hb : Reg.ofId? bs.toNat = some rb) (hi : Reg.ofId? ix.toNat = some ri) :
    decode (packWord 0x8B 0x0E b2 (bs ++ ix)) = .ok (.movRegArr rd rb ri) := by
  simp [decode, packWord_fields, withReg_some _ _ hd, withArr_some _ _ hb hi]

theorem decode_cmpRegArr_word {b2 : Byte} {bs ix : BitVec 4} {ra rb ri : Reg} (ha : Reg.ofId? b2.toNat = some ra)
    (hb : Reg.ofId? bs.toNat = some rb) (hi : Reg.ofId? ix.toNat = some ri) :
    decode (packWord 0x3B 0x0E b2 (bs ++ ix)) = .ok (.cmpRegArr ra rb ri) := by
  simp [decode, packWord_fields, withReg_some _ _ ha, withArr_some _ _ hb hi]

theorem movRegReg_word_rejected {b2 b3 : Byte} (h : 8 < b2.toNat ∨ 8 < b3.toNat) :
    ∃ e, decode (packWord 0x89 0x00 b2 b3) = .error e := by
  rw [decode_rejects_iff]
  simp [IllegalWord, packWord_fields, h]

theorem arr_toNat_div (bs ix : BitVec 4) : (bs ++ ix : Byte).toNat / 16 = bs.toNat := by
  rw [← arr_base bs ix, BitVec.toNat_ushiftRight, Nat.shiftRight_eq_div_pow]

theorem arr_toNat_mod (bs ix : BitVec 4) : (bs ++ ix : Byte).toNat % 16 = ix.toNat := by
  rw [← byte_low_nibble_toNat, arr_index]

/-- cmp and mov from an array element have the same register fields, and are rejected for the same values of them. -/
theorem regArr_word_rejected {b0 b2 : Byte} {bs ix : BitVec 4} (h0 : b0 = 0x3B ∨ b0 = 0x8B)
    (h : 8 < b2.toNat ∨ 8 < bs.toNat ∨ 8 < ix.toNat) : ∃ e, decode (packWord b0 0x0E b2 (bs ++ ix)) = .error e := by
  rw [decode_rejects_iff]
  rcases h0 with rfl | rfl <;> simp [IllegalWord, packWord_fields, arr_toNat_div, arr_toNat_mod, h]

/-! Loads into a register. -/

/-- An instruction that ends in writing a register with the dword at an aligned address changes that register only, and
the cache. -/
theorem loads_of_exec_eq_memRead {i : Instr} {s : State} {rd : Reg} {ea : Int}
    (hi : exec i s = s.memRead ea fun w s1 => .next (s1.setReg rd w)) (ha : Aligned ea) :
    ∃ t, exec i s = .next t ∧ OnlyReg s t rd (s.cacheRead (busAddr s.cfg ea)).1.toInt ∧ SameButRegsAndCache s t ∧
      t.cache = (s.cacheRead (busAddr s.cfg ea)).2.cache ∧
      (s.Wf → s.Coherent → t.x rd = (s.mem.dword (busAddr s.cfg ea)).toInt) := by
  have hreg := onlyReg_setReg (s.cacheRead (busAddr s.cfg ea)).2 rd (s.cacheRead (busAddr s.cfg ea)).1
  refine ⟨_, hi.trans (s.memRead_aligned _ ha), hreg, ⟨rfl, rfl, rfl, rfl, rfl, fun _ => rfl⟩, rfl, fun hs hco => ?_⟩
  rw [← hco.cacheRead_busAddr hs ha]
  exact State.x_setReg_self _ rd _

/-- The element's offset is a multiple of 4, so the address is aligned exactly if the base is (41_mov.md R113). -/
theorem not_aligned_arrEA {s : State} {rb : Reg} (ri : Reg) (h : ¬ Aligned (s.x rb)) : ¬ Aligned (s.arrEA rb ri) := by
  simp only [Aligned, State.arrEA] at h ⊢
  omega

/-! The statements. -/

/-- Settles O30: where there is room call is a jump on the state with pc on the Stack, and pc is then a + 4. -/
theorem callPushesTheReturnAddressAndJumps : Obligations.CallPushesTheReturnAddressAndJumps := by
  refine ⟨decode_call_word, fun s p hp h => ?_, fun _ _ => exec_full_of_pushes rfl, fun s s1 p hf hp h => ?_⟩
  · exact ⟨_, exec_call_room p h, rfl, onlyReg_setX (s.pushed (s.regs.get .pc)) .pc (inRange_of_targetFits hp), rfl,
      rfl, rfl, rfl, fun _ => rfl, rfl⟩
  · obtain ⟨-, -, -, hcfg, -, -⟩ := hf.sameButRegsAndCache
    obtain ⟨hpc, -⟩ := hf.onlyReg_pc
    have hroom : s1.cfg.stackDepth ≠ some s1.stk.length := by rwa [hcfg, hf.stk_eq]
    refine ⟨_, hf.step_completed ((raises_eq_none_iff_of_pushes s1 rfl).2 hroom),
      State.x_setX_self _ .pc (inRange_of_targetFits hp), ?_⟩
    change (s1.stk ++ [s1.regs.get .pc]).map BitVec.toInt = _
    rw [hf.stk_eq, List.map_append, ← hpc]
    rfl

/-- Settles O32: mov reg,reg is a register write of the other register's bits. -/
theorem movRegRegCopiesTheRegister : Obligations.MovRegRegCopiesTheRegister :=
  ⟨fun _ _ _ _ => decode_movRegReg_word, fun _ _ => movRegReg_word_rejected, fun s rd rs =>
    ⟨_, rfl, onlyReg_setReg s rd (s.regs.get rs), ⟨rfl, rfl, rfl, rfl, rfl, fun _ => rfl⟩, rfl⟩⟩

/-- Settles O34: mov reg,mem is a register write of the dword loaded. -/
theorem movRegMemLoadsTheFrameDword : Obligations.MovRegMemLoadsTheFrameDword :=
  ⟨fun _ b3 _ => decode_movRegMem_word b3, fun _ b3 => regMem_word_rejected b3 (.inr rfl),
    fun s rd d => loads_of_exec_eq_memRead (exec_movRegMem rd d s),
    fun s rd d h => (exec_movRegMem rd d s).trans (s.memRead_raises _ h)⟩

/-- Settles O35: mov reg,arr is a register write of the dword loaded. -/
theorem movRegArrLoadsTheElement : Obligations.MovRegArrLoadsTheElement :=
  ⟨fun _ _ _ _ _ _ => decode_movRegArr_word, fun _ _ _ => regArr_word_rejected (.inr rfl),
    fun s rd rb ri => loads_of_exec_eq_memRead (exec_movRegArr rd rb ri s),
    fun s rd rb ri h => (exec_movRegArr rd rb ri s).trans (s.memRead_raises _ (not_aligned_arrEA ri h))⟩

/-- Settles O41: cmp reg,reg is a compare, with no access and nothing to raise. -/
theorem cmpRegRegComparesExactly : Obligations.CmpRegRegComparesExactly :=
  ⟨fun _ _ _ _ => decode_cmpRegReg_word, fun _ _ => arithRegReg_word_rejected (.inr (.inr rfl)), fun s ra rb =>
    ⟨_, rfl, comparedFlags_compare s (s.x ra) (s.x rb), fun _ => rfl, ⟨rfl, rfl, rfl, rfl, fun _ => rfl⟩, rfl⟩⟩

/-- Settles O43: cmp reg,arr is a compare after a load. -/
theorem cmpRegArrComparesWithTheElement : Obligations.CmpRegArrComparesWithTheElement :=
  ⟨fun _ _ _ _ _ _ => decode_cmpRegArr_word, fun _ _ _ => regArr_word_rejected (.inl rfl),
    fun s ra rb ri => compares_of_exec_eq_memRead (exec_cmpRegArr ra rb ri s),
    fun s ra rb ri h => (exec_cmpRegArr ra rb ri s).trans (s.memRead_raises _ (not_aligned_arrEA ri h))⟩

end Sys2Proof.Machine
end

section
/-! SUPPORT. Where execution goes on after a jump (44_jumps.md R141, R148). -/

namespace Sys2Proof.Machine

/-! After a cmp. -/

/-- If its predicate of the flags says a relation, a conditional jump sets pc exactly when the relation holds. -/
theorem JumpsIf.pc_of_iff {mk : Int → Instr} {c : Flags → Prop} (h : JumpsIf mk c) {s : State} {p : Int}
    (hp : TargetFits p) {rel : Prop} [Decidable rel] (hrel : c s.flags ↔ rel) :
    ∃ t, exec (mk p) s = .next t ∧ t.x .pc = if rel then p else s.x .pc := by
  obtain ⟨htaken, huntaken⟩ := h s p hp
  by_cases hc : rel
  · obtain ⟨t, ht, ⟨hpc, -⟩, -⟩ := htaken (hrel.2 hc)
    exact ⟨t, ht, by rw [hpc, if_pos hc]⟩
  · exact ⟨s, huntaken (mt hrel.1 hc), by rw [if_neg hc]⟩

/-- Settles O46: zero says whether a = b and sign whether not a > b, so each predicate says its relation. -/
theorem jumpsAfterCmpFollowTheRelation : Obligations.JumpsAfterCmpFollowTheRelation := by
  intro s a b p hp ⟨hzero, hsign⟩
  have hnzero : s.flags.zero = false ↔ a ≠ b := by rw [← Bool.not_eq_true, hzero]
  have hnsign : s.flags.sign = true ↔ ¬ a > b := by rw [← Bool.not_eq_false, hsign]
  obtain ⟨-, hje, hjne, hjl, hjge, hjle, hjg⟩ := conditionalJumpsTestTheFlags
  refine ⟨hje.pc_of_iff hp hzero, hjne.pc_of_iff hp hnzero, hjl.pc_of_iff hp ?_, hjge.pc_of_iff hp ?_,
    hjle.pc_of_iff hp ?_, hjg.pc_of_iff hp ?_⟩
  all_goals
    simp only [hzero, hsign, hnzero, hnsign]
    omega

/-! The next fetch. -/

theorem raises_of_isConditionalJump {i : Instr} (s : State) (h : i.isConditionalJump = true) : i.raises s = none := by
  cases i with
  | je | jne | jl | jge | jle | jg => rfl
  | _ => cases h

theorem completed_of_isConditionalJump {i : Instr} (s : State) (h : i.isConditionalJump = true) :
    ∃ p, i.target = some p ∧ i.completed s = s.jumpIf (i.taken s.flags) p := by
  cases i with
  | je p | jne p | jl p | jge p | jle p | jg p => exact ⟨p, rfl, rfl⟩
  | _ => cases h

/-- A jump or call that redirects leaves pc at its target. -/
theorem completed_x_pc_of_taken {i : Instr} {s : State} {p : Int} (hi : i.target = some p) (hp : TargetFits p)
    (ht : i.taken s.flags = true) : (i.completed s).x .pc = p := by
  cases hc : i.isConditionalJump with
  | true =>
    obtain ⟨q, hq, he⟩ := completed_of_isConditionalJump s hc
    cases hi.symm.trans hq
    rw [he, ht]
    exact s.x_setX_self .pc (inRange_of_targetFits hp)
  | false =>
    cases i with
    | call | jmp =>
      cases hi
      exact State.x_setX_self _ .pc (inRange_of_targetFits hp)
    | je | jne | jl | jge | jle | jg => cases hc
    | _ => cases hi

/-- Whether a jump or call raises depends on the Stack and its capacity only, which the fetch leaves as they were. -/
theorem State.Fetches.raises_eq_of_target {s s1 : State} {i : Instr} {p : Int} (hf : s.Fetches i s1)
    (hi : i.target = some p) : i.raises s1 = i.raises s := by
  obtain ⟨-, -, -, -, rfl⟩ := hf
  cases i with
  | call | jmp | je | jne | jl | jge | jle | jg => rfl
  | _ => cases hi

/-- A step that completes leaves a Ready machine whose next fetch is at the pc the instruction leaves. -/
theorem State.Fetches.next_fetch {s s1 : State} {i : Instr} {p : Int} (hf : s.Fetches i s1) (hr : i.raises s1 = none)
    (hpc : (i.completed s1).x .pc = p) :
    ∃ t, step s = .next t ∧ t.run = .ready ∧ t.x .pc = p ∧ t.fetchedWord = (t.cacheRead (busAddr s.cfg p)).1 := by
  obtain ⟨-, -, -, hcfg, -, -⟩ := hf.sameButRegsAndCache
  refine ⟨_, hf.step_completed hr, (completed_run i s1).trans hf.run_eq, hpc, ?_⟩
  rw [State.fetchedWord, hpc, completed_cfg, hcfg]

/-- Settles O47: the pc a taken jump, a ret and an untaken conditional jump leave. -/
theorem nextFetchAfterAJumpIsAtTheTarget : Obligations.NextFetchAfterAJumpIsAtTheTarget := by
  refine ⟨fun s s1 i p hf hi hp ht hr => ?_, fun s s1 l v hf hs => ?_, fun s s1 i hf hc ht => ?_⟩
  · obtain ⟨hflags, -⟩ := hf.sameButRegsAndCache
    exact hf.next_fetch ((hf.raises_eq_of_target hi).trans hr) (completed_x_pc_of_taken hi hp (by rwa [hflags]))
  · have hs1 : s1.stk = l ++ [v] := hf.stk_eq.trans hs
    refine hf.next_fetch ((raises_eq_none_iff_of_pops s1 rfl).2 (by simp [hs1])) ?_
    simp [Instr.completed, hs1]
  · obtain ⟨hflags, -⟩ := hf.sameButRegsAndCache
    obtain ⟨hpc, -⟩ := hf.onlyReg_pc
    obtain ⟨p, -, he⟩ := completed_of_isConditionalJump s1 hc
    refine hf.next_fetch (raises_of_isConditionalJump s1 hc) ?_
    rw [he, hflags, ht, State.jumpIf_false, hpc]

end Sys2Proof.Machine
end

section
/-! SUPPORT. decode and encode as each other's inverses (30_encoding.md R80, R93), and the rows of opcode_table.json. -/

namespace Sys2Proof.Machine

theorem wellFormed_iff {i : Instr} : i.wellFormed = true ↔ i.fieldsFit = true ∧ i.readAsLea = false := by
  simp [Instr.wellFormed]

/-! The words jge shares with lea (30_encoding.md R80). -/

/-- The second byte of a jge word is lea's exactly for the targets R80 lists. -/
theorem targetField_high_byte_iff {t : Int} (h : TargetFits t) :
    (BitVec.ofInt 24 t).extractLsb' 16 8 = 0x0F ↔ ReadAsLea t := by
  rw [← BitVec.toNat_inj, BitVec.extractLsb'_toNat, BitVec.toNat_ofInt, Nat.shiftRight_eq_div_pow]
  simp only [TargetFits, ReadAsLea] at h ⊢
  change (t % 16777216).toNat / 65536 % 256 = 15 ↔ _
  omega

/-! decode after encode. -/

@[simp] theorem Reg.ofId?_nibble (r : Reg) : Reg.ofId? (BitVec.ofNat 4 r.id).toNat = some r := by
  cases r <;> rfl

/-- Every well-formed instruction is what its word decodes to. -/
theorem decode_encode {i : Instr} (h : i.wellFormed = true) : decode (encode i) = .ok i := by
  obtain ⟨hfit, hlea⟩ := wellFormed_iff.1 h
  cases i with
  | lea rd d =>
    exact (decode_lea_word _ (Reg.ofId?_field rd)).trans (by rw [dispField_toInt (of_decide_eq_true hfit)])
  | movRegMem rd d =>
    exact (decode_movRegMem_word _ (Reg.ofId?_field rd)).trans (by rw [dispField_toInt (of_decide_eq_true hfit)])
  | cmpRegMem ra d =>
    exact (decode_cmpRegMem_word _ (Reg.ofId?_field ra)).trans (by rw [dispField_toInt (of_decide_eq_true hfit)])
  | movMemReg d rs =>
    exact (decode_movMemReg_word _ (Reg.ofId?_field rs)).trans (by rw [dispField_toInt (of_decide_eq_true hfit)])
  | movMemImm d v =>
    obtain ⟨hd, hv⟩ := Bool.and_eq_true_iff.1 hfit
    exact (decode_movMemImm_word _ _).trans
      (by rw [dispField_toInt (of_decide_eq_true hd), immField_toInt (of_decide_eq_true hv)])
  | movRegImm rd v =>
    exact (decode_movRegImm_word _ (Reg.ofId?_field rd)).trans (by rw [immField_toInt (of_decide_eq_true hfit)])
  | addRegImm rd v =>
    exact (decode_addRegImm_word _ (Reg.ofId?_field rd)).trans (by rw [immField_toInt (of_decide_eq_true hfit)])
  | subRegImm rd v =>
    exact (decode_subRegImm_word _ (Reg.ofId?_field rd)).trans (by rw [immField_toInt (of_decide_eq_true hfit)])
  | cmpRegImm ra v =>
    exact (decode_cmpRegImm_word _ (Reg.ofId?_field ra)).trans (by rw [immField_toInt (of_decide_eq_true hfit)])
  | call t => exact (decode_call_word _).trans (by rw [targetField_toInt (of_decide_eq_true hfit)])
  | jmp t => exact (decode_jmp_word _).trans (by rw [targetField_toInt (of_decide_eq_true hfit)])
  | je t => exact (decode_je_word _).trans (by rw [targetField_toInt (of_decide_eq_true hfit)])
  | jne t => exact (decode_jne_word _).trans (by rw [targetField_toInt (of_decide_eq_true hfit)])
  | jl t => exact (decode_jl_word _).trans (by rw [targetField_toInt (of_decide_eq_true hfit)])
  | jle t => exact (decode_jle_word _).trans (by rw [targetField_toInt (of_decide_eq_true hfit)])
  | jg t => exact (decode_jg_word _).trans (by rw [targetField_toInt (of_decide_eq_true hfit)])
  | jge t =>
    have ht : TargetFits t := of_decide_eq_true hfit
    have hhigh := mt (targetField_high_byte_iff ht).1 (of_decide_eq_false hlea)
    exact (decode_jge_word hhigh).trans (by rw [targetField_toInt ht])
  | push r => exact decode_push_word (Reg.ofId?_field r)
  | pop r => exact decode_pop_word (Reg.ofId?_field r)
  | ret => decide
  | movRegReg rd rs => exact decode_movRegReg_word (Reg.ofId?_field rd) (Reg.ofId?_field rs)
  | addRegReg rd rs => exact decode_addRegReg_word (Reg.ofId?_field rd) (Reg.ofId?_field rs)
  | subRegReg rd rs => exact decode_subRegReg_word (Reg.ofId?_field rd) (Reg.ofId?_field rs)
  | cmpRegReg ra rb => exact decode_cmpRegReg_word (Reg.ofId?_field ra) (Reg.ofId?_field rb)
  | movRegArr rd rb ri =>
    exact decode_movRegArr_word (Reg.ofId?_field rd) (Reg.ofId?_nibble rb) (Reg.ofId?_nibble ri)
  | cmpRegArr ra rb ri =>
    exact decode_cmpRegArr_word (Reg.ofId?_field ra) (Reg.ofId?_nibble rb) (Reg.ofId?_nibble ri)

/-! The fields of a word that decodes, put together again. -/

theorem Reg.field_of_ofId? {f : Byte} {r : Reg} (h : Reg.ofId? f.toNat = some r) : r.field = f := by
  rw [Reg.field, Reg.id_of_ofId? h, BitVec.ofNat_toNat, BitVec.setWidth_eq]

theorem withReg_ok {w : Word} {f : Byte} {use : Reg → Except DecodeReject Instr} {i : Instr}
    (h : withReg w f use = .ok i) : ∃ r : Reg, r.field = f ∧ use r = .ok i := by
  unfold withReg at h
  split at h
  · next r hr => exact ⟨r, Reg.field_of_ofId? hr, h⟩
  · cases h

theorem nibbles_append : ∀ f : Byte, (BitVec.ofNat 4 (f.toNat / 16) ++ BitVec.ofNat 4 (f.toNat % 16) : Byte) = f := by
  decide

theorem arrField_of_nibbles {f : Byte} {rb ri : Reg} (hb : rb.field = f >>> 4) (hi : ri.field = f &&& 0x0F) :
    arrField rb ri = f := by
  have hrb : rb.id = f.toNat / 16 := by
    have := congrArg BitVec.toNat hb
    rw [BitVec.toNat_ushiftRight, Nat.shiftRight_eq_div_pow] at this
    rw [← Nat.mod_eq_of_lt (show rb.id < 2 ^ 8 by cases rb <;> decide)]
    exact this
  have hri : ri.id = f.toNat % 16 := by
    have := congrArg BitVec.toNat hi
    rw [byte_low_nibble_toNat] at this
    rw [← Nat.mod_eq_of_lt (show ri.id < 2 ^ 8 by cases ri <;> decide)]
    exact this
  rw [arrField, hrb, hri, nibbles_append]

theorem withArr_ok {w : Word} {f : Byte} {use : Reg → Reg → Except DecodeReject Instr} {i : Instr}
    (h : withArr w f use = .ok i) : ∃ rb ri : Reg, arrField rb ri = f ∧ use rb ri = .ok i := by
  obtain ⟨rb, hb, h⟩ := withReg_ok h
  obtain ⟨ri, hi, h⟩ := withReg_ok h
  exact ⟨rb, ri, arrField_of_nibbles hb hi, h⟩

theorem dispFits_dispOf (b : Byte) : DispFits (dispOf b) :=
  ⟨BitVec.le_toInt b, Int.le_of_lt_add_one BitVec.toInt_lt⟩

theorem immFits_immOf (w : Word) : ImmFits (immOf w) := ⟨BitVec.le_toInt _, Int.le_of_lt_add_one BitVec.toInt_lt⟩

theorem targetFits_targetOf (w : Word) : TargetFits (targetOf w) :=
  ⟨BitVec.le_toInt _, Int.le_of_lt_add_one BitVec.toInt_lt⟩

theorem dispField_dispOf (b : Byte) : dispField (dispOf b) = b := BitVec.ofInt_toInt

theorem wordOfImm_of_fields (w : Word) : wordOfImm (byte0 w) (byte1 w) (immOf w) = w := by
  rw [wordOfImm, immOf, BitVec.ofInt_toInt]
  apply BitVec.eq_of_getLsbD_eq
  intro i hi
  simp only [byte0, byte1, BitVec.getLsbD_append, BitVec.getLsbD_extractLsb']
  by_cases h1 : i < 16
  · simp [h1]
  · by_cases h2 : i - 16 < 8
    · simp [h1, h2, show 16 + (i - 16) = i by omega]
    · simp [h1, h2, show i - 16 - 8 < 8 by omega, show 24 + (i - 16 - 8) = i by omega]

theorem wordOfTarget_of_fields (w : Word) : wordOfTarget (byte0 w) (targetOf w) = w := by
  rw [wordOfTarget, targetOf, BitVec.ofInt_toInt]
  apply BitVec.eq_of_getLsbD_eq
  intro i hi
  simp only [byte0, BitVec.getLsbD_append, BitVec.getLsbD_extractLsb']
  by_cases h1 : i < 24
  · simp [h1]
  · simp [h1, show i - 24 < 8 by omega, show 24 + (i - 24) = i by omega]

/-! A word that decodes, by the format of the line that selected it (30_encoding.md R72, R77): the instruction is well
formed and the word is its word, if the line's instruction has that format. -/

theorem wellFormed_of_fits {i : Instr} {fits : Prop} [Decidable fits] (h : fits) (hfit : i.fieldsFit = decide fits)
    (hlea : i.readAsLea = false) : i.wellFormed = true :=
  wellFormed_iff.2 ⟨hfit.trans (decide_eq_true h), hlea⟩

section

variable {w : Word} {b0 b1 : Byte} {i : Instr}

theorem encode_of_regReg {mk : Reg → Reg → Instr} (hb : byte0 w = b0 ∧ byte1 w = b1)
    (h : withReg w (byte2 w) (fun r => withReg w (byte3 w) fun q => .ok (mk r q)) = .ok i)
    (hmk : ∀ r q, (mk r q).wellFormed = true ∧ encode (mk r q) = packWord b0 b1 r.field q.field) :
    i.wellFormed = true ∧ encode i = w := by
  obtain ⟨r, hr, h⟩ := withReg_ok h
  obtain ⟨q, hq, h⟩ := withReg_ok h
  cases h
  exact ⟨(hmk r q).1, (hmk r q).2.trans (eq_packWord hb.1 hb.2 hr.symm hq.symm).symm⟩

theorem encode_of_regMem {mk : Reg → Int → Instr} (hb : byte0 w = b0 ∧ byte1 w = b1)
    (h : withReg w (byte2 w) (fun r => .ok (mk r (dispOf (byte3 w)))) = .ok i)
    (hmk : ∀ r d, DispFits d → (mk r d).wellFormed = true ∧ encode (mk r d) = packWord b0 b1 r.field (dispField d)) :
    i.wellFormed = true ∧ encode i = w := by
  obtain ⟨r, hr, h⟩ := withReg_ok h
  cases h
  obtain ⟨hwf, he⟩ := hmk r _ (dispFits_dispOf _)
  exact ⟨hwf, he.trans (eq_packWord hb.1 hb.2 hr.symm (dispField_dispOf _).symm).symm⟩

theorem encode_of_regArr {mk : Reg → Reg → Reg → Instr} (hb : byte0 w = b0 ∧ byte1 w = b1)
    (h : withReg w (byte2 w) (fun r => withArr w (byte3 w) fun b x => .ok (mk r b x)) = .ok i)
    (hmk : ∀ r b x, (mk r b x).wellFormed = true ∧ encode (mk r b x) = packWord b0 b1 r.field (arrField b x)) :
    i.wellFormed = true ∧ encode i = w := by
  obtain ⟨r, hr, h⟩ := withReg_ok h
  obtain ⟨b, x, hbx, h⟩ := withArr_ok h
  cases h
  exact ⟨(hmk r b x).1, (hmk r b x).2.trans (eq_packWord hb.1 hb.2 hr.symm hbx.symm).symm⟩

theorem encode_of_reg {mk : Reg → Instr} (hb : byte0 w = b0 ∧ byte2 w = 0 ∧ byte3 w = 0)
    (h : withReg w (byte1 w) (fun r => .ok (mk r)) = .ok i)
    (hmk : ∀ r, (mk r).wellFormed = true ∧ encode (mk r) = packWord b0 r.field 0 0) :
    i.wellFormed = true ∧ encode i = w := by
  obtain ⟨h0, h2, h3⟩ := hb
  obtain ⟨r, hr, h⟩ := withReg_ok h
  cases h
  exact ⟨(hmk r).1, (hmk r).2.trans (eq_packWord h0 hr.symm h2 h3).symm⟩

theorem encode_of_regImm {mk : Reg → Int → Instr} (hb : byte0 w = b0)
    (h : withReg w (byte1 w) (fun r => .ok (mk r (immOf w))) = .ok i)
    (hmk : ∀ r v, ImmFits v → (mk r v).wellFormed = true ∧ encode (mk r v) = wordOfImm b0 r.field v) :
    i.wellFormed = true ∧ encode i = w := by
  obtain ⟨r, hr, h⟩ := withReg_ok h
  cases h
  obtain ⟨hwf, he⟩ := hmk r _ (immFits_immOf w)
  exact ⟨hwf, by rw [he, hr, ← hb, wordOfImm_of_fields]⟩

theorem encode_of_target {mk : Int → Instr} (hb : byte0 w = b0)
    (h : Except.ok (ε := DecodeReject) (mk (targetOf w)) = .ok i)
    (hmk : TargetFits (targetOf w) →
      (mk (targetOf w)).wellFormed = true ∧ encode (mk (targetOf w)) = wordOfTarget b0 (targetOf w)) :
    i.wellFormed = true ∧ encode i = w := by
  cases h
  obtain ⟨hwf, he⟩ := hmk (targetFits_targetOf w)
  exact ⟨hwf, by rw [he, ← hb, wordOfTarget_of_fields]⟩

theorem encode_of_memImm (hb : byte0 w = 0xC7)
    (h : Except.ok (ε := DecodeReject) (.movMemImm (dispOf (byte1 w)) (immOf w)) = .ok i) :
    i.wellFormed = true ∧ encode i = w := by
  cases h
  have hfit := Bool.and_eq_true_iff.2 ⟨decide_eq_true (dispFits_dispOf (byte1 w)), decide_eq_true (immFits_immOf w)⟩
  refine ⟨wellFormed_iff.2 ⟨hfit, rfl⟩, ?_⟩
  rw [encode, dispField_dispOf, ← hb, wordOfImm_of_fields]

theorem encode_of_memReg (hb : byte0 w = 0x89 ∧ byte1 w = 0xF0)
    (h : withReg w (byte3 w) (fun r => .ok (.movMemReg (dispOf (byte2 w)) r)) = .ok i) :
    i.wellFormed = true ∧ encode i = w := by
  obtain ⟨r, hr, h⟩ := withReg_ok h
  cases h
  exact ⟨wellFormed_of_fits (dispFits_dispOf _) rfl rfl,
    (eq_packWord hb.1 hb.2 (dispField_dispOf _).symm hr.symm).symm⟩

end

/-- A word that line 1 of R77 has not taken for lea holds a target that jge can have. -/
theorem jge_wellFormed {w : Word} (h : byte1 w ≠ 0x0F) : (Instr.jge (targetOf w)).wellFormed = true := by
  refine wellFormed_iff.2 ⟨decide_eq_true (targetFits_targetOf w), decide_eq_false fun hl => h ?_⟩
  rw [← wordOfTarget_of_fields w, wordOfTarget, byte1_target]
  exact (targetField_high_byte_iff (targetFits_targetOf w)).2 hl

/-- A line of R77 either selected the word or passed it on. -/
theorem ite_ok_cases {c : Prop} [Decidable c] {x y : Except DecodeReject Instr} {i : Instr}
    (h : (if c then x else y) = .ok i) : (c ∧ x = .ok i) ∨ (¬ c ∧ y = .ok i) := by
  split at h
  · next hc => exact .inl ⟨hc, h⟩
  · next hc => exact .inr ⟨hc, h⟩

/-- encode after decode, line by line of R77: a word that decodes is the word of a well-formed instruction. -/
theorem encode_of_decode {w : Word} {i : Instr} (h : decode w = .ok i) : i.wellFormed = true ∧ encode i = w := by
  rcases ite_ok_cases h with ⟨hb, h⟩ | ⟨hlea, h⟩
  · exact encode_of_regMem hb h fun _ _ hfit => ⟨wellFormed_of_fits hfit rfl rfl, rfl⟩
  rcases ite_ok_cases h with ⟨hb, h⟩ | ⟨-, h⟩
  · exact encode_of_reg hb h fun _ => ⟨rfl, rfl⟩
  rcases ite_ok_cases h with ⟨hb, h⟩ | ⟨-, h⟩
  · exact encode_of_reg hb h fun _ => ⟨rfl, rfl⟩
  rcases ite_ok_cases h with ⟨hb, h⟩ | ⟨-, h⟩
  · exact encode_of_target hb h fun hfit => ⟨wellFormed_of_fits hfit rfl rfl, rfl⟩
  rcases ite_ok_cases h with ⟨hb, h⟩ | ⟨-, h⟩
  · obtain ⟨h0, h1, h2, h3⟩ := hb
    cases h
    exact ⟨rfl, (eq_packWord h0 h1 h2 h3).symm⟩
  rcases ite_ok_cases h with ⟨hb, h⟩ | ⟨-, h⟩
  · exact encode_of_regReg hb h fun _ _ => ⟨rfl, rfl⟩
  rcases ite_ok_cases h with ⟨hb, h⟩ | ⟨-, h⟩
  · exact encode_of_regImm hb h fun _ _ hfit => ⟨wellFormed_of_fits hfit rfl rfl, rfl⟩
  rcases ite_ok_cases h with ⟨hb, h⟩ | ⟨-, h⟩
  · exact encode_of_regMem hb h fun _ _ hfit => ⟨wellFormed_of_fits hfit rfl rfl, rfl⟩
  rcases ite_ok_cases h with ⟨hb, h⟩ | ⟨-, h⟩
  · exact encode_of_regArr hb h fun _ _ _ => ⟨rfl, rfl⟩
  rcases ite_ok_cases h with ⟨hb, h⟩ | ⟨-, h⟩
  · exact encode_of_memImm hb h
  rcases ite_ok_cases h with ⟨hb, h⟩ | ⟨-, h⟩
  · exact encode_of_memReg hb h
  rcases ite_ok_cases h with ⟨hb, h⟩ | ⟨-, h⟩
  · exact encode_of_regImm hb h fun _ _ hfit => ⟨wellFormed_of_fits hfit rfl rfl, rfl⟩
  rcases ite_ok_cases h with ⟨hb, h⟩ | ⟨-, h⟩
  · exact encode_of_regReg hb h fun _ _ => ⟨rfl, rfl⟩
  rcases ite_ok_cases h with ⟨hb, h⟩ | ⟨-, h⟩
  · exact encode_of_regImm hb h fun _ _ hfit => ⟨wellFormed_of_fits hfit rfl rfl, rfl⟩
  rcases ite_ok_cases h with ⟨hb, h⟩ | ⟨-, h⟩
  · exact encode_of_regReg hb h fun _ _ => ⟨rfl, rfl⟩
  rcases ite_ok_cases h with ⟨hb, h⟩ | ⟨-, h⟩
  · exact encode_of_regReg hb h fun _ _ => ⟨rfl, rfl⟩
  rcases ite_ok_cases h with ⟨hb, h⟩ | ⟨-, h⟩
  · exact encode_of_regMem hb h fun _ _ hfit => ⟨wellFormed_of_fits hfit rfl rfl, rfl⟩
  rcases ite_ok_cases h with ⟨hb, h⟩ | ⟨-, h⟩
  · exact encode_of_regImm hb h fun _ _ hfit => ⟨wellFormed_of_fits hfit rfl rfl, rfl⟩
  rcases ite_ok_cases h with ⟨hb, h⟩ | ⟨-, h⟩
  · exact encode_of_regArr hb h fun _ _ _ => ⟨rfl, rfl⟩
  rcases ite_ok_cases h with ⟨hb, h⟩ | ⟨-, h⟩
  · exact encode_of_target hb h fun hfit => ⟨wellFormed_of_fits hfit rfl rfl, rfl⟩
  rcases ite_ok_cases h with ⟨hb, h⟩ | ⟨-, h⟩
  · exact encode_of_target hb h fun hfit => ⟨wellFormed_of_fits hfit rfl rfl, rfl⟩
  rcases ite_ok_cases h with ⟨hb, h⟩ | ⟨-, h⟩
  · exact encode_of_target hb h fun hfit => ⟨wellFormed_of_fits hfit rfl rfl, rfl⟩
  rcases ite_ok_cases h with ⟨hb, h⟩ | ⟨-, h⟩
  · exact encode_of_target hb h fun hfit => ⟨wellFormed_of_fits hfit rfl rfl, rfl⟩
  rcases ite_ok_cases h with ⟨hb, h⟩ | ⟨-, h⟩
  · exact encode_of_target hb h fun _ => ⟨jge_wellFormed (fun h1 => hlea ⟨hb, h1⟩), rfl⟩
  rcases ite_ok_cases h with ⟨hb, h⟩ | ⟨-, h⟩
  · exact encode_of_target hb h fun hfit => ⟨wellFormed_of_fits hfit rfl rfl, rfl⟩
  rcases ite_ok_cases h with ⟨hb, h⟩ | ⟨-, h⟩
  · exact encode_of_target hb h fun hfit => ⟨wellFormed_of_fits hfit rfl rfl, rfl⟩
  cases h

/-! The statements. -/

/-- Settles O2: the word of each form decodes to that form, and the sign-extended fields are those encoded. -/
theorem decodeOfEncodeIsTheInstruction : Obligations.DecodeOfEncodeIsTheInstruction := fun _ => decode_encode

/-- Settles O3: each line of the decoder undoes the encoding of its format. -/
theorem encodeOfDecodeIsTheWord : Obligations.EncodeOfDecodeIsTheWord := fun _ _ => encode_of_decode

/-- Settles O1: sixteen words decoded. -/
theorem specWordsDecodeAsPrinted : Obligations.SpecWordsDecodeAsPrinted := by
  unfold Obligations.SpecWordsDecodeAsPrinted
  decide

/-- Settles O6: line 1 of R77 takes every word 0x8D 0x0F, and the second byte of a jge word is a byte of its target. -/
theorem leaWordsAreNeverJge : Obligations.LeaWordsAreNeverJge := by
  refine ⟨fun w h0 h1 => ?_, fun t ht => ?_⟩
  · rw [eq_packWord h0 h1 rfl rfl, packWord_byte3]
    by_cases h2 : 8 < (byte2 w).toNat
    · right
      simp [decode, packWord_fields, withReg_bad _ _ h2]
    · obtain ⟨rd, hrd⟩ := Option.ne_none_iff_exists'.1 (mt Reg.ofId?_eq_none.1 h2)
      exact .inl ⟨rd, decode_lea_word _ hrd⟩
  · refine ⟨byte0_target _ _, ?_⟩
    rw [encode, wordOfTarget, byte1_target]
    exact targetField_high_byte_iff ht

/-- Every instruction's word has the fixed bits of its row. -/
theorem encode_in_tableRow : ∀ i : Instr, Laws.TableRow.Statement i
  | .lea rd d => Laws.TableRow.lea rd d
  | .push r => Laws.TableRow.push r
  | .pop r => Laws.TableRow.pop r
  | .call t => Laws.TableRow.call t
  | .ret => Laws.TableRow.ret
  | .movRegReg rd rs => Laws.TableRow.movRegReg rd rs
  | .movRegImm rd v => Laws.TableRow.movRegImm rd v
  | .movRegMem rd d => Laws.TableRow.movRegMem rd d
  | .movRegArr rd rb ri => Laws.TableRow.movRegArr rd rb ri
  | .movMemImm d v => Laws.TableRow.movMemImm d v
  | .movMemReg d rs => Laws.TableRow.movMemReg d rs
  | .addRegImm rd v => Laws.TableRow.addRegImm rd v
  | .addRegReg rd rs => Laws.TableRow.addRegReg rd rs
  | .subRegImm rd v => Laws.TableRow.subRegImm rd v
  | .subRegReg rd rs => Laws.TableRow.subRegReg rd rs
  | .cmpRegReg ra rb => Laws.TableRow.cmpRegReg ra rb
  | .cmpRegMem ra d => Laws.TableRow.cmpRegMem ra d
  | .cmpRegImm ra v => Laws.TableRow.cmpRegImm ra v
  | .cmpRegArr ra rb ri => Laws.TableRow.cmpRegArr ra rb ri
  | .jmp t => Laws.TableRow.jmp t
  | .je t => Laws.TableRow.je t
  | .jne t => Laws.TableRow.jne t
  | .jl t => Laws.TableRow.jl t
  | .jge t => Laws.TableRow.jge t
  | .jle t => Laws.TableRow.jle t
  | .jg t => Laws.TableRow.jg t

/-- Settles O7: a word that decodes is the encoder's word, which lies in the row. -/
theorem decodedWordsLieInTheirTableRow : Obligations.DecodedWordsLieInTheirTableRow := by
  intro w i h
  obtain ⟨-, rfl⟩ := encode_of_decode h
  exact encode_in_tableRow i

end Sys2Proof.Machine
end

section
/-! SUPPORT. The assembler: which abstract instructions select which instruction, and the bytes of an image
(30_encoding.md R87 to R92). -/

namespace Sys2Proof.Machine

/-! Targets and labels (30_encoding.md R87, R89). -/

/-- An operand is a target exactly if it is an integer once its label is resolved. -/
theorem Operand.target_eq_ok_iff {L : LabelTable} {o : Operand} {t : Int} :
    o.target L = .ok t ↔ o.resolve L = .imm t := by
  cases o with
  | label n => cases h : LabelTable.find L n <;> simp [Operand.target, Operand.resolve, h]
  | _ => simp [Operand.target, Operand.resolve]

theorem withTarget_eq_ok_iff {L : LabelTable} {o : Operand} {mk : Int → Instr} {i : Instr} :
    withTarget L o mk = .ok i ↔ ∃ t, o.resolve L = .imm t ∧ mk t = i := by
  simp only [← Operand.target_eq_ok_iff]
  cases h : o.target L <;> simp [withTarget, h]

theorem AbsInstr.resolve_of_takesTarget (L : LabelTable) {op : Operator} (h : op.takesTarget = true)
    (os : List Operand) : AbsInstr.resolve L ⟨op, os⟩ = ⟨op, os.map (Operand.resolve L)⟩ := if_pos h

theorem AbsInstr.resolve_of_not_takesTarget (L : LabelTable) {a : AbsInstr} (h : a.op.takesTarget = false) :
    a.resolve L = a := if_neg (Bool.eq_false_iff.1 h)

@[simp] theorem AbsInstr.resolve_op (L : LabelTable) (a : AbsInstr) : (a.resolve L).op = a.op := by
  unfold AbsInstr.resolve
  split <;> rfl

theorem abstract_resolve (L : LabelTable) (i : Instr) : i.abstract.resolve L = i.abstract := by
  cases i <;> rfl

/-- What resolves to a row of R87 with a target is that row with an operand that resolves to the target. -/
theorem AbsInstr.resolve_eq_target_iff {L : LabelTable} {a : AbsInstr} {op : Operator} {t : Int}
    (hop : op.takesTarget = true) :
    a.resolve L = ⟨op, [.imm t]⟩ ↔ ∃ o, a = ⟨op, [o]⟩ ∧ o.resolve L = .imm t := by
  constructor
  · intro h
    have ha : a.op = op := (AbsInstr.resolve_op L a).symm.trans (congrArg AbsInstr.op h)
    obtain ⟨op', os⟩ := a
    cases ha
    rw [AbsInstr.resolve_of_takesTarget L hop, AbsInstr.mk.injEq] at h
    obtain ⟨o, rfl, ho⟩ := List.map_eq_singleton_iff.1 h.2
    exact ⟨o, rfl, ho⟩
  · rintro ⟨o, rfl, ho⟩
    rw [AbsInstr.resolve_of_takesTarget L hop, List.map_singleton, ho]

/-! The selection table, read both ways. -/

/-- The cases are the rows of R87 in their order: those with a target, the one for all other combinations, the rest. -/
theorem abstract_of_select {L : LabelTable} {a : AbsInstr} {i : Instr} (h : a.select L = .ok i) :
    i.abstract = a.resolve L := by
  obtain ⟨op, os⟩ := a
  unfold AbsInstr.select at h
  dsimp only at h
  split at h
  case h_4 | h_20 | h_21 | h_22 | h_23 | h_24 | h_25 | h_26 =>
    obtain ⟨t, ho, rfl⟩ := withTarget_eq_ok_iff.1 h
    exact ((AbsInstr.resolve_eq_target_iff rfl).2 ⟨_, rfl, ho⟩).symm
  case h_27 => cases h
  all_goals
    cases h
    rfl

theorem select_of_abstract {L : LabelTable} {a : AbsInstr} {i : Instr} (h : i.abstract = a.resolve L) :
    a.select L = .ok i := by
  have hop : i.abstract.op = a.op := by rw [h, AbsInstr.resolve_op]
  cases i with
  | call t | jmp t | je t | jne t | jl t | jge t | jle t | jg t =>
    obtain ⟨o, rfl, ho⟩ := (AbsInstr.resolve_eq_target_iff rfl).1 h.symm
    exact withTarget_eq_ok_iff.2 ⟨t, ho, rfl⟩
  | lea | push | pop | ret | movRegReg | movRegImm | movRegMem | movRegArr | movMemImm | movMemReg | addRegImm
  | addRegReg | subRegImm | subRegReg | cmpRegReg | cmpRegMem | cmpRegImm | cmpRegArr =>
    rw [AbsInstr.resolve_of_not_takesTarget L (by rw [← hop]; rfl)] at h
    rw [← h]
    rfl

/-- Selection is the rows of R87 read from left to right, with the labels of targets resolved. -/
theorem select_eq_ok_iff {L : LabelTable} {a : AbsInstr} {i : Instr} :
    a.select L = .ok i ↔ i.abstract = a.resolve L :=
  ⟨abstract_of_select, select_of_abstract⟩

theorem assemble_eq_ok_iff {L : LabelTable} {a : AbsInstr} {w : Word} :
    assemble L a = .ok w ↔ ∃ i : Instr, i.abstract = a.resolve L ∧ i.wellFormed = true ∧ encode i = w := by
  simp only [← select_eq_ok_iff, wellFormed_iff]
  unfold assemble
  cases hs : a.select L with
  | error e => simp
  | ok i => cases hfit : i.fieldsFit <;> cases hlea : i.readAsLea <;> simp [hfit, hlea]

/-- Settles O4: what is assembled is the word of a well-formed instruction, and such a word decodes to it; a word that
decodes is such a word. -/
theorem assembledWordsDecodeToTheirInstruction : Obligations.AssembledWordsDecodeToTheirInstruction := by
  refine ⟨fun L a w h => ?_, fun L w i h => ?_⟩
  · obtain ⟨i, habs, hwf, rfl⟩ := assemble_eq_ok_iff.1 h
    exact ⟨i, decode_encode hwf, habs⟩
  · obtain ⟨hwf, hw⟩ := encode_of_decode h
    exact assemble_eq_ok_iff.2 ⟨i, (abstract_resolve L i).symm, hwf, hw⟩

/-- Settles O8: a word is assembled exactly for the abstract form of a well-formed instruction. -/
theorem assemblerAcceptsExactlyTheLayouts : Obligations.AssemblerAcceptsExactlyTheLayouts := by
  intro L a
  simp only [assemble_eq_ok_iff]
  exact ⟨fun ⟨_, i, habs, hwf, _⟩ => ⟨i, habs, hwf⟩, fun ⟨i, habs, hwf⟩ => ⟨_, i, habs, hwf, rfl⟩⟩

/-! Images (30_encoding.md R92). -/

theorem assembleAll_cons_eq_ok_iff {L : LabelTable} {n : Nat} {a : AbsInstr} {as : List AbsInstr} {bs : List Byte} :
    assembleAll L n (a :: as) = .ok bs ↔
      ∃ w bs', assemble L a = .ok w ∧ assembleAll L (n + 1) as = .ok bs' ∧ wordBytes w ++ bs' = bs := by
  simp only [assembleAll]
  cases assemble L a <;> cases assembleAll L (n + 1) as <;> simp

theorem assembleAll_length {L : LabelTable} {n : Nat} {as : List AbsInstr} {bs : List Byte}
    (h : assembleAll L n as = .ok bs) : bs.length = 4 * as.length := by
  induction as generalizing n bs with
  | nil =>
    cases h
    rfl
  | cons a as ih =>
    obtain ⟨w, bs', -, htail, rfl⟩ := assembleAll_cons_eq_ok_iff.1 h
    rw [List.length_append, wordBytes_length, ih htail, List.length_cons]
    omega

/-- The bytes of instruction m are those at 4m on. -/
theorem assembleAll_getElem? {L : LabelTable} {n : Nat} {as : List AbsInstr} {bs : List Byte}
    (h : assembleAll L n as = .ok bs) {m : Nat} {a : AbsInstr} (hm : as[m]? = some a) :
    ∃ w, assemble L a = .ok w ∧ ∀ q, q < 4 → bs[4 * m + q]? = (wordBytes w)[q]? := by
  induction as generalizing n bs m with
  | nil => cases hm
  | cons a' as ih =>
    obtain ⟨w, bs', hw, htail, rfl⟩ := assembleAll_cons_eq_ok_iff.1 h
    cases m with
    | zero =>
      cases hm
      refine ⟨w, hw, fun q hq => ?_⟩
      rw [Nat.mul_zero, Nat.zero_add]
      exact List.getElem?_append_left hq
    | succ m =>
      obtain ⟨v, hv, hq⟩ := ih htail hm
      refine ⟨v, hv, fun q hlt => ?_⟩
      rw [List.getElem?_append_right (by rw [wordBytes_length]; omega), wordBytes_length, ← hq q hlt]
      congr 1
      omega

theorem encodeProgram_eq_ok {L : LabelTable} {as : List AbsInstr} {img : List Byte} (h : encodeProgram L as = .ok img) :
    ∃ bs, assembleAll L 0 as = .ok bs ∧ bs.length ≤ 1024 ∧ img = bs ++ List.replicate (1024 - bs.length) 0 := by
  unfold encodeProgram at h
  split at h
  · cases h
  · next hfits =>
    split at h
    · cases h
    · next bs hbs =>
      cases h
      exact ⟨bs, hbs, by rw [assembleAll_length hbs]; exact Nat.le_of_not_lt hfits, rfl⟩

/-- Settles O9: the bytes of the words, four by four, and what pads them to 1024. -/
theorem imagesAreInstructionsThenZeros : Obligations.ImagesAreInstructionsThenZeros := by
  refine ⟨fun L as img h => ?_, fun L as h => if_pos (by unfold imageBytes; omega)⟩
  obtain ⟨bs, hbs, hle, rfl⟩ := encodeProgram_eq_ok h
  have hlen := assembleAll_length hbs
  refine ⟨by simp [hle], fun m a hm => ?_, fun n hn hlt => ?_⟩
  · obtain ⟨w, hw, hq⟩ := assembleAll_getElem? hbs hm
    have hlt : m < as.length := (List.getElem?_eq_some_iff.1 hm).1
    have himg : ∀ q, q < 4 → (bs ++ List.replicate (1024 - bs.length) 0)[4 * m + q]? = (wordBytes w)[q]? := fun q hlq =>
      (List.getElem?_append_left (by omega)).trans (hq q hlq)
    exact ⟨w, hw, himg 0 (by decide), himg 1 (by decide), himg 2 (by decide), himg 3 (by decide)⟩
  · rw [List.getElem?_append_right (by omega), List.getElem?_replicate, if_pos (by omega)]

end Sys2Proof.Machine
end

section
/-! SUPPORT. Bus addresses, Ensure, write-through and debug writes (20_memory.md R43, R49 to R58). -/

namespace Sys2Proof.Machine

/-! Wrapped addresses (20_memory.md R43, decision D4). -/

theorem natCast_busAddr (cfg : Config) (ea : Int) : (busAddr cfg ea : Int) = ea % 2 ^ cfg.bits :=
  Int.toNat_of_nonneg (Int.emod_nonneg ea (Int.pow_ne_zero (by decide)))

theorem busAddr_eq_iff {cfg : Config} {ea ea' : Int} :
    busAddr cfg ea = busAddr cfg ea' ↔ (ea - ea') % 2 ^ cfg.bits = 0 := by
  rw [← Int.natCast_inj, natCast_busAddr, natCast_busAddr, Int.emod_eq_emod_iff_emod_sub_eq_zero]

/-- The address space is a whole number of dwords, so one of two names of a dword is aligned if the other is. -/
theorem aligned_of_busAddr_eq {cfg : Config} (hc : cfg.WellFormed) {ea ea' : Int} (h : busAddr cfg ea = busAddr cfg ea')
    (ha : Aligned ea') : Aligned ea := by
  have hfour : (4 : Int) ∣ 2 ^ cfg.bits := by exact_mod_cast four_dvd_pow hc
  have hdiff : (4 : Int) ∣ ea - ea' := hfour.trans (Int.dvd_of_emod_eq_zero (busAddr_eq_iff.1 h))
  simp only [Aligned] at ha ⊢
  omega

/-- Settles O48: a store and a load meet at the bus address, whatever effective addresses they name it by. -/
theorem effectiveAddressesWrapToBusAddresses : Obligations.EffectiveAddressesWrapToBusAddresses := by
  refine ⟨natCast_busAddr, fun _ _ _ => busAddr_eq_iff, fun _ ea hc ha => ⟨busAddr_lt _ ea, busAddr_aligned hc ha⟩,
    fun s t d rs rd rb ri hs ha h hea => ?_⟩
  obtain ⟨hcfg, -⟩ := id hs
  cases (s.memWrite_aligned (s.regs.get rs) .next ha).symm.trans h
  have hba : busAddr s.cfg (s.arrEA rb ri) = busAddr s.cfg (s.memEA d) := busAddr_eq_iff.2 hea
  have hload := State.memRead_cacheWrite hs (aligned_of_busAddr_eq hcfg hba ha) (s.regs.get rs)
    fun w s1 => .next (s1.setReg rd w)
  rw [hba] at hload
  exact ⟨_, (exec_movRegArr rd rb ri _).trans hload, State.x_setReg_self _ rd _⟩

/-! Ensure (20_memory.md R49, R50). -/

theorem CacheSet.Wf.getLast?_order {cfg : Config} {cs : CacheSet} (hc : cfg.WellFormed) (h : cs.Wf cfg) :
    cs.order.getLast? = some cs.victim := by
  have hne : cs.order ≠ [] := List.ne_nil_of_mem (h.order_mem.2 (h.victim_lt hc))
  rw [CacheSet.victim, List.getLast?_eq_some_getLast hne, Option.getD_some]

section

variable {cfg : Config} {c : Cache}

theorem Cache.Wf.setAt_ensure_of_ne (hc : cfg.WellFormed) (h : Cache.Wf cfg c) (m : Memory) (ba : Nat) {j : Nat}
    (hj : j ≠ cacheIndex cfg ba) : (c.ensure cfg m ba).2.setAt j = c.setAt j := by
  rcases Cache.ensure_cases cfg m c ba with ⟨w, -, he⟩ | ⟨-, he⟩ <;>
    rw [he, h.setAt_set (cacheIndex_lt hc ba), if_neg hj.symm]

theorem Cache.Wf.order_ensure (hc : cfg.WellFormed) (h : Cache.Wf cfg c) (m : Memory) (ba : Nat) :
    ((c.ensure cfg m ba).2.setAt (cacheIndex cfg ba)).order =
      (c.ensure cfg m ba).1 :: (c.setAt (cacheIndex cfg ba)).order.erase (c.ensure cfg m ba).1 := by
  rcases Cache.ensure_cases cfg m c ba with ⟨w, -, he⟩ | ⟨-, he⟩
  · rw [he, h.setAt_set (cacheIndex_lt hc ba), if_pos rfl]
    rfl
  · rw [he, h.setAt_set (cacheIndex_lt hc ba), if_pos rfl]
    rfl

theorem Cache.Wf.ensure_of_hit (hc : cfg.WellFormed) (h : Cache.Wf cfg c) (m : Memory) {ba w : Nat}
    (hw : c.lookup cfg ba = some w) : (c.ensure cfg m ba).1 = w ∧
      ((c.ensure cfg m ba).2.setAt (cacheIndex cfg ba)).lines = (c.setAt (cacheIndex cfg ba)).lines := by
  rcases Cache.ensure_cases cfg m c ba with ⟨x, hx, he⟩ | ⟨hx, -⟩
  · cases hx.symm.trans hw
    rw [he, h.setAt_set (cacheIndex_lt hc ba), if_pos rfl]
    exact ⟨rfl, rfl⟩
  · cases hx.symm.trans hw

theorem Cache.Wf.ensure_of_miss (hc : cfg.WellFormed) (h : Cache.Wf cfg c) (m : Memory) {ba : Nat}
    (hl : c.lookup cfg ba = none) : (c.ensure cfg m ba).1 = (c.setAt (cacheIndex cfg ba)).victim ∧
      ((c.ensure cfg m ba).2.setAt (cacheIndex cfg ba)).lines =
        (c.setAt (cacheIndex cfg ba)).lines.set (c.setAt (cacheIndex cfg ba)).victim
          (some ⟨cacheTag cfg ba, m.block (cacheBase cfg ba) (2 ^ cfg.k)⟩) := by
  rcases Cache.ensure_cases cfg m c ba with ⟨x, hx, -⟩ | ⟨-, he⟩
  · cases hx.symm.trans hl
  · rw [he, h.setAt_set (cacheIndex_lt hc ba), if_pos rfl]
    exact ⟨rfl, rfl⟩

end

/-- Settles O51: a hit touches a way, a miss fills the last way of the order and touches it. -/
theorem ensureReplacesTheLeastRecentLineOnly : Obligations.EnsureReplacesTheLeastRecentLineOnly := by
  intro cfg m c ba hc h hb i w c'
  have hset := h.setAt (cacheIndex_lt hc ba)
  refine ⟨fun j hj => h.setAt_ensure_of_ne hc m ba hj, h.lookup_ensure_self hc m hb, h.order_ensure hc m ba,
    fun x hx => h.ensure_of_hit hc m hx, fun hl => ?_⟩
  obtain ⟨hw, hlines⟩ := h.ensure_of_miss hc m hl
  change w = (c.setAt i).victim at hw
  change (c'.setAt i).lines = _ at hlines
  rw [hlines, hw]
  refine ⟨hset.getLast?_order hc, ?_, fun x hx => List.getElem?_set_ne (Ne.symm hx)⟩
  exact List.getElem?_set_self (by rw [hset.1]; exact hset.victim_lt hc)

/-! Reads and writes through the cache (20_memory.md R52 to R58). -/

/-- Settles O52: a write-through leaves the dword in Memory, and the lines of its bytes agree with Memory. -/
theorem writeThroughThenReadAnswersTheDword : Obligations.WriteThroughThenReadAnswersTheDword := by
  intro s ba v hs ha
  obtain ⟨hcfg, ⟨hmem, -⟩, -⟩ := id hs
  exact ⟨_, if_pos ha, State.cacheWrite_dword hmem ba v,
    State.cacheRead_cacheWrite hs (aligned_dword_fits hcfg ha.1 ha.2) v, State.cacheWrite_resident hs ha v true⟩

/-- Settles O53: in a coherent state every line agrees with Memory. -/
theorem theCacheIsTransparent : Obligations.TheCacheIsTransparent := by
  intro s ba hs hco ha
  obtain ⟨hcfg, ⟨hmem, -⟩, -⟩ := id hs
  exact ⟨State.cacheRead_dword hs (aligned_dword_fits hcfg ha.1 ha.2) fun j _ => (State.coherent_iff hs).1 hco (ba + j),
    rfl, State.cacheWrite_storedDword hmem ba⟩

/-! A dword the cache holds, whatever Memory holds (20_memory.md R54). -/

/-- Each byte of the dword at `ba` is resident, with the byte of `v` there. -/
def HoldsDword (s : State) (ba : Nat) (v : Word) : Prop :=
  ∀ j, j < 4 → Held s.cfg s.cache (ba + j) ((wordBytes v).getD j 0)

theorem Held.foundIs {cfg : Config} {c : Cache} {a : Nat} {t : Byte} (h : Held cfg c a t) : FoundIs cfg c a t := by
  obtain ⟨x, hx, ht⟩ := h
  intro y hy
  cases hx.symm.trans hy
  exact ht

/-- In a state whose dword is resident, what its bytes are if they are resident is what they are. -/
theorem State.DwordResident.holdsDword {s : State} {ba : Nat} (h : s.DwordResident ba) {v : Word}
    (hf : ∀ j, j < 4 → FoundIs s.cfg s.cache (ba + j) ((wordBytes v).getD j 0)) : HoldsDword s ba v := by
  intro j hj
  obtain ⟨x, hx⟩ := (s.isCacheHit_ne_iff (ba + j)).1 (h j hj)
  exact ⟨x, hx, hf j hj x hx⟩

/-- A write of either kind leaves its dword in the cache, as far as it stays resident. -/
theorem HoldsDword.of_cacheWrite {s : State} (hs : s.Wf) {ba : Nat} (ha : CacheAddress s.cfg ba) {v : Word} {mw : Bool}
    (hres : (s.cacheWrite ba v mw).DwordResident ba) : HoldsDword (s.cacheWrite ba v mw) ba v := by
  obtain ⟨hcfg, -, hcache, -⟩ := id hs
  refine hres.holdsDword fun j hj => ?_
  refine hcache.writeBytes_found hcfg s.mem (wordBytes v) (aligned_dword_fits hcfg ha.1 ha.2) (onWay_none _ _ _)
    (by omega) (fun _ _ => ?_) (by rw [wordBytes_length]; omega)
  rw [Nat.add_sub_cancel_left, List.getD_eq_getElem?_getD,
    List.getElem?_eq_getElem (show j < (wordBytes v).length from hj)]
  rfl

/-- The read of a dword the cache holds: it answers the dword and goes on holding it. -/
theorem HoldsDword.read_self {s : State} {ba : Nat} {v : Word} (h : HoldsDword s ba v) (hs : s.Wf)
    (ha : CacheAddress s.cfg ba) : (s.cacheRead ba).1 = v ∧ HoldsDword (s.cacheRead ba).2 ba v := by
  obtain ⟨hcfg, -, hcache, -⟩ := id hs
  have hheld : ∀ j, j < 4 → Held s.cfg s.cache (ba + j) ((wordBytes v).getD (ba + j - ba) 0) := fun j hj => by
    rw [Nat.add_sub_cancel_left]
    exact h j hj
  obtain ⟨hbytes, hkeep⟩ := hcache.readBytes_held hcfg s.mem 4 (aligned_dword_fits hcfg ha.1 ha.2) (onWay_none _ _ _)
    (fun a => (wordBytes v).getD (a - ba) 0) hheld
  refine ⟨?_, fun j hj => hkeep _ _ (h j hj)⟩
  simp only [Nat.add_sub_cancel_left] at hbytes
  rw [State.cacheRead_fst, hbytes]
  exact packWord_bytes v

/-- An access to another dword leaves the bytes of a held dword as they are, while they stay resident. -/
theorem HoldsDword.access_of_ne {s : State} {ba : Nat} {v : Word} (h : HoldsDword s ba v) (hs : s.Wf)
    (ha : CacheAddress s.cfg ba) {a : CacheAccess} (haa : CacheAddress s.cfg a.addr) (hne : a.addr ≠ ba)
    (hres : (s.access a).DwordResident ba) : HoldsDword (s.access a) ba v := by
  obtain ⟨hcfg, -, hcache, -⟩ := id hs
  have hfits := aligned_dword_fits hcfg haa.1 haa.2
  have hlookup : ∀ j, j < 4 → s.cache.lookup s.cfg (ba + j) ≠ none := fun j hj hn => by
    obtain ⟨x, hx, -⟩ := h j hj
    cases hn.symm.trans hx
  have hinside : ∀ j, j < 4 → ∀ i, 0 < i → i < 4 → cacheOffset s.cfg (a.addr + i) = 0 →
      ¬ SameBlock s.cfg (ba + j) (a.addr + i) := fun j hj i hi hi4 ho =>
    not_sameBlock_inside ha.2 haa.2 hne hj hi hi4 ho
  refine hres.holdsDword fun j hj => ?_
  cases a with
  | read b =>
    rw [State.access, State.cacheRead_cfg, State.cacheRead_cache]
    exact (h j hj).foundIs.readBytes hcfg s.mem 4 hcache hfits (onWay_none _ _ _) (fun _ _ _ => hlookup j hj)
      (hinside j hj)
  | write b u mw =>
    have hapart : ba + j < b ∨ b + 4 ≤ ba + j := by
      simp only [CacheAccess.addr] at haa hne
      omega
    rw [State.access, State.cacheWrite_cfg, State.cacheWrite_cache]
    exact (h j hj).foundIs.writeBytes hcfg s.mem (wordBytes u) hcache hfits (onWay_none _ _ _) hapart
      (fun _ _ _ => hlookup j hj) (hinside j hj)

theorem State.Wf.access {s : State} (hs : s.Wf) {a : CacheAccess} (haa : CacheAddress s.cfg a.addr) :
    (s.access a).Wf := by
  obtain ⟨hcfg, -⟩ := id hs
  have hfits := aligned_dword_fits hcfg haa.1 haa.2
  cases a with
  | read b => exact hs.cacheRead hfits
  | write b u mw => exact hs.cacheWrite hfits u mw

@[simp] theorem State.access_cfg (s : State) (a : CacheAccess) : (s.access a).cfg = s.cfg := by
  cases a <;> rfl

/-- A held dword stays held in every state reached while it stays resident and is not written. -/
theorem State.KeepsResident.holdsDword {s u : State} {ba : Nat} {v : Word} (h : State.KeepsResident ba s u)
    (hs : s.Wf) (ha : CacheAddress s.cfg ba) (hv : s.DwordResident ba → HoldsDword s ba v) :
    u.Wf ∧ CacheAddress u.cfg ba ∧ HoldsDword u ba v := by
  induction h with
  | refl hres => exact ⟨hs, ha, hv hres⟩
  | access a _ haa hkind hres ih =>
    obtain ⟨hwf, hat, hheld⟩ := ih
    refine ⟨hwf.access haa, (State.access_cfg _ a).symm ▸ hat, ?_⟩
    rcases hkind with rfl | hne
    · exact (hheld.read_self hwf hat).2
    · exact hheld.access_of_ne hwf hat haa hne hres

/-- Settles O54: what a debug write leaves in the cache is held while it is resident; and nothing in the cache stands
for a dword no byte of which is resident. -/
theorem debugWritesStayInTheCache : Obligations.DebugWritesStayInTheCache := by
  refine ⟨fun s ba v hs ha => ?_, fun s ba hs ha habs => ?_⟩
  · obtain ⟨hcfg, -⟩ := id hs
    refine ⟨_, if_pos ha, ⟨fun _ => rfl, rfl, rfl, rfl, rfl, rfl, fun _ => rfl⟩,
      State.cacheWrite_resident hs ha v false, fun u hu => ?_⟩
    obtain ⟨huwf, hua, hheld⟩ := hu.holdsDword (hs.cacheWrite (aligned_dword_fits hcfg ha.1 ha.2) v false) ha
      (HoldsDword.of_cacheWrite hs ha)
    exact (hheld.read_self huwf hua).1
  · obtain ⟨hcfg, -⟩ := id hs
    refine State.cacheRead_dword hs (aligned_dword_fits hcfg ha.1 ha.2) fun j hj x hx => ?_
    cases ((s.isCacheHit_eq_iff _).1 (habs j hj)).symm.trans hx

end Sys2Proof.Machine
end

section
/-! SUPPORT. Creation, reset and the load of a program (10_state.md R36, 70_reset_and_hazards.md R170 to R176). -/

namespace Sys2Proof.Machine

/-! The empty cache. -/

theorem Cache.setAt_reset {cfg : Config} {i : Nat} (hi : i < cfg.size) :
    (Cache.reset cfg).setAt i = CacheSet.reset cfg :=
  Cache.setAt_eq (List.getElem?_replicate.trans (if_pos hi))

/-- No set of the reset cache has a valid line, whatever the geometry. -/
theorem Cache.reset_no_line {cfg : Config} {i w : Nat} {ln : Line} :
    ((Cache.reset cfg).setAt i).lines[w]? ≠ some (some ln) := by
  intro h
  by_cases hi : i < cfg.size
  · rw [Cache.setAt_reset hi] at h
    cases List.eq_of_mem_replicate (List.mem_of_getElem? h)
  · have hempty : (Cache.reset cfg).setAt i = { lines := [], order := [] } := by
      simp [Cache.setAt, Cache.reset, List.getD_eq_getElem?_getD, hi]
    rw [hempty] at h
    cases h

theorem Cache.lookup_reset (cfg : Config) (ba : Nat) : (Cache.reset cfg).lookup cfg ba = none :=
  CacheSet.lookup_eq_none_iff.2 fun _ _ h => absurd h Cache.reset_no_line

theorem CacheSet.reset_wf (cfg : Config) : (CacheSet.reset cfg).Wf cfg := by
  have hnone : ∀ l ∈ (CacheSet.reset cfg).lines, l = none := fun _ => List.eq_of_mem_replicate
  refine ⟨List.length_replicate, List.reverse_perm _, fun l hl ln hln => ?_, ?_⟩
  · rw [hnone l hl] at hln
    cases hln
  · exact List.pairwise_of_forall_mem_list fun l hl _ _ => .inl (hnone l hl)

theorem Cache.reset_wf (cfg : Config) : Cache.Wf cfg (Cache.reset cfg) :=
  ⟨List.length_replicate, fun cs hcs => by rw [List.eq_of_mem_replicate hcs]; exact CacheSet.reset_wf cfg⟩

/-! The reset state. -/

theorem State.resetWith_wf {cfg : Config} (h : cfg.WellFormed) : (State.resetWith cfg).Wf :=
  ⟨h, ⟨⟨List.Pairwise.nil, by simp [State.resetWith]⟩, by simp [State.resetWith]⟩, Cache.reset_wf cfg,
    fun _ _ => Nat.zero_le _⟩

theorem State.resetWith_coherent {cfg : Config} (h : cfg.WellFormed) : (State.resetWith cfg).Coherent :=
  (State.coherent_iff (State.resetWith_wf h)).2 fun a x hx => by
    cases (Cache.lookup_reset cfg a).symm.trans hx

theorem State.x_resetWith (cfg : Config) (r : Reg) : (State.resetWith cfg).x r = 0 := by
  cases r <;> rfl

theorem State.resetWith_flags_reachable (cfg : Config) : (State.resetWith cfg).flags.Reachable := fun h => by
  cases h.1

/-- Settles O10: field by field; an empty cache answers no lookup. -/
theorem resetClearsTheMachine : Obligations.ResetClearsTheMachine := by
  intro cfg
  exact ⟨State.x_resetWith cfg, rfl, rfl, rfl, fun _ => rfl,
    fun ba => (State.isCacheHit_eq_iff _ ba).2 (Cache.lookup_reset cfg ba),
    fun _ hi => congrArg CacheSet.order (Cache.setAt_reset hi), rfl⟩

/-- Settles O11: the reset state of legal parameters, and `create`'s check. -/
theorem createdMachinesMeetTheInvariants : Obligations.CreatedMachinesMeetTheInvariants :=
  ⟨fun _ h => ⟨_, if_pos h, rfl, State.resetWith_wf h, State.resetWith_coherent h, State.resetWith_flags_reachable _⟩,
    fun _ h => if_neg h⟩

/-! The first step without a program (70_reset_and_hazards.md R171). -/

theorem Memory.dword_nil (a : Nat) : Memory.dword [] a = 0 := show packWord 0 0 0 0 = 0 by decide

theorem State.fetchedWord_resetWith {cfg : Config} (h : cfg.WellFormed) : (State.resetWith cfg).fetchedWord = 0 := by
  have ha : Aligned ((State.resetWith cfg).x .pc) := by rw [State.x_resetWith]; rfl
  exact ((State.resetWith_coherent h).cacheRead_busAddr (State.resetWith_wf h) ha).trans (Memory.dword_nil _)

theorem step_resetWith {cfg : Config} (h : cfg.WellFormed) :
    step (State.resetWith cfg) =
      .next ((State.resetWith cfg).haltedWith (State.resetWith cfg).afterFetch.cache (.decodeError 0)) := by
  have hw := State.fetchedWord_resetWith h
  have hd : decode (State.resetWith cfg).fetchedWord = .error (.noPattern 0) := by
    rw [hw]
    decide
  have hstep := step_rejected rfl (by rw [State.x_resetWith]; rfl) hd
  rwa [hw] at hstep

/-- Settles O58: the fetch at pc 0 reads the zero word, which is no instruction. -/
theorem anUnloadedMachineHaltsAtOnce : Obligations.AnUnloadedMachineHaltsAtOnce := fun cfg h =>
  ⟨_, step_resetWith h, rfl, State.x_resetWith cfg .pc⟩

/-! loadProgram (70_reset_and_hazards.md R171, R172). -/

theorem State.loadProgram_of_ne_reset {s : State} (h : s ≠ State.resetWith s.cfg) (img : List Byte) :
    s.loadProgram img = .refused .loadNotAfterReset := if_neg h

theorem State.loadProgram_resetWith {img : List Byte} (cfg : Config) (h : img.length = 1024) :
    (State.resetWith cfg).loadProgram img =
      .next { State.resetWith cfg with mem := Memory.writeBytes [] 0 img, loaded := true } :=
  (if_pos rfl).trans (if_pos h)

/-- Settles O57: the image is written to empty Memory; the record of the load, or the error of a first step, tells every
later state from the reset state. -/
theorem loadProgramPlacesTheImage : Obligations.LoadProgramPlacesTheImage := by
  have hempty : Memory.wf [] := ⟨List.Pairwise.nil, by simp⟩
  refine ⟨fun cfg img h => ⟨_, State.loadProgram_resetWith cfg h, fun n => ?_, Memory.writeBytes_wf 0 img hempty, rfl,
    State.loadProgram_of_ne_reset fun he => ?_⟩, fun cfg img h => (if_pos rfl).trans (if_neg h),
    fun cfg t img hc h => ?_, fun s img h => State.loadProgram_of_ne_reset h img⟩
  · rw [Memory.read_writeBytes 0 img n hempty, ← List.getD_eq_getElem?_getD]
    split
    · rfl
    · next hn => exact (List.getD_eq_default img 0 (by omega)).symm
  · cases congrArg State.loaded he
  · cases (step_resetWith hc).symm.trans h
    refine State.loadProgram_of_ne_reset (fun he => ?_) img
    cases congrArg State.run he

end Sys2Proof.Machine
end

section
/-! SUPPORT. What the next fetch reads after a store over it, or after a word was placed there (20_memory.md R63;
log 10, log 11). -/

namespace Sys2Proof.Machine

/-! A store over the next instruction. -/

/-- A step that is a write-through at the bus address of a + 4 leaves a Ready machine that fetches what was written. -/
theorem State.Fetches.store_over_next {s s1 : State} {i : Instr} {w : Word} (hf : s.Fetches i s1) (hs : s.Wf)
    (hr : i.raises s1 = none) (hi : i.completed s1 = s1.cacheWrite (busAddr s.cfg (s.x .pc + 4)) w true) :
    ∃ t, step s = .next t ∧ t.run = .ready ∧ t.fetchedWord = w := by
  obtain ⟨-, ha, -⟩ := id hf
  obtain ⟨-, -, -, hcfg, -, -⟩ := hf.sameButRegsAndCache
  obtain ⟨hpc, -⟩ := hf.onlyReg_pc
  have hs1 := hf.wf hs
  have hnext : Aligned (s1.x .pc) := by
    simp only [Aligned, hpc] at ha ⊢
    omega
  refine ⟨_, hf.step_completed hr, (completed_run i s1).trans hf.run_eq, ?_⟩
  rw [hi, ← hcfg, ← hpc]
  exact State.cacheRead_cacheWrite hs1 (busAddr_fits hs1.1 hnext) w

/-- The frame address at the Execute phase is that at the fetch, since only pc has changed. -/
theorem State.Fetches.memEA_eq {s s1 : State} {i : Instr} (hf : s.Fetches i s1) (d : Int) :
    s1.memEA d = s.x .rbp + d := by
  obtain ⟨-, hother⟩ := hf.onlyReg_pc
  exact congrArg (· + d) (hother .rbp (by decide))

/-- Settles O56: both storing forms are a write-through; the immediate of a word that decodes fits a register. -/
theorem aStoreOverTheNextInstructionIsFetched : Obligations.AStoreOverTheNextInstructionIsFetched := by
  refine ⟨fun s s1 d rs hs hf ha hba => ?_, fun s s1 d v hs hf ha hba => ?_⟩
  all_goals
    obtain ⟨-, -, -, hcfg, -, -⟩ := hf.sameButRegsAndCache
    have hea := hf.memEA_eq d
    have hstore : busAddr s1.cfg (s1.memEA d) = busAddr s.cfg (s.x .pc + 4) := by rw [hcfg, hea, hba]
    have hr : Instr.raises.alignCheck (s1.memEA d) = none := alignCheck_of_aligned (hea ▸ ha)
  · exact hf.store_over_next hs hr (congrArg (s1.cacheWrite · (s1.regs.get rs) true) hstore)
  · obtain ⟨t, ht, hready, hw⟩ :=
      hf.store_over_next hs hr (congrArg (s1.cacheWrite · (BitVec.ofInt 32 v) true) hstore)
    obtain ⟨-, -, hd, -⟩ := hf
    obtain ⟨hfit, -⟩ := wellFormed_iff.1 (encode_of_decode hd).1
    have hv : ImmFits v := of_decide_eq_true (Bool.and_eq_true_iff.1 hfit).2
    exact ⟨t, ht, hready, by rw [hw, toInt_ofInt_of_inRange (inRange_of_immFits hv)]⟩

/-! Placing bytes from outside. -/

/-- What is found at an address, if its block is resident, is what Memory holds there. -/
def AgreesAt (s : State) (a : Nat) : Prop := FoundIs s.cfg s.cache a (s.mem.read a)

theorem State.pokeByte_cache_of_hit {s : State} {ba w : Nat} (b : Byte) (h : s.cache.lookup s.cfg ba = some w) :
    (s.pokeByte ba b).cache = s.cache.putByte s.cfg ba w b := by
  simp only [State.pokeByte, h]

theorem State.pokeByte_cache_of_miss {s : State} {ba : Nat} (b : Byte) (h : s.cache.lookup s.cfg ba = none) :
    (s.pokeByte ba b).cache = s.cache := by
  simp only [State.pokeByte, h]

theorem State.Wf.pokeByte {s : State} (hs : s.Wf) {ba : Nat} (hb : ba < 2 ^ s.cfg.bits) (b : Byte) :
    (s.pokeByte ba b).Wf := by
  obtain ⟨hcfg, ⟨hmem, hlt⟩, hcache, hstk⟩ := hs
  refine ⟨hcfg, ⟨Memory.write_wf ba b hmem, fun c hc => ?_⟩, ?_, hstk⟩
  · rcases Memory.mem_write hc with hc | rfl
    · exact hlt c hc
    · exact hb
  · cases h : s.cache.lookup s.cfg ba with
    | some w =>
      rw [State.pokeByte_cache_of_hit b h]
      exact hcache.putByte ba w b
    | none =>
      rw [State.pokeByte_cache_of_miss b h]
      exact hcache

/-- Placing a byte makes cache and Memory agree there, and keeps them agreeing elsewhere. -/
theorem AgreesAt.pokeByte {s : State} (hs : s.Wf) {ba a : Nat} (b : Byte) (h : a = ba ∨ AgreesAt s a) :
    AgreesAt (s.pokeByte ba b) a := by
  obtain ⟨hcfg, ⟨hmem, -⟩, hcache, -⟩ := hs
  unfold AgreesAt at h ⊢
  rw [State.pokeByte_cfg, State.pokeByte_mem, Memory.read_write _ _ _ _ hmem]
  cases hl : s.cache.lookup s.cfg ba with
  | some w =>
    rw [State.pokeByte_cache_of_hit b hl]
    intro x hx
    rw [hcache.lookup_putByte hcfg] at hx
    rw [hcache.byteAt_putByte hcfg b hl hx]
    split
    · rfl
    · next hne => exact h.resolve_left hne x hx
  | none =>
    rw [State.pokeByte_cache_of_miss b hl]
    intro x hx
    have hne : a ≠ ba := by
      rintro rfl
      cases hl.symm.trans hx
    rw [if_neg hne]
    exact h.resolve_left hne x hx

@[simp] theorem State.pokeBytes_mem (s : State) (ba : Nat) (bs : List Byte) :
    (s.pokeBytes ba bs).mem = s.mem.writeBytes ba bs := by
  induction bs generalizing s ba with
  | nil => rfl
  | cons b bs ih => exact ih (s.pokeByte ba b) (ba + 1)

/-- Placing bytes keeps a state well formed, and makes cache and Memory agree at each of them. -/
theorem State.Wf.pokeBytes {s : State} (hs : s.Wf) (bs : List Byte) {ba : Nat}
    (hb : ba + bs.length ≤ 2 ^ s.cfg.bits) :
    (s.pokeBytes ba bs).Wf ∧
      ∀ a, (ba ≤ a ∧ a < ba + bs.length) ∨ AgreesAt s a → AgreesAt (s.pokeBytes ba bs) a := by
  induction bs generalizing s ba with
  | nil => exact ⟨hs, fun a h => h.resolve_left (by simp only [List.length_nil]; omega)⟩
  | cons b bs ih =>
    simp only [List.length_cons] at hb ⊢
    obtain ⟨hwf, hagree⟩ := ih (hs.pokeByte (ba := ba) (by omega) b) (ba := ba + 1) (by rw [State.pokeByte_cfg]; omega)
    refine ⟨hwf, fun a h => hagree a ?_⟩
    by_cases hin : ba + 1 ≤ a ∧ a < ba + 1 + bs.length
    · exact .inl hin
    · exact .inr (AgreesAt.pokeByte hs b (h.imp_left fun _ => by omega))

/-- A dword placed is what Memory then holds. -/
theorem Memory.dword_writeBytes {m : Memory} (h : m.wf) (ba : Nat) (w : Word) :
    (m.writeBytes ba (wordBytes w)).dword ba = w :=
  State.cacheWrite_dword (s := { State.reset with mem := m }) h ba w

/-- The fetch after a word was placed at the bus address of an aligned pc reads it. -/
theorem State.fetchedWord_pokeBytes {s : State} (hs : s.Wf) (ha : Aligned (s.x .pc)) (w : Word) :
    (s.pokeBytes (busAddr s.cfg (s.x .pc)) (wordBytes w)).fetchedWord = w := by
  obtain ⟨hcfg, ⟨hmem, -⟩, -⟩ := id hs
  have hfits := busAddr_fits hcfg ha
  obtain ⟨hwf, hagree⟩ := hs.pokeBytes (wordBytes w) hfits
  have hpc : (s.pokeBytes (busAddr s.cfg (s.x .pc)) (wordBytes w)).x .pc = s.x .pc :=
    congrArg (fun rs => (rs.get .pc).toInt) (s.pokeBytes_regs _ _)
  rw [State.fetchedWord, State.pokeBytes_cfg, hpc, State.cacheRead_dword hwf (by rwa [State.pokeBytes_cfg]) fun j hj =>
    hagree _ (.inl ⟨Nat.le_add_right _ _, Nat.add_lt_add_left hj _⟩), State.pokeBytes_mem, Memory.dword_writeBytes hmem]

/-- Settles O59: the placed word is the low 32 bits, and placing bytes touches Memory and the cache only. -/
theorem aPlacedWordIsFetchedNext : Obligations.APlacedWordIsFetchedNext := by
  intro s w hs ha
  have hword : tableWord 32 w = BitVec.ofNat 32 w := by
    rw [tableWord, ← BitVec.toNat_inj, BitVec.toNat_ofNat, BitVec.toNat_ofNat, Nat.mod_mod]
  refine ⟨hword ▸ State.fetchedWord_pokeBytes hs ha (tableWord 32 w), ?_⟩
  unfold State.withFetchWord
  exact ⟨s.pokeBytes_regs _ _, s.pokeBytes_flags _ _, s.pokeBytes_stk _ _, s.pokeBytes_run _ _, s.pokeBytes_cfg _ _,
    s.pokeBytes_loaded _ _⟩

end Sys2Proof.Machine
end
